-- ==== Sys2Proof/Word.lean ====
section
/-! DEFINITION. The word types of PLLSYN's host registers (spec/10_state.md) and their plainest arithmetic. -/

namespace Sys2Proof

/-- A 32-bit host register: `A`, `B`, `R` (R13, R14, R16) and a Frequency at the host interface (R8, `FREQ_W` = 32). -/
abbrev Word32 := BitVec 32

/-- An 8-bit host register: `F` (R15) and the command code written to `CMD` (R20, R50). -/
abbrev Byte := BitVec 8

/-- The absolute difference of two naturals, `|a - b|` of R7: one of the two truncated differences is 0. -/
def absDiff (a b : Nat) : Nat := (a - b) + (b - a)

end Sys2Proof
end

