-- ==== Sys2Proof/Config.lean ====
section
/-! DEFINITION. The configuration record `CFG` of R6 (spec/00_scope.md): every parameter the source leaves open, as
plain data, and the one free value from which every "any value" of spec/93_implementation_defined.md is drawn. -/

namespace Sys2Proof

/-- The three divider families of R11 and R70: pre-divider `N`, post-divider `P`, multiplier `M`. -/
inductive Family where
  | n
  | p
  | m
deriving DecidableEq, Repr

/-- The codec parameters of one family f (R6, R72, R73): the register length `L_f`, the tapped positions `TAPS_f`, the
seed `SEED_f` and the three hand-assigned codes `SPECIAL_f(0)`, `SPECIAL_f(1)`, `SPECIAL_f(2)`. -/
structure FamilyCfg where
  len : Nat
  taps : List Nat
  seed : Nat
  special0 : Nat
  special1 : Nat
  special2 : Nat
deriving DecidableEq, Repr

/-- `Input` of R130. A field name of the clock tree is its number in `Graph.fieldWidths`; a node id is its position in
`Graph.nodes`. -/
inductive NodeInput where
  /-- `Direct(pred)`: one predecessor and no selector field. -/
  | direct (pred : Nat)
  /-- `Mux(sel, table)`: the selector field and the pairs (selector value, node id). -/
  | mux (sel : Nat) (table : List (Nat × Nat))
deriving DecidableEq, Repr

/-- `Node` of R130: the five kinds of node. -/
inductive Node where
  /-- A fixed-rate oscillator (R131). -/
  | fixed (rate : Nat)
  /-- The external input, at `EXT_RATE` (R131). -/
  | ext
  /-- A fixed-rate oscillator that runs while its gate field holds `on` (R131). -/
  | gated (rate : Nat) (gate : Nat) (on : Nat)
  /-- The PLL output, read through the memo `PLLFREQ` (R137). -/
  | pllOut
  /-- A node with an input and dividers applied in list order (R132, R133). -/
  | derived (input : NodeInput) (divs : List Nat)
deriving DecidableEq, Repr

/-- `GRAPH` of R130, with the clock-tree fields of R27: `fieldWidths` gives, for each clock-tree field, its width in
bits. `GRAPH.count` is the length of `nodes`. -/
structure Graph where
  nodes : List Node
  pllIn : Nat
  fieldWidths : List Nat
deriving DecidableEq, Repr

/-- `CFG` of R6. `REGMAP` is not held: no rule depends on it (R37). `FREQ_W` is the constant 32 (R8). -/
structure Config where
  famN : FamilyCfg
  famP : FamilyCfg
  famM : FamilyCfg
  /-- `SELI_STEP[0..3]` (R92). -/
  seliStep : Vector Nat 4
  /-- `SELI_LOW(M)` for 0 ≤ M < 60, as its table (R92). -/
  seliLow : Vector Nat 60
  seliMax : Nat
  selfiltHalveOnBypass : Bool
  selPW : Nat
  selIW : Nat
  selRW : Nat
  ssRefHz : Nat
  mdIntW : Nat
  cacheCap : Nat
  graph : Graph
  extRate : Nat
  forceMaxMult : Nat
  pllDomain : Nat
deriving DecidableEq, Repr

/-- THE FREE VALUE: the `k`-th value of `w` bits that the model draws where the spec says "any value" (R10 `any`, U1,
U2, U3 of spec/93_implementation_defined.md). It has no body, so nothing can be proved of which value it is. `k` is the
draw counter `State.draws`. See notes/assumptions/6.md. -/
opaque Config.freeBits (w : Nat) (k : Nat) : BitVec w

end Sys2Proof
end

