-- ==== Sys2Proof/Syntax.lean ====
section
/-! DEFINITION. The syntax of what reaches PLLSYN: the fourteen commands of R51, the named hardware fields of R26 and
R27, the parameter set of R18, and the actions of the host and of the environment (R59, R49, R190). -/

namespace Sys2Proof

/-- The fourteen commands of R51, one constructor per row of spec/opcode_table.json. A command carries no register
number and no immediate (R50), so no constructor has an argument. -/
inductive Instr where
  /-- ENC.N, code 0x10 (R79). -/
  | encN
  /-- DEC.N, code 0x11 (R80). -/
  | decN
  /-- ENC.P, code 0x12 (R81). -/
  | encP
  /-- DEC.P, code 0x13 (R82). -/
  | decP
  /-- ENC.M, code 0x14 (R83). -/
  | encM
  /-- DEC.M, code 0x15 (R84). -/
  | decM
  /-- SELFILT, code 0x20 (R95). -/
  | selfilt
  /-- SYNTH, code 0x30 (R113). -/
  | synth
  /-- CSYNTH, code 0x31 (R127). -/
  | csynth
  /-- FREQ.AT, code 0x40 (R139). -/
  | freqAt
  /-- PLL.RATE, code 0x41 (R141). -/
  | pllRate
  /-- PLL.OUT, code 0x42 (R142). -/
  | pllOut
  /-- PLL.RATEPS, code 0x43 (R143). -/
  | pllRatePs
  /-- APPLY, code 0x50 (R159). -/
  | apply
deriving DecidableEq, Repr

/-- The host registers of R13 to R19, by name (R36 space 1). `CMD` holds no state (R20) and is not among them. -/
inductive HostReg where
  | a
  | b
  | f
  | ps
  | r
  | mt
  | st
deriving DecidableEq, Repr

/-- The named fields of `HW`: the PLL fields of R26 and, under `tree`, the clock-tree fields of R27 by their number in
`GRAPH`. -/
inductive HwField where
  | ndec
  | pdec
  | mult
  | selP
  | selI
  | selR
  | directI
  | directO
  | bypass
  | fbdiv2
  | ssen
  | nreq
  | preq
  | mreq
  | lock
  | tree (id : Nat)
deriving DecidableEq, Repr

/-- `PSET` of R18, the parameter set. `mult`, `selP`, `selI` and `selR` are naturals because their widths are
parameters of `CFG`; `PSet.fits` of WellFormed.lean bounds them. -/
structure PSet where
  ndec : BitVec 10
  pdec : BitVec 7
  mult : Nat
  selP : Nat
  selI : Nat
  selR : Nat
  directI : Bool
  directO : Bool
  bypass : Bool
  fbdiv2 : Bool
  ssEnabled : Bool
deriving DecidableEq, Repr

/-- What the outside world can do to the block, one at a time: the lines of R59 (the host writes an operand register or
`CMD`; the environment sets a field of `HW`, R49), and the reset event of R190. `instant` is the model's own: the outside
world lets one instant of APPLY pass, so that what stands after it arrives between two of APPLY's events
(notes/assumptions/8.md). -/
inductive Action where
  /-- `W A, v`. -/
  | writeA (v : Word32)
  /-- `W B, v`. -/
  | writeB (v : Word32)
  /-- `W F, v`. -/
  | writeF (v : Byte)
  /-- `W PS, p`. -/
  | writePS (p : PSet)
  /-- The host writes a command code to `CMD` (R20). -/
  | cmd (code : Byte)
  /-- `HW field = v`: the environment, not the host, sets a field. -/
  | hw (field : HwField) (v : Nat)
  /-- The environment resets the block (R190). -/
  | reset
  /-- Nothing arrives for one instant: APPLY, if it runs, does one thing (R45, R150). -/
  | instant
deriving DecidableEq, Repr

/-- The actions that are accesses of the host; the others are the environment's (R59, R190). -/
def Action.byHost : Action → Bool
  | .writeA _ => true
  | .writeB _ => true
  | .writeF _ => true
  | .writePS _ => true
  | .cmd _ => true
  | .hw _ _ => false
  | .reset => false
  | .instant => false

end Sys2Proof
end

