-- ==== Sys2Proof/Machine/Params.lean ====
section
/-! DEFINITION. The constants the source fixes (R5, R70) and the widths that `CFG` determines (R18, R26). -/

namespace Sys2Proof

/-- `W_f`: the width of a family's code (R5, R70). -/
def Family.width : Family → Nat
  | .n => 10
  | .p => 7
  | .m => 17

/-- `MAX_f`: the largest raw value of a family (R5, R70). -/
def Family.maxRaw : Family → Nat
  | .n => 256
  | .p => 32
  | .m => 32768

/-- The codec parameters of a family (R6). -/
def Config.family (cfg : Config) : Family → FamilyCfg
  | .n => cfg.famN
  | .p => cfg.famP
  | .m => cfg.famM

/-- `OUT_MAX_HZ` (R5). -/
def outMaxHz : Nat := 150000000

/-- `CCO_MIN_HZ` (R5). -/
def ccoMinHz : Nat := 75000000

/-- `OUT_MIN_HZ` = 75 000 000 / 64 (R5). -/
def outMinHz : Nat := 1171875

/-- `SS_IN_MIN_HZ` (R5). -/
def ssInMinHz : Nat := 2000000

/-- `IN_MIN_HZ` (R5). -/
def inMinHz : Nat := 4000

/-- `GCD_MIN_HZ` (R5). -/
def gcdMinHz : Nat := 20000

/-- `FRAC_W` (R5). -/
def fracW : Nat := 11

/-- `SELP_SAT` (R5). -/
def selPSat : Nat := 31

/-- `LOCK_PULSE_US`, taken as exactly 72 (R155, R199). -/
def lockPulseUs : Nat := 72

/-- A Frequency that fits the host interface is below 2^`FREQ_W` (R8). -/
def freqLimit : Nat := 2 ^ 32

/-- `MULT_W` = max(`W_M`, `MD_INT_W` + `FRAC_W`) (R18). -/
def Config.multW (cfg : Config) : Nat := max 17 (cfg.mdIntW + fracW)

/-- `GRAPH.count` (R130). -/
def Graph.count (g : Graph) : Nat := g.nodes.length

/-- The width of a field of `HW` (R26, R27); `none` for a clock-tree field that `GRAPH` does not have. -/
def HwField.width (cfg : Config) : HwField → Option Nat
  | .ndec => some 10
  | .pdec => some 7
  | .mult => some cfg.multW
  | .selP => some cfg.selPW
  | .selI => some cfg.selIW
  | .selR => some cfg.selRW
  | .directI => some 1
  | .directO => some 1
  | .bypass => some 1
  | .fbdiv2 => some 1
  | .ssen => some 1
  | .nreq => some 1
  | .preq => some 1
  | .mreq => some 1
  | .lock => some 1
  | .tree id => cfg.graph.fieldWidths[id]?

end Sys2Proof
end

