-- ==== Sys2Proof/WellFormed.lean ====
section
/-! DEFINITION. Which terms of the syntax are well formed: a command always is (R50), a parameter set when its fields
fit their widths (R18), an action when the value it carries fits what it is written to (R39, R59). -/

namespace Sys2Proof

/-- A command has no operand to check: its operands are whatever the host registers hold (R50, R52). -/
def Instr.wf : Instr → Bool
  | .encN => true
  | .decN => true
  | .encP => true
  | .decP => true
  | .encM => true
  | .decM => true
  | .selfilt => true
  | .synth => true
  | .csynth => true
  | .freqAt => true
  | .pllRate => true
  | .pllOut => true
  | .pllRatePs => true
  | .apply => true

/-- Every field of a parameter set fits its width (R18, R162). -/
def PSet.fits (cfg : Config) (p : PSet) : Bool :=
  decide (p.mult < 2 ^ cfg.multW) && decide (p.selP < 2 ^ cfg.selPW) &&
    decide (p.selI < 2 ^ cfg.selIW) && decide (p.selR < 2 ^ cfg.selRW)

/-- `v` is a value of the field `f`: the field exists and `v` is below 2^width (R38, R39). -/
def HwField.admits (cfg : Config) (f : HwField) (v : Nat) : Bool :=
  match f.width cfg with
  | some w => decide (v < 2 ^ w)
  | none => false

/-- An action carries values that fit: the 32-bit and 8-bit registers by their types, the others by this check. -/
def Action.wf (cfg : Config) : Action → Bool
  | .writeA _ => true
  | .writeB _ => true
  | .writeF _ => true
  | .writePS p => p.fits cfg
  | .cmd _ => true
  | .hw f v => f.admits cfg v
  | .reset => true
  | .instant => true

end Sys2Proof
end

