-- ==== Sys2Proof/Decode.lean ====
section
/-! DEFINITION. The command decoder of R50, R51 and R57, total on any byte, and the encoder written from the same
format. -/

namespace Sys2Proof

/-- Why a byte is no command. -/
inductive DecodeError where
  /-- The code is none of R51: reserved, without a meaning (R57). Safe: the run stops. -/
  | reservedCode (code : Byte)
deriving DecidableEq, Repr

/-- The field `fam` of format `C0`, bits [7:4] (R50). -/
def famField (code : Byte) : BitVec 4 := code.extractLsb' 4 4

/-- The field `op` of format `C0`, bits [3:0] (R50). -/
def opField (code : Byte) : BitVec 4 := code.extractLsb' 0 4

/-- The commands of family 1: `op[0]` is the direction, `op[2:1]` the divider family, `op[3]` is 0 (R50). -/
def decodeCodec (op : BitVec 4) : Option Instr :=
  match op.toNat with
  | 0 => some .encN
  | 1 => some .decN
  | 2 => some .encP
  | 3 => some .decP
  | 4 => some .encM
  | 5 => some .decM
  | _ => none

/-- The commands of family 3, the synthesizer and its cache (R50, R51). -/
def decodeSynth (op : BitVec 4) : Option Instr :=
  match op.toNat with
  | 0 => some .synth
  | 1 => some .csynth
  | _ => none

/-- The commands of family 4, the resolver (R50, R51). -/
def decodeResolver (op : BitVec 4) : Option Instr :=
  match op.toNat with
  | 0 => some .freqAt
  | 1 => some .pllRate
  | 2 => some .pllOut
  | 3 => some .pllRatePs
  | _ => none

/-- Families 2 and 5 have one command each, at `op` 0 (R50, R51). -/
def decodeSingle (i : Instr) (op : BitVec 4) : Option Instr :=
  match op.toNat with
  | 0 => some i
  | _ => none

/-- The command a code names, by family (R50, R51). -/
def decodeFields (fam op : BitVec 4) : Option Instr :=
  match fam.toNat with
  | 1 => decodeCodec op
  | 2 => decodeSingle .selfilt op
  | 3 => decodeSynth op
  | 4 => decodeResolver op
  | 5 => decodeSingle .apply op
  | _ => none

/-- The decoder: total on any byte, a reserved code rejected by name (R51, R57). -/
def decode (code : Byte) : Except DecodeError Instr :=
  match decodeFields (famField code) (opField code) with
  | some i => .ok i
  | none => .error (.reservedCode code)

/-- The field `fam` of a command (R50, R51). -/
def Instr.fam : Instr → BitVec 4
  | .encN => 1
  | .decN => 1
  | .encP => 1
  | .decP => 1
  | .encM => 1
  | .decM => 1
  | .selfilt => 2
  | .synth => 3
  | .csynth => 3
  | .freqAt => 4
  | .pllRate => 4
  | .pllOut => 4
  | .pllRatePs => 4
  | .apply => 5

/-- `op` of a codec command: 0, the divider family in two bits, the direction in one (R50). -/
def codecOp (family : BitVec 2) (dir : BitVec 1) : BitVec 4 := (0#1) ++ family ++ dir

/-- The field `op` of a command (R50, R51). -/
def Instr.op : Instr → BitVec 4
  | .encN => codecOp 0 0
  | .decN => codecOp 0 1
  | .encP => codecOp 1 0
  | .decP => codecOp 1 1
  | .encM => codecOp 2 0
  | .decM => codecOp 2 1
  | .selfilt => 0
  | .synth => 0
  | .csynth => 1
  | .freqAt => 0
  | .pllRate => 1
  | .pllOut => 2
  | .pllRatePs => 3
  | .apply => 0

/-- The encoder: the command word of R50, `fam` in the high four bits. -/
def encode (i : Instr) : Byte := i.fam ++ i.op

/-- The instruction the decoder reads from a table word: one byte, bit 0 the least significant (R50). -/
def decodeTableWord (nbits w : Nat) : Option Instr :=
  if nbits = 8 ∧ w < 2 ^ nbits then
    match decode (BitVec.ofNat 8 w) with
    | .ok i => some i
    | .error _ => none
  else none

end Sys2Proof
end

