-- ==== Sys2Proof/Machine/Reference.lean ====
section
/-! DEFINITION. The reference instantiation `REF` of spec/93_implementation_defined.md section 3 and the illustrative
graph `GRAPH_EX` of spec/95_test_vectors.md section 6. They are the configuration State.reset starts from and the one the
tests use; every meaning is written for an arbitrary `Config` (R6). PRESUMED: notes/assumptions/2.md. -/

namespace Sys2Proof

/-- `REF`, family N (section 3.1). -/
def Config.refN : FamilyCfg :=
  { len := 8, taps := [0, 2, 3, 4], seed := 0x040, special0 := 0x3FF, special1 := 0x302, special2 := 0x202 }

/-- `REF`, family P (section 3.1). -/
def Config.refP : FamilyCfg :=
  { len := 5, taps := [0, 2], seed := 0x08, special0 := 0x7F, special1 := 0x62, special2 := 0x42 }

/-- `REF`, family M (section 3.1). -/
def Config.refM : FamilyCfg :=
  { len := 15, taps := [0, 1], seed := 0x2000, special0 := 0x1FFFF, special1 := 0x18003, special2 := 0x10003 }

/-- `SELI_LOW(Me) = (Me & 0x3C) + 4` for 0 ≤ Me < 60 (section 3.2). -/
def Config.refSeliLow : Vector Nat 60 :=
  ⟨((List.range 60).map fun me => (me &&& 0x3C) + 4).toArray, by simp⟩

/-- `GRAPH_EX`: the eleven nodes of spec/95_test_vectors.md section 6. Its clock-tree fields are numbered 0
`PDEN_WDTOSC`, 1 `RTCOSC_EN`, 2 `MAINCLKSELA`, 3 `PLLCLKSEL`, 4 `MAINCLKSELB`, 5 `AHBDIV`, 6 `ASYNCSEL`, 7 `ASYNCDIV`,
8 `PERDIV_A`, 9 `PERDIV_B`; the spec gives no widths for them, and these are this model's. -/
def Graph.ex : Graph :=
  { nodes :=
      [ .fixed 12000000,
        .ext,
        .gated 500000 0 0,
        .gated 32768 1 1,
        .derived (.mux 2 [(0, 0), (1, 1), (2, 2)]) [],
        .derived (.mux 3 [(0, 0), (1, 1), (3, 3)]) [],
        .pllOut,
        .derived (.mux 4 [(0, 4), (1, 5), (2, 6), (3, 3)]) [],
        .derived (.direct 7) [5],
        .derived (.mux 6 [(0, 7), (1, 0)]) [7],
        .derived (.direct 8) [8, 9] ]
    pllIn := 5
    fieldWidths := [1, 1, 2, 3, 3, 8, 2, 8, 8, 8] }

/-- `REF` with `GRAPH_EX`, `EXT_RATE` = 16 000 000 and `CACHE_CAP` = 2 of the vectors, the forced M code 0x5DD2 of
section 3.4, and 0 for the opaque identifier `PLL_DOMAIN`. -/
def Config.ref : Config :=
  { famN := Config.refN
    famP := Config.refP
    famM := Config.refM
    seliStep := #v[1, 2, 4, 8]
    seliLow := Config.refSeliLow
    seliMax := 63
    selfiltHalveOnBypass := true
    selPW := 5
    selIW := 6
    selRW := 4
    ssRefHz := 3000000
    mdIntW := 8
    cacheCap := 2
    graph := Graph.ex
    extRate := 16000000
    forceMaxMult := 0x5DD2
    pllDomain := 0 }

end Sys2Proof
end

