-- ==== Sys2Proof/Machine/State.lean ====
section
/-! DEFINITION. The state of PLLSYN (spec/10_state.md): the host registers, the internal state, the hardware register
snapshot, and the model's own fields; the reasons a step can stop; and the state after reset (R30, R190). -/

namespace Sys2Proof.Machine

/-- The clock-tree fields of `HW` (R27) as (field number, value) pairs in one canonical form: numbers strictly rising
and no pair whose value is what an unlisted field reads as (`Memory.unlisted` of Ops.lean). -/
abbrev Memory := List (Nat × Nat)

/-- The PLL fields of `HW` (R26). -/
structure PllRegs where
  ndec : BitVec 10
  pdec : BitVec 7
  mult : Nat
  selP : Nat
  selI : Nat
  selR : Nat
  directI : Bool
  directO : Bool
  bypass : Bool
  fbdiv2 : Bool
  ssen : Bool
  nreq : Bool
  preq : Bool
  mreq : Bool
  /-- `PLL_LOCK`: set and cleared by the hardware, never written by PLLSYN. -/
  lock : Bool
deriving DecidableEq, Repr

/-- The hardware register snapshot `HW`: the PLL fields (R26) and the clock-tree fields (R27). -/
structure Hw where
  pll : PllRegs
  tree : Memory
deriving DecidableEq, Repr

/-- The key of a cache entry (R21). -/
structure Key where
  fin : Word32
  fout : Word32
  fb2 : Bool
  ss : Bool
deriving DecidableEq, Repr

/-- One slot of the cache ring `SC` (R21, R120). -/
structure Slot where
  valid : Bool
  key : Key
  val : PSet
deriving DecidableEq, Repr

/-- Which host registers hold a value (R31): the host wrote them, or a command did, since reset. -/
structure Held where
  a : Bool
  b : Bool
  f : Bool
  ps : Bool
  r : Bool
  mt : Bool
  st : Bool
deriving DecidableEq, Repr

/-- The externally visible events of APPLY (R160), which the model records in order (R39, R43). -/
inductive Event where
  /-- `PD.enableDomain(id)`: the block is powered DOWN (R180). -/
  | pdEnable (id : Nat)
  /-- `PD.disableDomain(id)`: the block is powered UP (R180). -/
  | pdDisable (id : Nat)
  /-- `PD.setVoltageForFrequency(freq)` (R158, R180). -/
  | pdSetVoltage (freq : Word32)
  /-- `Delay.delayAtLeastMicros(us)` (R181). -/
  | delay (us : Nat)
  /-- `FieldWrite(field, v)` (R39). -/
  | fieldWrite (field : HwField) (v : Nat)
  /-- The pair write `{field = v, req = b}` of R152: both fields at one instant. -/
  | pairWrite (field : HwField) (v : Nat) (req : HwField) (b : Bool)
  /-- `FieldRead(field)` that returned `v` (R38). -/
  | fieldRead (field : HwField) (v : Nat)
  /-- `PLLFREQ` written (R157). -/
  | memoWrite (freq : Word32)
  /-- `ST` written (R159). -/
  | statusWrite (code : BitVec 3)
deriving DecidableEq, Repr

/-- One of the things APPLY does, each at an instant of its own (R45, R150, R160). -/
inductive ApplyStep where
  /-- A call or a write of steps 1 to 3 (R151 to R155). -/
  | event (e : Event)
  /-- A poll of `PLL_LOCK`, repeated until it reads 1 (R156). -/
  | poll
  /-- The PLL input resolved over the snapshot of this instant, and the memo (R157). -/
  | memo
  /-- The voltage call (R158). -/
  | voltage
  /-- `ST` <- Success (R159). -/
  | status
deriving DecidableEq, Repr

/-- The whole state. The first group is the parameter of the step relation, the next three are the spec's state, the
last is the model's own. -/
structure State where
  /-- `CFG` (R6, R29): fixed; no step changes it. -/
  cfg : Config
  /-- `A` (R13). -/
  a : Word32
  /-- `B` (R14). -/
  b : Word32
  /-- `F` (R15). -/
  f : Byte
  /-- `R` (R16). -/
  r : Word32
  /-- `MT` (R17). -/
  mt : Bool
  /-- `PS` (R18). -/
  ps : PSet
  /-- `ST` (R19). -/
  st : BitVec 3
  /-- Which of the seven host registers hold a value (R31). -/
  held : Held
  /-- `SC` (R21): `CACHE_CAP` slots. -/
  sc : List Slot
  /-- `SC_CUR` (R22). -/
  scCur : Nat
  /-- `PLLFREQ` (R23). -/
  pllFreq : Word32
  /-- `HW` (R26, R27). -/
  hw : Hw
  /-- What a running APPLY has still to do, in order (R150, R160); empty when no command runs. -/
  pending : List ApplyStep
  /-- What the outside world does next, in order of arrival (R59, R49, R190). -/
  inputs : List Action
  /-- The model's record of APPLY's events (R160), oldest first. -/
  trace : List Event
  /-- The model's counter of free values drawn. -/
  draws : Nat
  /-- The model's mark of the run (R31, R189): a command read an operand register that nothing had written. -/
  unheldRead : Bool
deriving DecidableEq, Repr

/-- Faults: there is none. No behaviour of PLLSYN is treated as a fault (spec/93_implementation_defined.md section 1:
the block has no trap, R175), so the type has no constructor. Safe. -/
inductive Fault where
deriving DecidableEq, Repr

/-- Why a step is refused (R189). A refusal is safe: the run stops and nothing is proved past it. -/
inductive Refusal where
  /-- An instruction without a meaning, by its mnemonic. Raised by no arm of exec today. Safe. -/
  | notModelled (mnemonic : String)
  /-- A reserved `CMD` code (R57, U5). Raised by issuing a command. Safe. -/
  | reservedCode (code : Byte)
  /-- FREQ.AT with `A` ≥ `GRAPH.count` (R61, U9). Raised by FREQ.AT. Safe. -/
  | noSuchNode (id : Nat)
  /-- A spread-spectrum request whose derived pre-divider is 0 (R104, R129, U4). Raised by SYNTH and CSYNTH. Safe. -/
  | ssPreDividerZero
  /-- The host writes `CMD` or an operand register while APPLY runs (R194, U7). Raised by the step. Safe. -/
  | concurrentAccess
  /-- The environment or the host writes a value that does not fit the field (R39, R18). Raised by the step. Safe. -/
  | valueTooWide
  /-- `CFG` violates a well-formedness condition (R189, U12). Raised by boot, and by a graph walk that meets a node id
  outside the graph or a cycle. Safe. -/
  | inadmissibleConfig
deriving DecidableEq, Repr

/-- The outcome of a command or of a step. -/
abbrev Result := Host.Outcome State Fault Refusal

/-- The all-zero parameter set: what `PS` and the slots hold at reset (DESIGN CHOICE, notes/assumptions/1.md). -/
def PSet.zero : PSet :=
  { ndec := 0, pdec := 0, mult := 0, selP := 0, selI := 0, selR := 0, directI := false, directO := false,
    bypass := false, fbdiv2 := false, ssEnabled := false }

/-- An empty slot: `valid` 0 (R30); key and value are never read while it is (U11). -/
def Slot.empty : Slot :=
  { valid := false, key := { fin := 0, fout := 0, fb2 := false, ss := false }, val := PSet.zero }

/-- No host register holds a value (R30, R31). -/
def Held.none : Held :=
  { a := false, b := false, f := false, ps := false, r := false, mt := false, st := false }

/-- `HW` with every field 0 (DESIGN CHOICE: the spec gives no value, U10; notes/assumptions/3.md). -/
def Hw.zero : Hw :=
  { pll :=
      { ndec := 0, pdec := 0, mult := 0, selP := 0, selI := 0, selR := 0, directI := false, directO := false,
        bypass := false, fbdiv2 := false, ssen := false, nreq := false, preq := false, mreq := false, lock := false }
    tree := [] }

/-- The state after the first reset with configuration `cfg` and hardware fields `hw` (R30, R190). -/
def State.initial (cfg : Config) (hw : Hw) : State :=
  { cfg := cfg, a := 0, b := 0, f := 0, r := 0, mt := false, ps := PSet.zero, st := 0, held := Held.none,
    sc := List.replicate cfg.cacheCap Slot.empty, scCur := 0, pllFreq := 0, hw := hw, pending := [], inputs := [],
    trace := [], draws := 0, unheldRead := false }

/-- The machine right after reset: the values of R30, with `REF` for the open configuration and 0 for the hardware
fields (notes/assumptions/1.md, 2.md, 3.md). -/
def State.reset : State := State.initial Config.ref Hw.zero

end Sys2Proof.Machine
end

