-- ==== Sys2Proof/Machine/Ops.lean ====
section
/-! DEFINITION. The named operations over the state: the clock-tree fields, FieldRead and FieldWrite (R38, R39), the
writes of the host registers, the `fail K` of R172, the event record of R160 and the reset event of R190. -/

namespace Sys2Proof.Machine

/-! ### The clock-tree fields -/

/-- What a clock-tree field that nothing has written reads as. The spec gives no value (U10): DESIGN CHOICE,
notes/assumptions/3.md. -/
def Memory.unlisted : Nat := 0

/-- The value of clock-tree field `id`. -/
def Memory.read : Memory → Nat → Nat
  | [], _ => Memory.unlisted
  | (k, v) :: rest, id => if k = id then v else Memory.read rest id

/-- Put a pair in front of a list whose numbers are all larger, unless the value is what an unlisted field reads as. -/
def Memory.put (id v : Nat) (rest : Memory) : Memory :=
  if v = Memory.unlisted then rest else (id, v) :: rest

/-- Write clock-tree field `id`, keeping the canonical form. -/
def Memory.write : Memory → Nat → Nat → Memory
  | [], id, v => Memory.put id v []
  | (k, w) :: rest, id, v =>
    if id < k then Memory.put id v ((k, w) :: rest)
    else if id = k then Memory.put id v rest
    else (k, w) :: Memory.write rest id v

/-- Every number of the list is above `lo`. -/
def Memory.above (lo : Nat) : Memory → Bool
  | [] => true
  | (k, _) :: rest => decide (lo < k) && Memory.above lo rest

/-- The canonical form: numbers strictly rising, no value equal to what an unlisted field reads as. -/
def Memory.wf : Memory → Bool
  | [] => true
  | (k, v) :: rest => decide (v ≠ Memory.unlisted) && Memory.above k rest && Memory.wf rest

/-! ### FieldRead and FieldWrite -/

/-- `FieldRead(field)`: the current value of the named field, without any effect (R38). -/
def Hw.read (hw : Hw) : HwField → Nat
  | .ndec => hw.pll.ndec.toNat
  | .pdec => hw.pll.pdec.toNat
  | .mult => hw.pll.mult
  | .selP => hw.pll.selP
  | .selI => hw.pll.selI
  | .selR => hw.pll.selR
  | .directI => hw.pll.directI.toNat
  | .directO => hw.pll.directO.toNat
  | .bypass => hw.pll.bypass.toNat
  | .fbdiv2 => hw.pll.fbdiv2.toNat
  | .ssen => hw.pll.ssen.toNat
  | .nreq => hw.pll.nreq.toNat
  | .preq => hw.pll.preq.toNat
  | .mreq => hw.pll.mreq.toNat
  | .lock => hw.pll.lock.toNat
  | .tree id => Memory.read hw.tree id

/-- The 1-bit field value of a natural below 2. -/
def bitOf (v : Nat) : Bool := decide (v = 1)

/-- `FieldWrite(field, v)`: sets the named field to `v`, which is below 2^width (R39); nothing else changes. -/
def Hw.write (hw : Hw) (field : HwField) (v : Nat) : Hw :=
  match field with
  | .ndec => { hw with pll := { hw.pll with ndec := BitVec.ofNat 10 v } }
  | .pdec => { hw with pll := { hw.pll with pdec := BitVec.ofNat 7 v } }
  | .mult => { hw with pll := { hw.pll with mult := v } }
  | .selP => { hw with pll := { hw.pll with selP := v } }
  | .selI => { hw with pll := { hw.pll with selI := v } }
  | .selR => { hw with pll := { hw.pll with selR := v } }
  | .directI => { hw with pll := { hw.pll with directI := bitOf v } }
  | .directO => { hw with pll := { hw.pll with directO := bitOf v } }
  | .bypass => { hw with pll := { hw.pll with bypass := bitOf v } }
  | .fbdiv2 => { hw with pll := { hw.pll with fbdiv2 := bitOf v } }
  | .ssen => { hw with pll := { hw.pll with ssen := bitOf v } }
  | .nreq => { hw with pll := { hw.pll with nreq := bitOf v } }
  | .preq => { hw with pll := { hw.pll with preq := bitOf v } }
  | .mreq => { hw with pll := { hw.pll with mreq := bitOf v } }
  | .lock => { hw with pll := { hw.pll with lock := bitOf v } }
  | .tree id => { hw with tree := Memory.write hw.tree id v }

/-! ### The host registers -/

/-- A command writes `R` (R16). -/
def State.setR (s : State) (v : Word32) : State :=
  { s with r := v, held := { s.held with r := true } }

/-- A DEC command writes `MT` (R17). -/
def State.setMT (s : State) (b : Bool) : State :=
  { s with mt := b, held := { s.held with mt := true } }

/-- A command writes `ST` (R19). -/
def State.setST (s : State) (code : BitVec 3) : State :=
  { s with st := code, held := { s.held with st := true } }

/-- SYNTH, CSYNTH or the host replaces `PS` whole (R18). -/
def State.setPS (s : State) (p : PSet) : State :=
  { s with ps := p, held := { s.held with ps := true } }

/-! ### Frequencies that leave the natural numbers (R8, U3) -/

/-- A Frequency result in 32 bits: itself when it fits, else any value, the `draw`-th free value (R8, U3). -/
def freqWord (draw v : Nat) : Word32 :=
  if v < freqLimit then BitVec.ofNat 32 v else Config.freeBits 32 draw

/-- How many free values `freqWord` draws. -/
def freqDraws (v : Nat) : Nat := if v < freqLimit then 0 else 1

/-- A command writes a Frequency to `R`. -/
def State.setRFreq (s : State) (v : Nat) : State :=
  { s with r := freqWord s.draws v, held := { s.held with r := true }, draws := s.draws + freqDraws v }

/-- A command writes `PLLFREQ` (R23). -/
def State.setPllFreq (s : State) (v : Nat) : State :=
  { s with pllFreq := freqWord s.draws v, draws := s.draws + freqDraws v }

/-! ### Events -/

/-- Append to the record of APPLY's events (R160). -/
def State.record (s : State) (e : Event) : State := { s with trace := s.trace ++ [e] }

/-- What an event does to `HW`: a write writes, a pair write writes both fields (R152), a call or a read does nothing to
it (R38, R180, R181; what a collaborator does inside is outside the spec, U14). -/
def Event.onHw (e : Event) (hw : Hw) : Hw :=
  match e with
  | .fieldWrite field v => hw.write field v
  | .pairWrite field v req b => (hw.write field v).write req b.toNat
  | .pdEnable _ => hw
  | .pdDisable _ => hw
  | .pdSetVoltage _ => hw
  | .delay _ => hw
  | .fieldRead _ _ => hw
  | .memoWrite _ => hw
  | .statusWrite _ => hw

/-- One event happens: its effect on `HW`, and its place in the record. -/
def State.perform (s : State) (e : Event) : State :=
  { s with hw := e.onHw s.hw, trace := s.trace ++ [e] }

/-- Events happen in list order, each complete before the next starts (R45, R150). -/
def State.performAll (s : State) (es : List Event) : State := es.foldl State.perform s

/-! ### Reset -/

/-- The reset event (R190): the values of R30. `HW` is untouched, `CFG` is fixed; what the outside world does next, the
model's record, its draw counter and its mark stay. -/
def State.afterReset (s : State) : State :=
  { State.initial s.cfg s.hw with
    inputs := s.inputs, trace := s.trace, draws := s.draws, unheldRead := s.unheldRead }

/-! ### What the host can read (R31) -/

/-- A host read of `R`: no value before a command wrote it. -/
def State.hostR (s : State) : Option Word32 := if s.held.r then some s.r else none

/-- A host read of `MT`. -/
def State.hostMT (s : State) : Option Bool := if s.held.mt then some s.mt else none

/-- A host read of `ST`. -/
def State.hostST (s : State) : Option (BitVec 3) := if s.held.st then some s.st else none

/-- A host read of `PS` (R18: the host may keep a copy). -/
def State.hostPS (s : State) : Option PSet := if s.held.ps then some s.ps else none

end Sys2Proof.Machine
end

