-- ==== Sys2Proof/Machine/Flags.lean ====
section
/-! DEFINITION. The status bits (R25): the error kinds and their numbers in `ST` (R54, R170), completing with Success,
the `fail K` of R172, and the default policy for a decode that failed (R77). -/

namespace Sys2Proof.Machine

/-- The error kinds, exhaustive (R170). -/
inductive ErrKind where
  | inputTooLow
  | inputTooHigh
  | outputTooHigh
  | outputTooLow
  | outsideIntLimit
deriving DecidableEq, Repr

/-- `code(K)`: the number of a kind in `ST` (R54). -/
def ErrKind.code : ErrKind → BitVec 3
  | .inputTooLow => 1
  | .inputTooHigh => 2
  | .outputTooHigh => 3
  | .outputTooLow => 4
  | .outsideIntLimit => 5

/-- The number of Success in `ST` (R54). -/
def successCode : BitVec 3 := 0

/-- A command completes: `ST` <- Success (R19, R54). -/
def State.succeed (s : State) : State := s.setST successCode

/-- TAKING AN ERROR, `fail K` (R172): `ST` <- code(K) and no other write, and the command completes. PLLSYN has no trap:
nothing is saved, no mode changes, and there is no return (R175, R176). -/
def State.fail (s : State) (k : ErrKind) : State := s.setST k.code

/-- `orDefault1` (R77): no match and raw 0 both count as divider 1. -/
def orDefault1 : Option Nat → Nat
  | none => 1
  | some 0 => 1
  | some (r + 1) => r + 1

end Sys2Proof.Machine
end

