-- ==== Sys2Proof/Machine/Operands.lean ====
section
/-! DEFINITION. Operand assembly (R52, R53): which host registers a command reads, the flag bits of `F`, the key of a
synthesis request, and the parameter set read from `HW` (R145). -/

namespace Sys2Proof.Machine

/-- The operand registers each command reads (R52, column "reads"). -/
def operandRegs : Instr → List HostReg
  | .encN => [.a]
  | .decN => [.a]
  | .encP => [.a]
  | .decP => [.a]
  | .encM => [.a]
  | .decM => [.a]
  | .selfilt => [.a, .f]
  | .synth => [.a, .b, .f]
  | .csynth => [.a, .b, .f]
  | .freqAt => [.a]
  | .pllRate => []
  | .pllOut => [.f]
  | .pllRatePs => [.a, .ps]
  | .apply => [.ps, .f]

/-- Does a host register hold a value (R31)? -/
def Held.has (h : Held) : HostReg → Bool
  | .a => h.a
  | .b => h.b
  | .f => h.f
  | .ps => h.ps
  | .r => h.r
  | .mt => h.mt
  | .st => h.st

/-- Something has written every operand register of a command since reset (R31). -/
def State.operandsHeld (s : State) (i : Instr) : Bool := (operandRegs i).all s.held.has

/-- Mark the run when a command reads an operand register that nothing has written (R31, R189). The command reads the
value such a register has at reset: DESIGN CHOICE, notes/assumptions/1.md. -/
def State.noteOperands (s : State) (i : Instr) : State :=
  { s with unheldRead := s.unheldRead || !s.operandsHeld i }

/-- Bit `k` of `F` (R53). -/
def State.flag (s : State) (k : Nat) : Bool := s.f.getLsbD k

/-- `F[0]` of SELFILT (R53). -/
def State.bypassFeedbackDiv2 (s : State) : Bool := s.flag 0

/-- `F[0]` of SYNTH and CSYNTH (R53). -/
def State.useFeedbackDiv2 (s : State) : Bool := s.flag 0

/-- `F[1]` of SYNTH and CSYNTH (R53). -/
def State.useSpreadSpectrum (s : State) : Bool := s.flag 1

/-- `F[0]` of PLL.OUT (R53). -/
def State.recompute (s : State) : Bool := s.flag 0

/-- `F[0]` of APPLY (R53). -/
def State.powerUp (s : State) : Bool := s.flag 0

/-- `F[1]` of APPLY (R53). -/
def State.waitForLock (s : State) : Bool := s.flag 1

/-- `F[2]` of APPLY (R53). -/
def State.adjustVoltage (s : State) : Bool := s.flag 2

/-- The request of SYNTH and CSYNTH: `A`, `B`, `F[0]`, `F[1]` (R52); the ignored bits of `F` take no part (R121). -/
def State.request (s : State) : Key :=
  { fin := s.a, fout := s.b, fb2 := s.useFeedbackDiv2, ss := s.useSpreadSpectrum }

/-- `snapshotPset()` (R145): the parameter set read from `HW`; the filter coefficients are not read and are 0. -/
def snapshotPset (hw : Hw) : PSet :=
  { ndec := hw.pll.ndec, pdec := hw.pll.pdec, mult := hw.pll.mult, selP := 0, selI := 0, selR := 0,
    directI := hw.pll.directI, directO := hw.pll.directO, bypass := hw.pll.bypass, fbdiv2 := hw.pll.fbdiv2,
    ssEnabled := hw.pll.ssen }

end Sys2Proof.Machine
end

