-- ==== Sys2Proof/Machine/Bandwidth.lean ====
section
/-! DEFINITION. The Bandwidth Selector (spec/41_bandwidth_selector.md) and the command SELFILT. -/

namespace Sys2Proof.Machine

/-- The filter triple (R90). -/
structure Filter where
  selP : Nat
  selI : Nat
  selR : Nat
deriving DecidableEq, Repr

/-- The effective multiplier `Me` (R91). -/
def effectiveMult (cfg : Config) (m : Nat) (byp : Bool) : Nat :=
  if cfg.selfiltHalveOnBypass && byp then m / 2 else m

/-- selP (R93). -/
def filterP (me : Nat) : Nat := if me < 60 then me / 2 + 1 else selPSat

/-- `raw_selI` (R92): the masked formula below 60, the inverse-proportional band, then the step table. -/
def rawFilterI (cfg : Config) (me : Nat) : Nat :=
  if h : me < 60 then cfg.seliLow[me]
  else if me < 501 then 4 * (1024 / (me + 9))
  else if me ≤ 2048 then cfg.seliStep[3]
  else if me ≤ 8192 then cfg.seliStep[2]
  else if me ≤ 16384 then cfg.seliStep[1]
  else cfg.seliStep[0]

/-- selI, clamped (R92). -/
def filterI (cfg : Config) (me : Nat) : Nat := min (rawFilterI cfg me) cfg.seliMax

/-- `selfilt(M, byp)` (R90); selR is always 0 (R94). -/
def selfilt (cfg : Config) (m : Nat) (byp : Bool) : Filter :=
  { selP := filterP (effectiveMult cfg m byp), selI := filterI cfg (effectiveMult cfg m byp), selR := 0 }

/-- The packing of the triple into `R` (R95). -/
def Filter.packed (t : Filter) : Nat := (t.selR <<< 16) ||| (t.selI <<< 8) ||| t.selP

/-- SELFILT (R95). -/
def execSelfilt (s : State) : Result :=
  .next ((s.setR (BitVec.ofNat 32 (selfilt s.cfg s.a.toNat s.bypassFeedbackDiv2).packed)).succeed)

end Sys2Proof.Machine
end

