-- ==== Sys2Proof/Machine/Codec.lean ====
section
/-! DEFINITION. The Divider Codec (spec/40_divider_codec.md) and the six commands ENC.N, DEC.N, ENC.P, DEC.P, ENC.M,
DEC.M. -/

namespace Sys2Proof.Machine

/-- The exclusive or of the tapped bits of `x` (R72). -/
def feedback : List Nat → Nat → Nat
  | [], _ => 0
  | t :: rest, x => ((x >>> t) &&& 1) ^^^ feedback rest x

/-- `step_f` (R72): bit 0 is shifted out and the feedback becomes bit `L_f` - 1. -/
def lfsrStep (c : FamilyCfg) (x : Nat) : Nat := (feedback c.taps x <<< (c.len - 1)) ||| (x >>> 1)

/-- `step_f` applied a number of times (R73). -/
def lfsrIter (c : FamilyCfg) : Nat → Nat → Nat
  | 0, x => x
  | k + 1, x => lfsrStep c (lfsrIter c k x)

/-- `encode_f(raw)` for raw in the domain 0 .. `MAX_f` (R73). -/
def encodeDivider (cfg : Config) (fam : Family) (raw : Nat) : Nat :=
  if raw = 0 then (cfg.family fam).special0
  else if raw = 1 then (cfg.family fam).special1
  else if raw = 2 then (cfg.family fam).special2
  else lfsrIter (cfg.family fam) (fam.maxRaw - raw) (cfg.family fam).seed

/-- The loop of `decode_f` (R74): `k + 1` tests are left, the counter is `k + 3`, the running pattern is `x`; the pattern
is tested before each step (C1 of spec/90_conflicts.md). -/
def orbitSearch (c : FamilyCfg) (code : Nat) : Nat → Nat → Option Nat
  | 0, _ => none
  | k + 1, x => if x = code then some (k + 3) else orbitSearch c code k (lfsrStep c x)

/-- `decode_f(code)` (R74): the special codes first, then the search from `MAX_f` down to 3; `code` is compared whole. -/
def decodeDivider (cfg : Config) (fam : Family) (code : Nat) : Option Nat :=
  if code = (cfg.family fam).special0 then some 0
  else if code = (cfg.family fam).special1 then some 1
  else if code = (cfg.family fam).special2 then some 2
  else orbitSearch (cfg.family fam) code (fam.maxRaw - 2) (cfg.family fam).seed

/-- The code an ENC command writes: `encode_f` inside the domain, any value below 2^`W_f` outside it (R85, U1). -/
def encodeOrDraw (cfg : Config) (fam : Family) (draw raw : Nat) : Nat :=
  if raw ≤ fam.maxRaw then encodeDivider cfg fam raw else (Config.freeBits fam.width draw).toNat

/-- How many free values `encodeOrDraw` draws. -/
def encodeDraws (fam : Family) (raw : Nat) : Nat := if raw ≤ fam.maxRaw then 0 else 1

/-- ENC.f for one family (R79, R81, R83). -/
def encodeCommand (fam : Family) (s : State) : Result :=
  .next
    { (s.setR (BitVec.ofNat 32 (encodeOrDraw s.cfg fam s.draws s.a.toNat))).succeed with
      draws := s.draws + encodeDraws fam s.a.toNat }

/-- DEC.f for one family (R80, R82, R84): the raw value or 0 to `R`, whether it was found to `MT`. -/
def decodeCommand (fam : Family) (s : State) : Result :=
  let found := decodeDivider s.cfg fam s.a.toNat
  .next (((s.setR (BitVec.ofNat 32 (found.getD 0))).setMT found.isSome).succeed)

/-- ENC.N (R79). -/
def execEncN (s : State) : Result := encodeCommand .n s

/-- DEC.N (R80). -/
def execDecN (s : State) : Result := decodeCommand .n s

/-- ENC.P (R81). -/
def execEncP (s : State) : Result := encodeCommand .p s

/-- DEC.P (R82). -/
def execDecP (s : State) : Result := decodeCommand .p s

/-- ENC.M (R83). -/
def execEncM (s : State) : Result := encodeCommand .m s

/-- DEC.M (R84). -/
def execDecM (s : State) : Result := decodeCommand .m s

end Sys2Proof.Machine
end

