-- ==== Sys2Proof/Machine/Synth.lean ====
section
/-! DEFINITION. The PLL Synthesizer (spec/42_pll_synthesizer.md) and the command SYNTH. -/

namespace Sys2Proof.Machine

/-- The raw values `synthRaw` finds (R100). -/
structure SynthRaw where
  n : Nat
  p : Nat
  m : Nat
  frac : Nat
  cco : Nat
  ref : Nat
  ff : Nat
  directI : Bool
  directO : Bool
  fb2 : Bool
  ss : Bool
deriving DecidableEq, Repr

/-- What a synthesis request comes to: raw values, an error kind (R102 to R105), or the refusal of R104. -/
inductive SynthResult where
  | ok (raw : SynthRaw)
  | err (kind : ErrKind)
  | ssPreDividerZero
deriving DecidableEq, Repr

/-- `ff` (R101). -/
def feedbackFactor (fb2 : Bool) : Nat := if fb2 then 2 else 1

/-- The CCO target for a post-divider: `fout` when it is 0, that is bypassed, else `fout * P * 2` (R105). -/
def ccoOf (fout p : Nat) : Nat := if p = 0 then fout else fout * p * 2

/-- The loop of R105 from post-divider `p` on, with `k` values left to try; none when P would exceed 32. -/
def postDivLoop (fout : Nat) : Nat → Nat → Option Nat
  | 0, _ => none
  | k + 1, p => if ccoOf fout p < ccoMinHz then postDivLoop fout k (p + 1) else some p

/-- Step 1 (R105): the post-divider, tried from 0 to 32. -/
def postDivSearch (fout : Nat) : Option Nat := postDivLoop fout 33 0

/-- `ssPreDiv(fin)` (R104). -/
def ssPreDiv (cfg : Config) (fin : Nat) : Nat := fin / cfg.ssRefHz

/-- Step 2 (R106): the pre-divider outside spread-spectrum mode, 1 unless a candidate is adopted. -/
def preDivSearch (fin cco ff : Nat) : Nat :=
  if inMinHz < fin ∧ fin ≤ cco then
    if gcdMinHz < Nat.gcd cco (ff * fin) then
      if (ff * fin) / Nat.gcd cco (ff * fin) ≠ 0 ∧ (ff * fin) / Nat.gcd cco (ff * fin) < 256 then
        (ff * fin) / Nat.gcd cco (ff * fin)
      else 1
    else 1
  else 1

/-- Step 4, second half (R109): the correction, made when one more is strictly closer to the target. -/
def nudge (refff m cco : Nat) : Nat :=
  if absDiff (refff * (m + 1)) cco < absDiff (refff * m) cco then m + 1 else m

/-- The pre-divider of a request (R104, R106). -/
def preDivOf (cfg : Config) (k : Key) (cco : Nat) : Nat :=
  if k.ss then ssPreDiv cfg k.fin.toNat else preDivSearch k.fin.toNat cco (feedbackFactor k.fb2)

/-- Steps 2 to 4 and the fraction of step 6, for the post-divider found (R106 to R109, R111). -/
def synthAt (cfg : Config) (k : Key) (p : Nat) : SynthRaw :=
  let ff := feedbackFactor k.fb2
  let cco := ccoOf k.fout.toNat p
  let n := preDivOf cfg k cco
  let ref := k.fin.toNat / n
  let m := (cco / ref) / ff
  { n := n
    p := p
    m := if k.ss then m else nudge (ref * ff) m cco
    frac := if k.ss then ((cco % (ff * ref)) * 2048) / (ff * ref) else 0
    cco := cco
    ref := ref
    ff := ff
    directI := decide (n = 1)
    directO := decide (p = 0)
    fb2 := k.fb2
    ss := k.ss }

/-- Steps 1 to 4 once the checks have passed (R105). -/
def synthSearch (cfg : Config) (k : Key) : SynthResult :=
  match postDivSearch k.fout.toNat with
  | none => .err .outsideIntLimit
  | some p => .ok (synthAt cfg k p)

/-- `synthRaw` (R100): the checks in the order of R102, R103, R104 and R174, then the search. -/
def synthRaw (cfg : Config) (k : Key) : SynthResult :=
  if outMaxHz < k.fout.toNat then .err .outputTooHigh
  else if k.fout.toNat < outMinHz then .err .outputTooLow
  else if k.ss then
    if k.fin.toNat < ssInMinHz then .err .inputTooLow
    else if 256 < ssPreDiv cfg k.fin.toNat then .err .inputTooHigh
    else if ssPreDiv cfg k.fin.toNat = 0 then .ssPreDividerZero
    else synthSearch cfg k
  else if k.fin.toNat < inMinHz then .err .inputTooLow
  else synthSearch cfg k

/-- The multiplier does not fit its field (R118, U2). -/
def multOverflows (cfg : Config) (raw : SynthRaw) : Bool :=
  if raw.ss then decide (2 ^ cfg.mdIntW ≤ raw.m) else decide (Family.m.maxRaw < raw.m)

/-- The field `mult` (R110, R111): an M code, or the fractional multiplier `MD` of R56; where it does not fit, any value
below 2^17 or 2^`MULT_W` (R118, U2). -/
def packMult (cfg : Config) (raw : SynthRaw) (draw : Nat) : Nat :=
  if raw.ss then
    if multOverflows cfg raw then (Config.freeBits cfg.multW draw).toNat else (raw.m <<< fracW) ||| raw.frac
  else
    if multOverflows cfg raw then (Config.freeBits 17 draw).toNat else encodeDivider cfg .m raw.m

/-- How many free values the packing draws. -/
def packDraws (cfg : Config) (raw : SynthRaw) : Nat := if multOverflows cfg raw then 1 else 0

/-- The filter triple of the set (R110, R111). -/
def packFilter (cfg : Config) (raw : SynthRaw) : Filter :=
  if raw.ss then { selP := 0, selI := 0, selR := 0 } else selfilt cfg raw.m (!raw.fb2)

/-- Packing the raw values into a `PSET` (R110, R111, R112). -/
def pack (cfg : Config) (raw : SynthRaw) (draw : Nat) : PSet :=
  { ndec := BitVec.ofNat 10 (encodeDivider cfg .n raw.n)
    pdec := BitVec.ofNat 7 (encodeDivider cfg .p raw.p)
    mult := packMult cfg raw draw
    selP := (packFilter cfg raw).selP
    selI := (packFilter cfg raw).selI
    selR := (packFilter cfg raw).selR
    directI := raw.directI
    directO := raw.directO
    bypass := false
    fbdiv2 := raw.fb2
    ssEnabled := raw.ss }

/-- A synthesis succeeds with `pset`: `PS` <- pset, `ST` <- Success, the draws counted (R113). -/
def State.deliver (s : State) (pset : PSet) (drawn : Nat) : State :=
  { (s.setPS pset).succeed with draws := s.draws + drawn }

/-- SYNTH (R113). -/
def execSynth (s : State) : Result :=
  match synthRaw s.cfg s.request with
  | .ok raw => .next (s.deliver (pack s.cfg raw s.draws) (packDraws s.cfg raw))
  | .err kind => .next (s.fail kind)
  | .ssPreDividerZero => .refused .ssPreDividerZero

end Sys2Proof.Machine
end

