-- ==== Sys2Proof/Machine/Cache.lean ====
section
/-! DEFINITION. The Synthesis Cache (spec/43_synthesis_cache.md) and the command CSYNTH. -/

namespace Sys2Proof.Machine

/-- A request matches a slot: the slot is valid and all four key fields are equal (R121). -/
def Slot.hits (k : Key) (e : Slot) : Bool := e.valid && decide (e.key = k)

/-- The slot a request matches, if any (R121). -/
def cacheFind (sc : List Slot) (k : Key) : Option Slot := sc.find? (Slot.hits k)

/-- Store a result at the write cursor and advance it modulo the capacity (R123); with capacity 0 nothing is stored
(R126). -/
def State.cacheStore (s : State) (k : Key) (pset : PSet) : State :=
  if s.cfg.cacheCap = 0 then s
  else
    { s with
      sc := s.sc.set s.scCur { valid := true, key := k, val := pset }
      scCur := (s.scCur + 1) % s.cfg.cacheCap }

/-- CSYNTH on a miss (R123, R124, R129). -/
def cacheMiss (s : State) : Result :=
  match synthRaw s.cfg s.request with
  | .ok raw =>
    .next ((s.cacheStore s.request (pack s.cfg raw s.draws)).deliver (pack s.cfg raw s.draws) (packDraws s.cfg raw))
  | .err kind => .next (s.fail kind)
  | .ssPreDividerZero => .refused .ssPreDividerZero

/-- CSYNTH (R127): a hit returns the stored set (R122), a miss calls the Synthesizer. -/
def execCsynth (s : State) : Result :=
  match cacheFind s.sc s.request with
  | some e => .next (s.deliver e.val 0)
  | none => cacheMiss s

end Sys2Proof.Machine
end

