-- ==== Sys2Proof/Machine/Resolver.lean ====
section
/-! DEFINITION. The Clock-Tree Resolver (spec/44_clock_tree_resolver.md) and the commands FREQ.AT, PLL.RATE, PLL.OUT,
PLL.RATEPS. -/

namespace Sys2Proof.Machine

/-- `N` of R140: 1 when the pre-divider is bypassed, else the decoded code or its default. -/
def rateN (cfg : Config) (ps : PSet) : Nat :=
  if ps.directI then 1 else orDefault1 (decodeDivider cfg .n ps.ndec.toNat)

/-- `Pd` of R140: 1 when the post-divider is bypassed, else twice the decoded code or its default. -/
def ratePd (cfg : Config) (ps : PSet) : Nat :=
  if ps.directO then 1 else 2 * orDefault1 (decodeDivider cfg .p ps.pdec.toNat)

/-- `cco` of R140, integer or fixed point; `refff` is the reference times the feedback factor. -/
def rateCco (cfg : Config) (refff : Nat) (ps : PSet) : Nat :=
  if ps.ssEnabled then refff * (ps.mult >>> fracW) + (refff * (ps.mult &&& 0x7FF)) / 2048
  else refff * orDefault1 (decodeDivider cfg .m ps.mult)

/-- `pllRate(fin, ps)` (R140): from an observed configuration to the output frequency. -/
def rateOf (cfg : Config) (fin : Nat) (ps : PSet) : Nat :=
  if ps.bypass then fin
  else rateCco cfg ((fin / rateN cfg ps) * feedbackFactor ps.fbdiv2) ps / ratePd cfg ps

/-- The part of the state a graph walk may change: `PLLFREQ` (R137) and the draw counter. -/
structure Memo where
  pllFreq : Word32
  draws : Nat
deriving DecidableEq, Repr

/-- `PLLFREQ` <- v (R137, U3). -/
def Memo.store (m : Memo) (v : Nat) : Memo :=
  { pllFreq := freqWord m.draws v, draws := m.draws + freqDraws v }

/-- The node a multiplexer's table gives for a selector value, if any (R132). -/
def muxLookup (table : List (Nat × Nat)) (sel : Nat) : Option Nat :=
  (table.find? fun e => decide (e.1 = sel)).map Prod.snd

/-- One divider (R133): a value of 0 disables the node. -/
def divideBy (hw : Hw) (f : Nat) (d : Nat) : Nat :=
  if hw.read (.tree d) = 0 then 0 else f / hw.read (.tree d)

/-- The dividers of a node, in list order (R133). -/
def divideAll (hw : Hw) (divs : List Nat) (f : Nat) : Nat := divs.foldl (divideBy hw) f

/-- `freq(n)` (R134) with the memo of R137, over one snapshot of `HW` (R40). The first argument bounds the depth of the
walk; none when the walk meets a node id outside the graph or is deeper than the bound, which no graph that satisfies
R130 does with the bound `GRAPH.count`. -/
def freqWalk (cfg : Config) (hw : Hw) : Nat → Nat → Memo → Option (Nat × Memo)
  | 0, _, _ => none
  | depth + 1, id, memo =>
    match cfg.graph.nodes[id]? with
    | none => none
    | some (.fixed rate) => some (rate, memo)
    | some .ext => some (cfg.extRate, memo)
    | some (.gated rate gate on) => some (if hw.read (.tree gate) = on then rate else 0, memo)
    | some .pllOut =>
      if memo.pllFreq = 0 then
        match freqWalk cfg hw depth cfg.graph.pllIn memo with
        | none => none
        | some (fin, memo') =>
          some ((memo'.store (rateOf cfg fin (snapshotPset hw))).pllFreq.toNat,
            memo'.store (rateOf cfg fin (snapshotPset hw)))
      else some (memo.pllFreq.toNat, memo)
    | some (.derived (.direct pred) divs) =>
      match freqWalk cfg hw depth pred memo with
      | none => none
      | some (f, memo') => some (divideAll hw divs f, memo')
    | some (.derived (.mux sel table) divs) =>
      match muxLookup table (hw.read (.tree sel)) with
      | none => some (divideAll hw divs 0, memo)
      | some pred =>
        match freqWalk cfg hw depth pred memo with
        | none => none
        | some (f, memo') => some (divideAll hw divs f, memo')

/-- `pllInput()` (R144): the frequency of the PLL's reference input. The walk starts from a memo of 0, so it answers only
where it never meets `PllOut` (R130 (c)). -/
def pllInput (cfg : Config) (hw : Hw) : Option Nat :=
  (freqWalk cfg hw cfg.graph.count cfg.graph.pllIn { pllFreq := 0, draws := 0 }).map Prod.fst

/-- The clock-tree fields a walk reads, in the order it reads them (R134): the selector, the fields of the walked
predecessor, then the dividers. It is the list of reads APPLY's record shows for the path of `pllIn` (R160), a walk that
never meets `PllOut`. -/
def pathReads (cfg : Config) (hw : Hw) : Nat → Nat → List Nat
  | 0, _ => []
  | depth + 1, id =>
    match cfg.graph.nodes[id]? with
    | none => []
    | some (.fixed _) => []
    | some .ext => []
    | some (.gated _ gate _) => [gate]
    | some .pllOut => []
    | some (.derived (.direct pred) divs) => pathReads cfg hw depth pred ++ divs
    | some (.derived (.mux sel table) divs) =>
      match muxLookup table (hw.read (.tree sel)) with
      | none => sel :: divs
      | some pred => sel :: (pathReads cfg hw depth pred ++ divs)

/-- The state after a walk that left the memo `m`: only `PLLFREQ` and the draw counter may differ (R138). -/
def State.withMemo (s : State) (m : Memo) : State := { s with pllFreq := m.pllFreq, draws := m.draws }

/-- The memo a command's walk starts from. -/
def State.memo (s : State) : Memo := { pllFreq := s.pllFreq, draws := s.draws }

/-- FREQ.AT (R139): refused for a node identifier outside the graph (R61). -/
def execFreqAt (s : State) : Result :=
  if s.cfg.graph.count ≤ s.a.toNat then .refused (.noSuchNode s.a.toNat)
  else
    match freqWalk s.cfg s.hw s.cfg.graph.count s.a.toNat s.memo with
    | none => .refused .inadmissibleConfig
    | some (f, m) => .next (((s.withMemo m).setRFreq f).succeed)

/-- PLL.RATE (R141): the pure function of the snapshot. -/
def execPllRate (s : State) : Result :=
  match pllInput s.cfg s.hw with
  | none => .refused .inadmissibleConfig
  | some fin => .next ((s.setRFreq (rateOf s.cfg fin (snapshotPset s.hw))).succeed)

/-- PLL.OUT (R142): the memo, recomputed on request or when it is 0. -/
def execPllOut (s : State) : Result :=
  if s.recompute || decide (s.pllFreq = 0) then
    match pllInput s.cfg s.hw with
    | none => .refused .inadmissibleConfig
    | some fin =>
      let s' := s.setPllFreq (rateOf s.cfg fin (snapshotPset s.hw))
      .next ((s'.setR s'.pllFreq).succeed)
  else .next ((s.setR s.pllFreq).succeed)

/-- PLL.RATEPS (R143): the same computation for the set in `PS`. -/
def execPllRatePs (s : State) : Result :=
  .next ((s.setRFreq (rateOf s.cfg s.a.toNat s.ps)).succeed)

end Sys2Proof.Machine
end

