-- ==== Sys2Proof/Machine/Sequencer.lean ====
section
/-! DEFINITION. The PLL Apply/Lock Sequencer (spec/45_apply_lock_sequencer.md) and the command APPLY. -/

namespace Sys2Proof.Machine

/-- Step 2a (R153): the control fields, in order. -/
def controlWrites (ps : PSet) : List Event :=
  [ .fieldWrite .selR ps.selR, .fieldWrite .selI ps.selI, .fieldWrite .selP ps.selP,
    .fieldWrite .bypass ps.bypass.toNat, .fieldWrite .fbdiv2 ps.fbdiv2.toNat,
    .fieldWrite .directI ps.directI.toNat, .fieldWrite .directO ps.directO.toNat,
    .fieldWrite .ssen ps.ssEnabled.toNat ]

/-- `LatchWrite(X, Q, v)` (R152): the value with the request bit clear, then the same value with it set. -/
def latchWrite (field req : HwField) (v : Nat) : List Event :=
  [.pairWrite field v req false, .pairWrite field v req true]

/-- Step 2b (R152): pre-divider, post-divider, multiplier. -/
def dividerWrites (ps : PSet) : List Event :=
  latchWrite .ndec .nreq ps.ndec.toNat ++ latchWrite .pdec .preq ps.pdec.toNat ++ latchWrite .mult .mreq ps.mult

/-- The bring-up pulse (R155): force, power up, assert, hold, restore, reassert. -/
def bringUpPulse (cfg : Config) (ps : PSet) : List Event :=
  [ .pairWrite .mult cfg.forceMaxMult .mreq false, .pdDisable cfg.pllDomain,
    .pairWrite .mult cfg.forceMaxMult .mreq true, .delay lockPulseUs,
    .pairWrite .mult ps.mult .mreq false, .pairWrite .mult ps.mult .mreq true ]

/-- Steps 1 to 3 (R151 to R155): events 1 to 15 of R160, and 16 to 21 when the pulse is driven. -/
def applyEvents (cfg : Config) (ps : PSet) (pulse : Bool) : List Event :=
  [.pdEnable cfg.pllDomain] ++ controlWrites ps ++ dividerWrites ps ++ (if pulse then bringUpPulse cfg ps else [])

/-- The reads of the clock-tree fields on the path of `pllIn` (R157, R160), as events. -/
def inputReads (s : State) : List Event :=
  (pathReads s.cfg s.hw s.cfg.graph.count s.cfg.graph.pllIn).map fun id =>
    .fieldRead (.tree id) (s.hw.read (.tree id))

/-- The memo write of step 5 (R157), with its event. -/
def State.storeRate (s : State) (v : Nat) : State :=
  (s.setPllFreq v).record (.memoWrite (s.setPllFreq v).pllFreq)

/-- Everything APPLY does, in order (R159, R160): the writes, the pulse if powerUp or waitForLock is set (R154), the lock
poll if waitForLock is set (R156), the memo (R157), the voltage call if adjustVoltage is set (R158), and `ST`. -/
def applySteps (cfg : Config) (ps : PSet) (powerUp waitForLock adjustVoltage : Bool) : List ApplyStep :=
  (applyEvents cfg ps (powerUp || waitForLock)).map .event ++ (if waitForLock then [.poll] else []) ++ [.memo] ++
    (if adjustVoltage then [.voltage] else []) ++ [.status]

/-- The steps of an APPLY issued in this state: of the set in `PS` and the flags in `F` (R159). -/
def State.applySteps (s : State) : List ApplyStep :=
  Sys2Proof.Machine.applySteps s.cfg s.ps s.powerUp s.waitForLock s.adjustVoltage

/-- One thing APPLY does, at one instant. A poll reads `PLL_LOCK` (R156). The memo resolves the PLL input over `HW` as it
is then and takes the rate of `PS` (R157). -/
def performStep (x : ApplyStep) (s : State) : Result :=
  match x with
  | .event e => .next (s.perform e)
  | .poll => .next (s.record (.fieldRead .lock (s.hw.read .lock)))
  | .memo =>
    match pllInput s.cfg s.hw with
    | none => .refused .inadmissibleConfig
    | some fin => .next ((s.performAll (inputReads s)).storeRate (rateOf s.cfg fin s.ps))
  | .voltage => .next (s.record (.pdSetVoltage s.pllFreq))
  | .status => .next ((s.record (.statusWrite successCode)).succeed)

/-- A poll that reads 0 is made again: there is no bound on the number of polls (R156, R177). -/
def ApplyStep.repeats (x : ApplyStep) (s : State) : Bool :=
  match x with
  | .event _ => false
  | .poll => !s.hw.pll.lock
  | .memo => false
  | .voltage => false
  | .status => false

/-- What a running APPLY has still to do becomes `steps`. -/
def State.withPending (s : State) (steps : List ApplyStep) : State := { s with pending := steps }

/-- APPLY does the first of its steps, and the rest is still to do. -/
def applyNext (steps : List ApplyStep) (s : State) : Result :=
  match steps with
  | [] => .next (s.withPending [])
  | x :: rest =>
    match performStep x s with
    | .next t => .next (t.withPending (if x.repeats s then x :: rest else rest))
    | .fault e => .fault e
    | .refused r => .refused r

/-- APPLY does its steps one after another, to its end or to a poll that reads 0. -/
def applyAll : List ApplyStep → State → Result
  | [], s => .next (s.withPending [])
  | x :: rest, s =>
    match performStep x s with
    | .next t => if x.repeats s then .next (t.withPending (x :: rest)) else applyAll rest t
    | .fault e => .fault e
    | .refused r => .refused r

/-- The outside world lets an instant pass next, so that something of it can arrive inside APPLY
(notes/assumptions/8.md). -/
def State.instantNext (s : State) : Bool := decide (s.inputs.head? = some .instant)

/-- The next action is taken. -/
def State.dropInput (s : State) : State := { s with inputs := s.inputs.tail }

/-- APPLY (R159). DESIGN CHOICE, notes/assumptions/8.md: where no `instant` is next it runs to its end, or to a poll that
reads 0, in one step; where one is next it does the first of its steps, and the others follow one by one, so that the
environment's writes (R49) and a reset (R163, R190; notes/assumptions/16.md) can arrive between any two of them. -/
def execApply (s : State) : Result :=
  if s.instantNext then applyNext s.applySteps s.dropInput else applyAll s.applySteps s

end Sys2Proof.Machine
end

