-- ==== Sys2Proof/Machine/Dispatch.lean ====
section
/-! DEFINITION. One arm per command of R51. -/

namespace Sys2Proof.Machine

def exec (i : Instr) (s : State) : Host.Outcome State Fault Refusal :=
  match i with
  | .encN => Sys2Proof.Machine.execEncN s
  | .decN => Sys2Proof.Machine.execDecN s
  | .encP => Sys2Proof.Machine.execEncP s
  | .decP => Sys2Proof.Machine.execDecP s
  | .encM => Sys2Proof.Machine.execEncM s
  | .decM => Sys2Proof.Machine.execDecM s
  | .selfilt => Sys2Proof.Machine.execSelfilt s
  | .synth => Sys2Proof.Machine.execSynth s
  | .csynth => Sys2Proof.Machine.execCsynth s
  | .freqAt => Sys2Proof.Machine.execFreqAt s
  | .pllRate => Sys2Proof.Machine.execPllRate s
  | .pllOut => Sys2Proof.Machine.execPllOut s
  | .pllRatePs => Sys2Proof.Machine.execPllRatePs s
  | .apply => Sys2Proof.Machine.execApply s

end Sys2Proof.Machine
end

