-- ==== Sys2Proof/Machine/Inputs.lean ====
section
/-! DEFINITION. How an action of the outside world is taken: issuing a command (R20, R50, R57), writing an operand
register (R13 to R15, R18), the environment's write of a field (R49), and what can arrive while APPLY runs (R49, R156,
R163, R194). -/

namespace Sys2Proof.Machine

/-- A host write to `CMD` (R20): a reserved code is refused (R57), any other code runs its command. A command that reads an
operand register which nothing has written reads its value at reset, and the run is marked (R31, R189; DESIGN CHOICE,
notes/assumptions/1.md). -/
def issue (code : Byte) (s : State) : Result :=
  match decode code with
  | .ok i => exec i (s.noteOperands i)
  | .error (.reservedCode c) => .refused (.reservedCode c)

/-- The environment sets a field of `HW` (R49). -/
def State.environment (s : State) (field : HwField) (v : Nat) : State := { s with hw := s.hw.write field v }

/-- An action that arrives while no command runs. -/
def takeAction (act : Action) (s : State) : Result :=
  match act with
  | .writeA v => .next { s with a := v, held := { s.held with a := true } }
  | .writeB v => .next { s with b := v, held := { s.held with b := true } }
  | .writeF v => .next { s with f := v, held := { s.held with f := true } }
  | .writePS p => if p.fits s.cfg then .next (s.setPS p) else .refused .valueTooWide
  | .cmd code => issue code s
  | .hw field v => if field.admits s.cfg v then .next (s.environment field v) else .refused .valueTooWide
  | .reset => .next s.afterReset
  | .instant => .next s

/-- APPLY is at its lock poll (R156). -/
def State.polling (s : State) : Bool := decide (s.pending.head? = some .poll)

/-- What the outside world does next is the environment's: another change of `HW`, a reset, or an instant that passes. -/
def State.environmentNext (s : State) : Bool := s.inputs.head?.any fun act => !act.byHost

/-- An action that arrives while APPLY runs: the environment may change `HW` between any two of its events, its polls
included (R49), or reset the block (R163, R190; notes/assumptions/16.md); the host must not write (R194, U7). After a
change of `HW` at the lock poll APPLY goes on in the same step, unless the environment acts next: so any number of changes
may stand between two polls (notes/assumptions/8.md). -/
def takeActionBusy (act : Action) (s : State) : Result :=
  match act with
  | .hw field v =>
    if field.admits s.cfg v then
      if s.polling && !s.environmentNext then applyAll s.pending (s.environment field v)
      else .next (s.environment field v)
    else .refused .valueTooWide
  | .reset => .next s.afterReset
  | .instant => applyNext s.pending s
  | .writeA _ => .refused .concurrentAccess
  | .writeB _ => .refused .concurrentAccess
  | .writeF _ => .refused .concurrentAccess
  | .writePS _ => .refused .concurrentAccess
  | .cmd _ => .refused .concurrentAccess

/-- The next action, if one is there: without one the block stays as it is, or a running APPLY goes on to its end or to
one more poll that reads 0. -/
def advance (s : State) : Result :=
  match s.pending, s.inputs with
  | [], [] => .next s
  | [], act :: rest => takeAction act { s with inputs := rest }
  | x :: more, [] => applyAll (x :: more) s
  | _ :: _, act :: rest => takeActionBusy act { s with inputs := rest }

/-- The host's next action is a write of `code` to `CMD`, and no command runs. -/
def State.withCommand (s : State) (code : Byte) : State := { s with pending := [], inputs := .cmd code :: s.inputs }

end Sys2Proof.Machine
end

