-- ==== Sys2Proof/Machine/Step.lean ====
section
/-! DEFINITION. One step of the machine: the next thing that happens to the block, taken to its end. PLLSYN fetches no
instruction (R24, R47): the next command is the next write to `CMD` that arrives. -/

namespace Sys2Proof.Machine

/-- One step: the next action of the outside world, or what a running APPLY does next. -/
def step (s : State) : Host.Outcome State Fault Refusal := advance s

/-- The table word `w` becomes the host's next write to `CMD` (R20, R50), with no command running, so that the very next
step issues it. -/
def State.withFetchWord (s : State) (nbits w : Nat) : State := s.withCommand (BitVec.ofNat 8 (w % 2 ^ nbits))

end Sys2Proof.Machine
end

