-- ==== Sys2Proof/Machine/Admissible.lean ====
section
/-! DEFINITION. Which configurations are admissible (R6, R72, R76, R95, R130, R155, R192): checks that evaluate, and the
boot that refuses the others (R189, U12). -/

namespace Sys2Proof.Machine

/-- The shape of one family's parameters (R6, R72, R76): 1 ≤ `L_f` ≤ `W_f`, the taps a non-empty set of positions below
`L_f`, the seed below 2^`L_f`, the special codes below 2^`W_f`. -/
def familyShapeOk (fam : Family) (c : FamilyCfg) : Bool :=
  decide (1 ≤ c.len) && decide (c.len ≤ fam.width) && decide (c.taps ≠ []) && decide (c.taps.Nodup) &&
    c.taps.all (fun t => decide (t < c.len)) && decide (c.seed < 2 ^ c.len) &&
    decide (c.special0 < 2 ^ fam.width) && decide (c.special1 < 2 ^ fam.width) &&
    decide (c.special2 < 2 ^ fam.width)

/-- The orbit of the seed does not repeat within `MAX_f` - 3 steps (R76): the search for its last pattern, the code of
raw 3, does not stop earlier. A repeat anywhere on the orbit would make the last pattern occur twice. -/
def orbitDistinct (fam : Family) (c : FamilyCfg) : Bool :=
  decide (orbitSearch c (lfsrIter c (fam.maxRaw - 3) c.seed) (fam.maxRaw - 2) c.seed = some 3)

/-- A special code is no code of the orbit (R76): it has a bit at or above `L_f`, or the search misses it. -/
def outsideOrbit (fam : Family) (c : FamilyCfg) (code : Nat) : Bool :=
  decide (2 ^ c.len ≤ code) || decide (orbitSearch c code (fam.maxRaw - 2) c.seed = none)

/-- The special codes differ from one another (R76). -/
def specialsDistinct (c : FamilyCfg) : Bool :=
  decide (c.special0 ≠ c.special1) && decide (c.special0 ≠ c.special2) && decide (c.special1 ≠ c.special2)

/-- The codec parameters of one family are well formed (R76). -/
def familyOk (fam : Family) (c : FamilyCfg) : Bool :=
  familyShapeOk fam c && specialsDistinct c && outsideOrbit fam c c.special0 && outsideOrbit fam c c.special1 &&
    outsideOrbit fam c c.special2 && orbitDistinct fam c

/-- The walk from node `id` ends within `depth` nodes whatever is selected, and meets only nodes of the graph: R130 (a)
and the acyclicity of (c), the PLL's own input path included. -/
def grounded (g : Graph) : Nat → Nat → Bool
  | 0, _ => false
  | depth + 1, id =>
    match g.nodes[id]? with
    | none => false
    | some (.fixed _) => true
    | some .ext => true
    | some (.gated _ _ _) => true
    | some .pllOut => grounded g depth g.pllIn
    | some (.derived (.direct pred) _) => grounded g depth pred
    | some (.derived (.mux _ table) _) => table.all fun e => grounded g depth e.2

/-- The clock-tree fields a node names (R130). -/
def nodeFields : Node → List Nat
  | .fixed _ => []
  | .ext => []
  | .gated _ gate _ => [gate]
  | .pllOut => []
  | .derived (.direct _) divs => divs
  | .derived (.mux sel _) divs => sel :: divs

/-- A selector value appears at most once in a table (R130 (b)). -/
def tableOk : Node → Bool
  | .fixed _ => true
  | .ext => true
  | .gated _ _ _ => true
  | .pllOut => true
  | .derived (.direct _) _ => true
  | .derived (.mux _ table) _ => decide ((table.map Prod.fst).Nodup)

/-- The graph is well formed (R130 (a) to (e)). -/
def graphOk (g : Graph) : Bool :=
  decide (g.pllIn < g.count) && (List.range g.count).all (grounded g g.count) && g.nodes.all tableOk &&
    g.nodes.all (fun nd => (nodeFields nd).all fun d => decide (d < g.fieldWidths.length)) &&
    decide (g.nodes.count .pllOut ≤ 1)

/-- The scalar parameters are in range: `SELP_W` ≥ 5 (R6), the filter widths ≤ 8 (R95), `SELI_MAX` a value of its field
(R92), `SS_REF_HZ` > 0 (R6), `FORCE_MAX_MULT` a value of its field (R155). -/
def scalarsOk (cfg : Config) : Bool :=
  decide (5 ≤ cfg.selPW) && decide (cfg.selPW ≤ 8) && decide (cfg.selIW ≤ 8) && decide (cfg.selRW ≤ 8) &&
    decide (cfg.seliMax < 2 ^ cfg.selIW) && decide (0 < cfg.ssRefHz) && decide (cfg.forceMaxMult < 2 ^ cfg.multW)

/-- `CFG` is admissible (R192 item 1). -/
def admissible (cfg : Config) : Bool :=
  scalarsOk cfg && graphOk cfg.graph && familyOk .n cfg.famN && familyOk .p cfg.famP && familyOk .m cfg.famM

/-- The start of the program with configuration `cfg` beside hardware fields `hw`: the state after reset, or a refusal
when `CFG` is not admissible (R189, R192, U12). -/
def boot (cfg : Config) (hw : Hw) : Result :=
  if admissible cfg then .next (State.initial cfg hw) else .refused .inadmissibleConfig

end Sys2Proof.Machine
end

