-- ==== Sys2Proof/Machine/Program.lean ====
section
/-! DEFINITION. Programs of host writes (R59) and the pseudo-instructions of R60. -/

namespace Sys2Proof.Machine

/-- The pseudo-instructions of R60. -/
inductive Pseudo where
  | synth (fin fout : Word32) (fb2 ss : Bool)
  | csynth (fin fout : Word32) (fb2 ss : Bool)
  | enc (fam : Family) (raw : Word32)
  | dec (fam : Family) (code : Word32)
  /-- `DECD.f code`: the writes of `DEC.f code`; the host then computes `decdResult`. -/
  | decd (fam : Family) (code : Word32)
  | selfilt (m : Word32) (byp : Bool)
  | freqAt (node : Word32)
  | pllOut (rc : Bool)
  | pllRatePs (fin : Word32)
  | apply (pu wl av : Bool)
deriving DecidableEq, Repr

/-- The value of `F` with the given low three bits (R53, R60). -/
def flagByte (b0 b1 b2 : Bool) : Byte := BitVec.ofNat 8 (b0.toNat + 2 * b1.toNat + 4 * b2.toNat)

/-- ENC.f of a family (R51). -/
def encOf : Family → Instr
  | .n => .encN
  | .p => .encP
  | .m => .encM

/-- DEC.f of a family (R51). -/
def decOf : Family → Instr
  | .n => .decN
  | .p => .decP
  | .m => .decM

/-- A mnemonic alone on a line: the host writes its code to `CMD` (R59). -/
def commandLine (i : Instr) : Action := .cmd (encode i)

/-- The expansion of a pseudo-instruction (R60). -/
def Pseudo.expand : Pseudo → List Action
  | .synth fin fout fb2 ss => [.writeA fin, .writeB fout, .writeF (flagByte fb2 ss false), commandLine .synth]
  | .csynth fin fout fb2 ss => [.writeA fin, .writeB fout, .writeF (flagByte fb2 ss false), commandLine .csynth]
  | .enc fam raw => [.writeA raw, commandLine (encOf fam)]
  | .dec fam code => [.writeA code, commandLine (decOf fam)]
  | .decd fam code => [.writeA code, commandLine (decOf fam)]
  | .selfilt m byp => [.writeA m, .writeF (flagByte byp false false), commandLine .selfilt]
  | .freqAt node => [.writeA node, commandLine .freqAt]
  | .pllOut rc => [.writeF (flagByte rc false false), commandLine .pllOut]
  | .pllRatePs fin => [.writeA fin, commandLine .pllRatePs]
  | .apply pu wl av => [.writeF (flagByte pu wl av), commandLine .apply]

/-- The code an action brings to the decoder, if it is a write to `CMD` (R59). -/
def commandCode : Action → Option Byte
  | .writeA _ => none
  | .writeB _ => none
  | .writeF _ => none
  | .writePS _ => none
  | .cmd code => some code
  | .hw _ _ => none
  | .reset => none
  | .instant => none

/-- The bytes of a program that reach the decoder, in order (R59). -/
def commandBytes (p : List Action) : List Byte := p.filterMap commandCode

/-- The `orDefault1` the host computes after `DECD.f` from `MT` and `R` (R60): 1 when `MT` = 0 or `R` = 0, else `R`. -/
def decdResult (s : State) : Nat := if !s.mt || decide (s.r = 0) then 1 else s.r.toNat

end Sys2Proof.Machine
end

