-- ==== Sys2Proof/Safety.lean ====
section
/-! DEFINITION. What claims speak of: the invariants of R33, the fields that fit their widths, and runs. -/

namespace Sys2Proof.Machine

/-- The cache ring has `CACHE_CAP` slots and its cursor is inside it (R21, R22, R33 (c)); with capacity 0 the cursor stays
where reset put it. -/
def CacheShape (s : State) : Prop :=
  s.sc.length = s.cfg.cacheCap ∧ (0 < s.cfg.cacheCap → s.scCur < s.cfg.cacheCap)

/-- No two valid slots have equal keys (R33 (a)). -/
def CacheKeysDistinct (s : State) : Prop :=
  ∀ (i j : Nat) (hi : i < s.sc.length) (hj : j < s.sc.length),
    (s.sc[i]).valid = true → (s.sc[j]).valid = true → (s.sc[i]).key = (s.sc[j]).key → i = j

/-- Every valid slot holds what SYNTH returns for its key (R33 (b)), up to the value drawn for `mult` where R118 draws
one. -/
def CacheFaithful (s : State) : Prop :=
  ∀ e ∈ s.sc, e.valid = true →
    ∃ raw draw, synthRaw s.cfg e.key = .ok raw ∧ e.val = pack s.cfg raw draw

/-- The clock-tree fields are canonical and hold values of their widths (R27, R38). -/
def TreeFits (cfg : Config) (t : Memory) : Prop :=
  Memory.wf t = true ∧ ∀ e ∈ t, HwField.admits cfg (.tree e.1) e.2 = true

/-- Every field of `HW` holds a value of its width (R26, R27, R38). -/
def HwFits (cfg : Config) (hw : Hw) : Prop :=
  hw.pll.mult < 2 ^ cfg.multW ∧ hw.pll.selP < 2 ^ cfg.selPW ∧ hw.pll.selI < 2 ^ cfg.selIW ∧
    hw.pll.selR < 2 ^ cfg.selRW ∧ TreeFits cfg hw.tree

/-- `PS` and the sets of the valid slots fit their widths (R18). -/
def SetsFit (s : State) : Prop :=
  s.ps.fits s.cfg = true ∧ ∀ e ∈ s.sc, e.valid = true → e.val.fits s.cfg = true

/-- `ST` is one of the six codes of R54: 6 and 7 are never written. -/
def StatusLegal (s : State) : Prop := s.st.toNat ≤ 5

/-- What is still to do is the end of what an APPLY of the set in `PS` and the flags in `F` does (R159): nothing writes
either while it runs (R194). -/
def PendingLegal (s : State) : Prop := s.pending <:+ s.applySteps

/-- THE INVARIANT of the machine's state: R33 (a), (b), (c), the widths of R18 and R26, the codes of R54, and what a
running command has still to do. -/
structure Inv (s : State) : Prop where
  cacheShape : CacheShape s
  cacheKeys : CacheKeysDistinct s
  cacheFaithful : CacheFaithful s
  hwFits : HwFits s.cfg s.hw
  setsFit : SetsFit s
  statusLegal : StatusLegal s
  pendingLegal : PendingLegal s

/-! ### Terms that statements use -/

/-- `parity(v)`: the exclusive or of all bits of `v`, 0 or 1 (R9). -/
def parity (v : Nat) : Nat := v.bits.count true % 2

/-- `tapmask_f`: the sum of 2^t over the taps (R72). -/
def tapMask (taps : List Nat) : Nat := (taps.map fun t => 2 ^ t).sum

/-- A request inside every bound of R102, R103 and R104, so that it has a synthesis. -/
def InRange (cfg : Config) (k : Key) : Prop :=
  1171875 ≤ k.fout.toNat ∧ k.fout.toNat ≤ 150000000 ∧
    ((k.ss = false ∧ 4000 ≤ k.fin.toNat) ∨
      (k.ss = true ∧ 2000000 ≤ k.fin.toNat ∧ 1 ≤ k.fin.toNat / cfg.ssRefHz ∧ k.fin.toNat / cfg.ssRefHz ≤ 256))

/-- The operands of a synthesis request put into `A`, `B` and `F` (R52, R60). -/
def State.withRequest (s : State) (k : Key) : State :=
  { s with a := k.fin, b := k.fout, f := flagByte k.fb2 k.ss false }

/-- CSYNTH of one request after another; none when one is refused. -/
def csynthAll : State → List Key → Option State
  | s, [] => some s
  | s, k :: rest =>
    match exec .csynth (s.withRequest k) with
    | .next t => csynthAll t rest
    | .fault _ => none
    | .refused _ => none

/-- Two rings that differ at most in the key and the value of slots that are not valid (U11). -/
def RingsAgree (sc sc' : List Slot) : Prop :=
  List.Forall₂ (fun e e' => e.valid = e'.valid ∧ (e.valid = true → e = e')) sc sc'

/-- The node ids a node names (R130). -/
def nodePreds : Node → List Nat
  | .fixed _ => []
  | .ext => []
  | .gated _ _ _ => []
  | .pllOut => []
  | .derived (.direct pred) _ => [pred]
  | .derived (.mux _ table) _ => table.map Prod.snd

/-- R130 (a) to (e) as the rule words them, with a rank function. -/
def GraphWellFormed (g : Graph) : Prop :=
  g.pllIn < g.count ∧ (∀ nd ∈ g.nodes, ∀ p ∈ nodePreds nd, p < g.count) ∧
    (∀ nd ∈ g.nodes, tableOk nd = true) ∧
    (∃ rank : Nat → Nat,
      ∀ id nd, g.nodes[id]? = some nd →
        (∀ p ∈ nodePreds nd, rank p < rank id) ∧ (nd = .pllOut → rank g.pllIn < rank id)) ∧
    (∀ nd ∈ g.nodes, ∀ d ∈ nodeFields nd, d < g.fieldWidths.length) ∧
    g.nodes.count .pllOut ≤ 1

/-- `HW` as APPLY of `ps` leaves it (R152, R153, R155): every PLL field but the lock bit. -/
def Hw.applied (hw : Hw) (ps : PSet) : Hw :=
  { pll :=
      { ndec := ps.ndec, pdec := ps.pdec, mult := ps.mult, selP := ps.selP, selI := ps.selI, selR := ps.selR,
        directI := ps.directI, directO := ps.directO, bypass := ps.bypass, fbdiv2 := ps.fbdiv2, ssen := ps.ssEnabled,
        nreq := true, preq := true, mreq := true, lock := hw.pll.lock }
    tree := hw.tree }

/-- Events 1 to 15 of R160. -/
def configEvents (cfg : Config) (ps : PSet) : List Event :=
  [ .pdEnable cfg.pllDomain,
    .fieldWrite .selR ps.selR, .fieldWrite .selI ps.selI, .fieldWrite .selP ps.selP,
    .fieldWrite .bypass ps.bypass.toNat, .fieldWrite .fbdiv2 ps.fbdiv2.toNat,
    .fieldWrite .directI ps.directI.toNat, .fieldWrite .directO ps.directO.toNat,
    .fieldWrite .ssen ps.ssEnabled.toNat,
    .pairWrite .ndec ps.ndec.toNat .nreq false, .pairWrite .ndec ps.ndec.toNat .nreq true,
    .pairWrite .pdec ps.pdec.toNat .preq false, .pairWrite .pdec ps.pdec.toNat .preq true,
    .pairWrite .mult ps.mult .mreq false, .pairWrite .mult ps.mult .mreq true ]

/-- Events 16 to 21 of R160. -/
def pulseEvents (cfg : Config) (ps : PSet) : List Event :=
  [ .pairWrite .mult cfg.forceMaxMult .mreq false, .pdDisable cfg.pllDomain,
    .pairWrite .mult cfg.forceMaxMult .mreq true, .delay 72,
    .pairWrite .mult ps.mult .mreq false, .pairWrite .mult ps.mult .mreq true ]

/-- The clock-tree fields that resolving node `id` reads, in order, as R134 words the walk: a source reads nothing or
its gate, a `Derived` node its selector, then what the selected node reads, then its dividers; an unknown selection reads
no further node (R132). -/
inductive PathReads (cfg : Config) (hw : Hw) : Nat → List Nat → Prop where
  | fixed {id rate : Nat} : cfg.graph.nodes[id]? = some (.fixed rate) → PathReads cfg hw id []
  | ext {id : Nat} : cfg.graph.nodes[id]? = some .ext → PathReads cfg hw id []
  | gated {id rate gate on : Nat} : cfg.graph.nodes[id]? = some (.gated rate gate on) → PathReads cfg hw id [gate]
  | direct {id pred : Nat} {divs reads : List Nat} : cfg.graph.nodes[id]? = some (.derived (.direct pred) divs) →
      PathReads cfg hw pred reads → PathReads cfg hw id (reads ++ divs)
  | mux {id sel pred : Nat} {table : List (Nat × Nat)} {divs reads : List Nat} :
      cfg.graph.nodes[id]? = some (.derived (.mux sel table) divs) → (hw.read (.tree sel), pred) ∈ table →
      PathReads cfg hw pred reads → PathReads cfg hw id (sel :: (reads ++ divs))
  | noSelection {id sel : Nat} {table : List (Nat × Nat)} {divs : List Nat} :
      cfg.graph.nodes[id]? = some (.derived (.mux sel table) divs) → (∀ e ∈ table, e.1 ≠ hw.read (.tree sel)) →
      PathReads cfg hw id (sel :: divs)

/-- The PLL's reference input resolves to `fin`: the walk from `pllIn` gives it with every memo, and leaves the memo as it
was, since it never meets `PllOut` (R144). -/
def PllInputIs (cfg : Config) (hw : Hw) (fin : Nat) : Prop :=
  ∀ memo : Memo, freqWalk cfg hw cfg.graph.count cfg.graph.pllIn memo = some (fin, memo)

/-- The events of the memo: the reads on the path of `pllIn`, then the write (R157, R160). -/
def memoEvents (hw : Hw) (reads : List Nat) (freq : Word32) : List Event :=
  reads.map (fun id => .fieldRead (.tree id) (hw.read (.tree id))) ++ [.memoWrite freq]

/-- The events of R160 after the lock wait, with the voltage call under its condition. -/
def closingEvents (hw : Hw) (reads : List Nat) (freq : Word32) (adjustVoltage : Bool) : List Event :=
  memoEvents hw reads freq ++ (if adjustVoltage then [.pdSetVoltage freq] else []) ++ [.statusWrite 0]

/-- What APPLY does after the lock wait (R157, R158, R159). -/
def closingSteps (adjustVoltage : Bool) : List ApplyStep :=
  [.memo] ++ (if adjustVoltage then [.voltage] else []) ++ [.status]

/-- What an action of the environment does to `HW` (R49). -/
def actionOnHw (act : Action) (hw : Hw) : Hw :=
  match act with
  | .writeA _ => hw
  | .writeB _ => hw
  | .writeF _ => hw
  | .writePS _ => hw
  | .cmd _ => hw
  | .hw field v => hw.write field v
  | .reset => hw
  | .instant => hw

/-- `t` is reached from `s` by `k` steps, none refused. -/
def Reaches (k : Nat) (s t : State) : Prop := Host.Core.run Sys2Proof.core k s = .next t

end Sys2Proof.Machine
end

