-- ==== Sys2Proof/Certificates/Slice0/Obligations.lean ====
section
/-! DEFINITION. The statements for the provers. Each says in its docstring which rule of spec/ it formalises. -/

open Sys2Proof Sys2Proof.Machine

/-! ### Commands, decoding and the step -/

/-- R51: the command word of each of the fourteen commands, both ways. -/
def Obligations.CommandWordsOfOpcodeMap : Prop :=
  decode 0x10 = .ok .encN ∧ decode 0x11 = .ok .decN ∧ decode 0x12 = .ok .encP ∧ decode 0x13 = .ok .decP ∧
    decode 0x14 = .ok .encM ∧ decode 0x15 = .ok .decM ∧ decode 0x20 = .ok .selfilt ∧ decode 0x30 = .ok .synth ∧
    decode 0x31 = .ok .csynth ∧ decode 0x40 = .ok .freqAt ∧ decode 0x41 = .ok .pllRate ∧ decode 0x42 = .ok .pllOut ∧
    decode 0x43 = .ok .pllRatePs ∧ decode 0x50 = .ok .apply

/-- R50, R51: decoding the encoding of a command gives it back, and a byte that decodes is that command's encoding. -/
def Obligations.CommandDecodeEncodeAgree : Prop :=
  (∀ i, decode (encode i) = .ok i) ∧ ∀ code i, decode code = .ok i → encode i = code

/-- R57: a byte is either a command of R51 or in one of the reserved ranges, and a reserved code written to `CMD` is
refused, never a no-op. -/
def Obligations.ReservedCodesAreRefused : Prop :=
  ∀ (s : State) (code : Byte) (rest : List Action), s.pending = [] → s.inputs = .cmd code :: rest →
    ((code.toNat ≤ 0x0F ∨ (0x16 ≤ code.toNat ∧ code.toNat ≤ 0x1F) ∨ (0x21 ≤ code.toNat ∧ code.toNat ≤ 0x2F) ∨
          (0x32 ≤ code.toNat ∧ code.toNat ≤ 0x3F) ∨ (0x44 ≤ code.toNat ∧ code.toNat ≤ 0x4F) ∨ 0x51 ≤ code.toNat) ∧
        step s = .refused (.reservedCode code)) ∨
      ∃ i, decode code = .ok i ∧ encode i = code ∧
        ¬ (code.toNat ≤ 0x0F ∨ (0x16 ≤ code.toNat ∧ code.toNat ≤ 0x1F) ∨ (0x21 ≤ code.toNat ∧ code.toNat ≤ 0x2F) ∨
          (0x32 ≤ code.toNat ∧ code.toNat ≤ 0x3F) ∨ (0x44 ≤ code.toNat ∧ code.toNat ≤ 0x4F) ∨ 0x51 ≤ code.toNat)

/-- R20, R52: which operand registers each command reads; a write of a command's code to `CMD` runs exactly that command,
on the state without that write. Where one of those registers was not written since reset, the command runs all the same
and the run is marked: the model's choice, where R31 refuses; notes/assumptions/1.md. -/
def Obligations.StepRunsTheDecodedCommand : Prop :=
  ([.encN, .decN, .encP, .decP, .encM, .decM, .selfilt, .synth, .csynth, .freqAt, .pllRate, .pllOut, .pllRatePs,
        .apply].map operandRegs =
      [[.a], [.a], [.a], [.a], [.a], [.a], [.a, .f], [.a, .b, .f], [.a, .b, .f], [.a], [], [.f], [.a, .ps],
        [.ps, .f]]) ∧
    ∀ (s : State) (code : Byte) (rest : List Action) (i : Instr), s.pending = [] → s.inputs = .cmd code :: rest →
      decode code = .ok i →
      ((∀ reg ∈ operandRegs i, s.held.has reg = true) → step s = exec i { s with inputs := rest }) ∧
        ((∃ reg ∈ operandRegs i, s.held.has reg = false) →
          step s = exec i { s with inputs := rest, unheldRead := true })

/-- R13, R14, R15, R18, R59: a host write of an operand register sets it and nothing else, and from then on it holds a
value. That the write is the head of `inputs` is the model's choice: notes/assumptions/7.md. -/
def Obligations.OperandWritesSetOneRegister : Prop :=
  ∀ (s : State) (rest : List Action), s.pending = [] →
    (∀ v, s.inputs = .writeA v :: rest →
      step s = .next { s with inputs := rest, a := v, held := { s.held with a := true } }) ∧
    (∀ v, s.inputs = .writeB v :: rest →
      step s = .next { s with inputs := rest, b := v, held := { s.held with b := true } }) ∧
    (∀ v, s.inputs = .writeF v :: rest →
      step s = .next { s with inputs := rest, f := v, held := { s.held with f := true } }) ∧
    (∀ p, s.inputs = .writePS p :: rest → p.fits s.cfg = true →
      step s = .next { s with inputs := rest, ps := p, held := { s.held with ps := true } })

/-- R38, R39: a FieldRead after a FieldWrite gives the value written, and every other field reads as before. -/
def Obligations.FieldReadAfterFieldWrite : Prop :=
  ∀ (cfg : Config) (hw : Hw) (x y : HwField) (v : Nat), Memory.wf hw.tree = true → x.admits cfg v = true →
    (hw.write x v).read y = if y = x then v else hw.read y

/-- R49, R193: a field of `HW` that the environment sets between two commands, or between two events of a running APPLY,
changes that field alone; the memo `PLLFREQ`, what APPLY has still to do and everything else stay, so that the memo can be
stale. (At the lock poll this holds whenever the environment acts next, so that any number of changes may stand between
two polls; else the same step polls as well: LockedPollCompletesApply.) That the write is the head of `inputs` is the model's choice: notes/assumptions/7.md and 8.md. -/
def Obligations.EnvironmentWriteLeavesMemoStale : Prop :=
  ∀ (s : State) (x : HwField) (v : Nat) (rest : List Action),
    (s.pending.head? ≠ some .poll ∨ ∃ act, rest.head? = some act ∧ act.byHost = false) → s.inputs = .hw x v :: rest →
    Memory.wf s.hw.tree = true → x.admits s.cfg v = true →
    ∃ hw', step s = .next { s with inputs := rest, hw := hw' } ∧ hw'.read x = v ∧
      ∀ y, y ≠ x → hw'.read y = s.hw.read y

/-! ### Divider Codec -/

/-- R79, R81, R83, R85: ENC.f writes the code of `A` to `R` and Success to `ST`, and nothing else; outside the family's
domain it writes a drawn value of `W_f` bits and counts the draw. The form of the drawn value is the model's choice:
notes/assumptions/6.md. -/
def Obligations.EncCommandsWriteTheCode : Prop :=
  ∀ s : State,
    (s.a.toNat ≤ 256 →
      exec .encN s = .next { s with
        r := BitVec.ofNat 32 (encodeDivider s.cfg .n s.a.toNat), st := 0, held := { s.held with r := true, st := true } }) ∧
    (256 < s.a.toNat →
      exec .encN s = .next { s with
        r := (Config.freeBits 10 s.draws).setWidth 32, st := 0, held := { s.held with r := true, st := true },
        draws := s.draws + 1 }) ∧
    (s.a.toNat ≤ 32 →
      exec .encP s = .next { s with
        r := BitVec.ofNat 32 (encodeDivider s.cfg .p s.a.toNat), st := 0, held := { s.held with r := true, st := true } }) ∧
    (32 < s.a.toNat →
      exec .encP s = .next { s with
        r := (Config.freeBits 7 s.draws).setWidth 32, st := 0, held := { s.held with r := true, st := true },
        draws := s.draws + 1 }) ∧
    (s.a.toNat ≤ 32768 →
      exec .encM s = .next { s with
        r := BitVec.ofNat 32 (encodeDivider s.cfg .m s.a.toNat), st := 0, held := { s.held with r := true, st := true } }) ∧
    (32768 < s.a.toNat →
      exec .encM s = .next { s with
        r := (Config.freeBits 17 s.draws).setWidth 32, st := 0, held := { s.held with r := true, st := true },
        draws := s.draws + 1 })

/-- R80, R82, R84: DEC.f compares all 32 bits of `A`; it writes the raw value and `MT` = 1, or 0 and `MT` = 0, and Success
to `ST`, and nothing else. -/
def Obligations.DecCommandsWriteRawAndMatch : Prop :=
  ∀ (fam : Family) (s : State),
    (∀ raw, decodeDivider s.cfg fam s.a.toNat = some raw →
      exec (decOf fam) s = .next { s with
        r := BitVec.ofNat 32 raw, mt := true, st := 0, held := { s.held with r := true, mt := true, st := true } }) ∧
    (decodeDivider s.cfg fam s.a.toNat = none →
      exec (decOf fam) s = .next { s with
        r := 0, mt := false, st := 0, held := { s.held with r := true, mt := true, st := true } })

/-- R72: one step shifts bit 0 out and puts the parity of the tapped bits into bit `L_f` - 1. -/
def Obligations.StepFeedsBackTheParityOfTheTaps : Prop :=
  ∀ (fam : Family) (c : FamilyCfg) (x : Nat), familyShapeOk fam c = true → x < 2 ^ c.len →
    lfsrStep c x = (parity (x &&& tapMask c.taps) <<< (c.len - 1)) ||| (x >>> 1) ∧ lfsrStep c x < 2 ^ c.len

/-- R73: the special codes, the seed as the code of `MAX_f`, one step per unit decrease, and that every code fits its
field. -/
def Obligations.EncodeWalksDownFromTheSeed : Prop :=
  ∀ (cfg : Config) (fam : Family), familyShapeOk fam (cfg.family fam) = true →
    encodeDivider cfg fam 0 = (cfg.family fam).special0 ∧ encodeDivider cfg fam 1 = (cfg.family fam).special1 ∧
      encodeDivider cfg fam 2 = (cfg.family fam).special2 ∧
      encodeDivider cfg fam fam.maxRaw = (cfg.family fam).seed ∧
      (∀ r, 4 ≤ r → r ≤ fam.maxRaw →
        encodeDivider cfg fam (r - 1) = lfsrStep (cfg.family fam) (encodeDivider cfg fam r)) ∧
      (∀ r, 3 ≤ r → r ≤ fam.maxRaw → encodeDivider cfg fam r < 2 ^ (cfg.family fam).len) ∧
      ∀ r, r ≤ fam.maxRaw → encodeDivider cfg fam r < 2 ^ fam.width

/-- R74: whatever the parameters, a decode that fails means that no raw value has the code, and one that finds a raw value
finds one with the code; the special codes come first: a raw value of 3 or more is found only for a code that is not
special, and is then the largest with that code. -/
def Obligations.DecodeTriesSpecialsThenTheLargest : Prop :=
  ∀ (cfg : Config) (fam : Family) (code : Nat),
    (decodeDivider cfg fam code = none ↔ ∀ raw ≤ fam.maxRaw, encodeDivider cfg fam raw ≠ code) ∧
      ∀ r, decodeDivider cfg fam code = some r →
        encodeDivider cfg fam r = code ∧ r ≤ fam.maxRaw ∧
          (3 ≤ r → ∀ r', (r' ≤ 2 ∨ r < r') → r' ≤ fam.maxRaw → encodeDivider cfg fam r' ≠ code)

/-- R75, both laws: for admissible parameters decode inverts encode on every raw value of the domain, and encode inverts
decode on every code that decodes. -/
def Obligations.CodecRoundTrips : Prop :=
  ∀ (cfg : Config) (fam : Family), familyOk fam (cfg.family fam) = true →
    (∀ raw ≤ fam.maxRaw, decodeDivider cfg fam (encodeDivider cfg fam raw) = some raw) ∧
      ∀ code r, decodeDivider cfg fam code = some r → encodeDivider cfg fam r = code

/-- R76: the check the model boots with accepts a family exactly when its parameters have the shape of R6 and R72 and
its `MAX_f` + 1 codes are pairwise distinct. The check and its shape are deduced: notes/assumptions/5.md and 15.md. -/
def Obligations.FamilyCheckMeansDistinctCodes : Prop :=
  ∀ (cfg : Config) (fam : Family),
    familyOk fam (cfg.family fam) = true ↔
      familyShapeOk fam (cfg.family fam) = true ∧
        ∀ r r', r ≤ fam.maxRaw → r' ≤ fam.maxRaw → encodeDivider cfg fam r = encodeDivider cfg fam r' → r = r'

/-- R74, R80: a code of 2^`W_f` or more decodes to nothing. -/
def Obligations.WideCodesDecodeToNothing : Prop :=
  ∀ (cfg : Config) (fam : Family) (code : Nat), familyShapeOk fam (cfg.family fam) = true → 2 ^ fam.width ≤ code →
    decodeDivider cfg fam code = none

/-- R60, R77: what the host computes from `MT` and `R` after a DEC is `orDefault1` of the decode. -/
def Obligations.DecdAppliesTheDefault : Prop :=
  ∀ (fam : Family) (s : State),
    ∃ t, exec (decOf fam) s = .next t ∧ decdResult t = orDefault1 (decodeDivider s.cfg fam s.a.toNat)

/-! ### Bandwidth Selector -/

/-- R93, R94: selP and its bound, and selR. -/
def Obligations.FilterPAndRFollowTheMultiplier : Prop :=
  ∀ (cfg : Config) (m : Nat) (byp : Bool),
    (selfilt cfg m byp).selP = (if effectiveMult cfg m byp < 60 then effectiveMult cfg m byp / 2 + 1 else 31) ∧
      (selfilt cfg m byp).selP ≤ 31 ∧ (selfilt cfg m byp).selR = 0

/-- R91, R92: selI in each band of the effective multiplier, clamped. -/
def Obligations.FilterIFollowsTheBands : Prop :=
  ∀ (cfg : Config) (m me : Nat) (byp : Bool),
    me = (if cfg.selfiltHalveOnBypass = true ∧ byp = true then m / 2 else m) →
    (16384 < me → (selfilt cfg m byp).selI = min cfg.seliStep[0] cfg.seliMax) ∧
      (8192 < me → me ≤ 16384 → (selfilt cfg m byp).selI = min cfg.seliStep[1] cfg.seliMax) ∧
      (2048 < me → me ≤ 8192 → (selfilt cfg m byp).selI = min cfg.seliStep[2] cfg.seliMax) ∧
      (501 ≤ me → me ≤ 2048 → (selfilt cfg m byp).selI = min cfg.seliStep[3] cfg.seliMax) ∧
      (60 ≤ me → me < 501 → (selfilt cfg m byp).selI = min (4 * (1024 / (me + 9))) cfg.seliMax) ∧
      (∀ h : me < 60, (selfilt cfg m byp).selI = min cfg.seliLow[me] cfg.seliMax)

/-- R95: SELFILT puts selP, selI and selR into the three low bytes of `R` with the top byte 0, Success into `ST`, and
changes nothing else. The premise bounds the filter widths by 8: notes/assumptions/5.md. -/
def Obligations.SelfiltPacksTheTriple : Prop :=
  ∀ s : State, scalarsOk s.cfg = true →
    ∃ r : Word32,
      exec .selfilt s = .next { s with r := r, st := 0, held := { s.held with r := true, st := true } } ∧
        r.toNat % 256 = (selfilt s.cfg s.a.toNat (s.f.getLsbD 0)).selP ∧
        r.toNat / 256 % 256 = (selfilt s.cfg s.a.toNat (s.f.getLsbD 0)).selI ∧ r.toNat / 65536 = 0

/-! ### PLL Synthesizer -/

/-- R54: the numbers of the error kinds and of Success; 6 and 7 are never written. -/
def Obligations.StatusCodesAreNumbered : Prop :=
  successCode = 0 ∧ ErrKind.inputTooLow.code = 1 ∧ ErrKind.inputTooHigh.code = 2 ∧ ErrKind.outputTooHigh.code = 3 ∧
    ErrKind.outputTooLow.code = 4 ∧ ErrKind.outsideIntLimit.code = 5 ∧ ∀ k : ErrKind, k.code ≠ 6 ∧ k.code ≠ 7

/-- R102, R103, R104, R116, R171: when each error kind, and the refusal of a derived pre-divider 0, is the result;
OutsideIntLimit never is. -/
def Obligations.RequestChecksInOrder : Prop :=
  ∀ (cfg : Config) (k : Key),
    (synthRaw cfg k = .err .outputTooHigh ↔ 150000000 < k.fout.toNat) ∧
      (synthRaw cfg k = .err .outputTooLow ↔ k.fout.toNat < 1171875) ∧
      (synthRaw cfg k = .err .inputTooLow ↔
        1171875 ≤ k.fout.toNat ∧ k.fout.toNat ≤ 150000000 ∧
          ((k.ss = true ∧ k.fin.toNat < 2000000) ∨ (k.ss = false ∧ k.fin.toNat < 4000))) ∧
      (synthRaw cfg k = .err .inputTooHigh ↔
        1171875 ≤ k.fout.toNat ∧ k.fout.toNat ≤ 150000000 ∧ k.ss = true ∧ 2000000 ≤ k.fin.toNat ∧
          256 < k.fin.toNat / cfg.ssRefHz) ∧
      (synthRaw cfg k = .ssPreDividerZero ↔
        1171875 ≤ k.fout.toNat ∧ k.fout.toNat ≤ 150000000 ∧ k.ss = true ∧ 2000000 ≤ k.fin.toNat ∧
          k.fin.toNat / cfg.ssRefHz = 0) ∧
      synthRaw cfg k ≠ .err .outsideIntLimit

/-- R101, R105: the post-divider is 0 exactly when the output is already in the band, else the least one that lifts the CCO
to 75 MHz; the direct-output flag and the CCO follow it. -/
def Obligations.PostDividerIsTheLeast : Prop :=
  ∀ (cfg : Config) (k : Key) (raw : SynthRaw), synthRaw cfg k = .ok raw →
    raw.p ≤ 32 ∧ (raw.p = 0 ↔ 75000000 ≤ k.fout.toNat) ∧ (raw.directO = true ↔ raw.p = 0) ∧
      raw.cco = (if raw.p = 0 then k.fout.toNat else k.fout.toNat * raw.p * 2) ∧
      (raw.p ≠ 0 → 75000000 ≤ k.fout.toNat * raw.p * 2 ∧
        ∀ q, 1 ≤ q → q < raw.p → k.fout.toNat * q * 2 < 75000000)

/-- R115: the CCO of every successful synthesis lies in [75 MHz, 150 MHz]. -/
def Obligations.CcoStaysInItsBand : Prop :=
  ∀ (cfg : Config) (k : Key) (raw : SynthRaw), synthRaw cfg k = .ok raw →
    75000000 ≤ (if raw.directO then k.fout.toNat else k.fout.toNat * raw.p * 2) ∧
      (if raw.directO then k.fout.toNat else k.fout.toNat * raw.p * 2) ≤ 150000000

/-- R104, R106, R107: the pre-divider in both modes, and the direct-input flag. -/
def Obligations.PreDividerComesFromTheCommonDivisor : Prop :=
  ∀ (cfg : Config) (k : Key) (raw : SynthRaw), synthRaw cfg k = .ok raw →
    (raw.directI = true ↔ raw.n = 1) ∧ 1 ≤ raw.n ∧ raw.n ≤ 256 ∧ raw.ff = (if k.fb2 then 2 else 1) ∧
      (k.ss = true → raw.n = k.fin.toNat / cfg.ssRefHz) ∧
      (k.ss = false →
        (4000 < k.fin.toNat ∧ k.fin.toNat ≤ raw.cco ∧ 20000 < Nat.gcd raw.cco (raw.ff * k.fin.toNat) ∧
            raw.ff * k.fin.toNat < 256 * Nat.gcd raw.cco (raw.ff * k.fin.toNat) →
          raw.n * Nat.gcd raw.cco (raw.ff * k.fin.toNat) = raw.ff * k.fin.toNat) ∧
        (¬ (4000 < k.fin.toNat ∧ k.fin.toNat ≤ raw.cco ∧ 20000 < Nat.gcd raw.cco (raw.ff * k.fin.toNat) ∧
            raw.ff * k.fin.toNat < 256 * Nat.gcd raw.cco (raw.ff * k.fin.toNat)) →
          raw.n = 1))

/-- R108, R109: outside spread-spectrum mode the multiplier is the one whose achieved frequency is nearest to the CCO
target, and the smaller one on a tie. -/
def Obligations.MultiplierIsTheNearest : Prop :=
  ∀ (cfg : Config) (k : Key) (raw : SynthRaw), synthRaw cfg k = .ok raw → k.ss = false →
    raw.ref = k.fin.toNat / raw.n ∧ 1 ≤ raw.ref ∧ raw.frac = 0 ∧
      ∀ m, absDiff (raw.ref * raw.ff * raw.m) raw.cco ≤ absDiff (raw.ref * raw.ff * m) raw.cco ∧
        (absDiff (raw.ref * raw.ff * raw.m) raw.cco = absDiff (raw.ref * raw.ff * m) raw.cco → raw.m ≤ m)

/-- R108, R111: in spread-spectrum mode the integer part is the floor quotient, the fraction has 11 bits, and together they
are the largest fixed-point multiplier that does not pass the CCO target. -/
def Obligations.FractionApproachesFromBelow : Prop :=
  ∀ (cfg : Config) (k : Key) (raw : SynthRaw), synthRaw cfg k = .ok raw → k.ss = true →
    raw.ref = k.fin.toNat / raw.n ∧ 1 ≤ raw.ref ∧ raw.m = raw.cco / (raw.ff * raw.ref) ∧ raw.frac ≤ 2047 ∧
      (2048 * raw.m + raw.frac) * (raw.ff * raw.ref) ≤ 2048 * raw.cco ∧
      2048 * raw.cco < (2048 * raw.m + raw.frac + 1) * (raw.ff * raw.ref)

/-- R110, R111, R112, R118: every field of the set that packing a successful synthesis gives. The form of the drawn
value is the model's choice: notes/assumptions/6.md. -/
def Obligations.PackedSetHoldsTheSynthesis : Prop :=
  ∀ (cfg : Config) (k : Key) (raw : SynthRaw) (draw : Nat), admissible cfg = true → synthRaw cfg k = .ok raw →
    (pack cfg raw draw).ndec.toNat = encodeDivider cfg .n raw.n ∧
      (pack cfg raw draw).pdec.toNat = encodeDivider cfg .p raw.p ∧
      (pack cfg raw draw).directI = raw.directI ∧ (pack cfg raw draw).directO = raw.directO ∧
      (pack cfg raw draw).bypass = false ∧ (pack cfg raw draw).fbdiv2 = k.fb2 ∧
      (pack cfg raw draw).ssEnabled = k.ss ∧
      (k.ss = false →
        (pack cfg raw draw).selP = (selfilt cfg raw.m (!k.fb2)).selP ∧
          (pack cfg raw draw).selI = (selfilt cfg raw.m (!k.fb2)).selI ∧ (pack cfg raw draw).selR = 0 ∧
          (raw.m ≤ 32768 → (pack cfg raw draw).mult = encodeDivider cfg .m raw.m) ∧
          (32768 < raw.m → (pack cfg raw draw).mult = (Config.freeBits 17 draw).toNat)) ∧
      (k.ss = true →
        (pack cfg raw draw).selP = 0 ∧ (pack cfg raw draw).selI = 0 ∧ (pack cfg raw draw).selR = 0 ∧
          (raw.m < 2 ^ cfg.mdIntW → (pack cfg raw draw).mult = raw.m * 2048 + raw.frac) ∧
          (2 ^ cfg.mdIntW ≤ raw.m → (pack cfg raw draw).mult = (Config.freeBits cfg.multW draw).toNat)) ∧
      (pack cfg raw draw).fits cfg = true

/-- R113: a request inside the bounds of R102 to R104 synthesizes: `PS` takes the packed set, `ST` Success, and nothing
else changes but the count of drawn values. The count is the model's choice: notes/assumptions/6.md. -/
def Obligations.SynthSucceedsInRange : Prop :=
  ∀ s : State, InRange s.cfg s.request →
    ∃ raw, synthRaw s.cfg s.request = .ok raw ∧
      exec .synth s = .next { s with
        ps := pack s.cfg raw s.draws, st := 0, held := { s.held with ps := true, st := true },
        draws := s.draws + (if multOverflows s.cfg raw then 1 else 0) }

/-- R117, R172: a failing SYNTH writes `ST` and nothing else, and so does a failing CSYNTH that misses (R124). -/
def Obligations.FailureWritesOnlyTheStatus : Prop :=
  ∀ (s : State) (kind : ErrKind), synthRaw s.cfg s.request = .err kind →
    exec .synth s = .next { s with st := kind.code, held := { s.held with st := true } } ∧
      ((∀ e ∈ s.sc, e.valid = true → e.key ≠ s.request) →
        exec .csynth s = .next { s with st := kind.code, held := { s.held with st := true } })

/-- R104, R129, R189: a spread-spectrum request whose derived pre-divider is 0 is refused, by SYNTH and, on a miss, by
CSYNTH. -/
def Obligations.ZeroPreDividerIsRefused : Prop :=
  ∀ s : State, 1171875 ≤ s.b.toNat → s.b.toNat ≤ 150000000 → s.f.getLsbD 1 = true → 2000000 ≤ s.a.toNat →
    s.a.toNat / s.cfg.ssRefHz = 0 →
    exec .synth s = .refused .ssPreDividerZero ∧
      ((∀ e ∈ s.sc, e.valid = true → e.key ≠ s.request) → exec .csynth s = .refused .ssPreDividerZero)

/-- R114: two states with the same configuration and the same request get the same status, and the same set but for a
`mult` that R118 leaves open, whatever else differs between them. -/
def Obligations.SynthDependsOnTheRequestAlone : Prop :=
  ∀ s s' : State, s.cfg = s'.cfg → s.request = s'.request →
    (∃ t t', exec .synth s = .next t ∧ exec .synth s' = .next t' ∧ t.st = t'.st ∧
        ((t.ps = s.ps ∧ t'.ps = s'.ps ∧ t.st ≠ 0) ∨
          ({ t.ps with mult := 0 } = { t'.ps with mult := 0 } ∧ t.st = 0 ∧
            ∃ raw, synthRaw s.cfg s.request = .ok raw ∧ (multOverflows s.cfg raw = false → t.ps = t'.ps)))) ∨
      (exec .synth s = .refused .ssPreDividerZero ∧ exec .synth s' = .refused .ssPreDividerZero)

/-! ### Synthesis Cache -/

/-- R121, R122: a request that matches a valid slot returns that slot's set; the ring and the cursor do not move. -/
def Obligations.CacheHitReturnsTheStoredSet : Prop :=
  ∀ (s : State) (e : Slot), CacheKeysDistinct s → e ∈ s.sc → e.valid = true → e.key = s.request →
    exec .csynth s = .next { s with ps := e.val, st := 0, held := { s.held with ps := true, st := true } }

/-- R123, R126: a request inside the bounds that matches no valid slot is synthesized, stored at the cursor, and the
cursor advances modulo the capacity; with capacity 0 nothing is stored. That the cursor stays where it is with capacity
0 is the model's choice: notes/assumptions/14.md. -/
def Obligations.CacheMissStoresAtTheCursor : Prop :=
  ∀ s : State, InRange s.cfg s.request → (∀ e ∈ s.sc, e.valid = true → e.key ≠ s.request) →
    ∃ raw, synthRaw s.cfg s.request = .ok raw ∧
      exec .csynth s = .next { s with
        ps := pack s.cfg raw s.draws, st := 0, held := { s.held with ps := true, st := true },
        draws := s.draws + (if multOverflows s.cfg raw then 1 else 0),
        sc := if s.cfg.cacheCap = 0 then s.sc
          else s.sc.set s.scCur { valid := true, key := s.request, val := pack s.cfg raw s.draws },
        scCur := if s.cfg.cacheCap = 0 then s.scCur else (s.scCur + 1) % s.cfg.cacheCap }

/-- R126: in every state whose valid slots hold what SYNTH returns, CSYNTH and SYNTH give the same status and the same
set but for a `mult` that R118 leaves open, fail alike, and are refused alike. That a stored draw counts as faithful is
deduced: notes/assumptions/14.md. -/
def Obligations.CacheIsTransparent : Prop :=
  ∀ s : State, CacheFaithful s →
    (∃ t u, exec .csynth s = .next t ∧ exec .synth s = .next u ∧ t.st = u.st ∧
        { t.ps with mult := 0 } = { u.ps with mult := 0 } ∧
        (∀ raw, synthRaw s.cfg s.request = .ok raw → multOverflows s.cfg raw = false → t.ps = u.ps) ∧
        ((∃ kind, synthRaw s.cfg s.request = .err kind) → t = u)) ∨
      (exec .csynth s = .refused .ssPreDividerZero ∧ exec .synth s = .refused .ssPreDividerZero)

/-- R125: from reset, after `CACHE_CAP` + 1 successful misses with distinct keys the first key is in no slot, and slot 0
holds the last one. -/
def Obligations.CacheEvictsTheFirstInserted : Prop :=
  ∀ (cfg : Config) (hw : Hw) (first : Key) (keys : List Key), 0 < cfg.cacheCap → keys.length = cfg.cacheCap →
    (first :: keys).Nodup → (∀ k ∈ first :: keys, InRange cfg k) →
    ∃ t, csynthAll (State.initial cfg hw) (first :: keys) = some t ∧
      (∀ e ∈ t.sc, e.valid = true → e.key ≠ first) ∧ t.scCur = 1 % cfg.cacheCap ∧
      (t.sc[0]?.map Slot.key) = keys.getLast?

/-- R30, U11: no command reads the key or the value of a slot that is not valid: two states that differ there alone take
the same outcome and still differ there alone. -/
def Obligations.InvalidSlotsAreNeverRead : Prop :=
  ∀ (i : Instr) (s : State) (sc' : List Slot), RingsAgree s.sc sc' →
    (∃ t sc'', exec i s = .next t ∧ exec i { s with sc := sc' } = .next { t with sc := sc'' } ∧
        RingsAgree t.sc sc'') ∨
      ∃ r, exec i s = .refused r ∧ exec i { s with sc := sc' } = .refused r

/-! ### Clock-Tree Resolver -/

/-- R131: FREQ.AT of a source node, for rates that fit 32 bits. -/
def Obligations.FreqAtOfTheSources : Prop :=
  ∀ s : State,
    (∀ rate, s.cfg.graph.nodes[s.a.toNat]? = some (.fixed rate) → rate < 2 ^ 32 →
      exec .freqAt s = .next { s with
        r := BitVec.ofNat 32 rate, st := 0, held := { s.held with r := true, st := true } }) ∧
    (s.cfg.graph.nodes[s.a.toNat]? = some .ext → s.cfg.extRate < 2 ^ 32 →
      exec .freqAt s = .next { s with
        r := BitVec.ofNat 32 s.cfg.extRate, st := 0, held := { s.held with r := true, st := true } }) ∧
    (∀ rate gate on, s.cfg.graph.nodes[s.a.toNat]? = some (.gated rate gate on) → rate < 2 ^ 32 →
      exec .freqAt s = .next { s with
        r := if s.hw.read (.tree gate) = on then BitVec.ofNat 32 rate else 0, st := 0,
        held := { s.held with r := true, st := true } })

/-- R132, R133, R134, R135: what the walk of a `Derived` node gives. The frequency of its input (the direct predecessor,
the predecessor its selector picks, or 0 for an unknown selection) is floor-divided by the value of each divider field in
list order, a field of 0 giving 0; the memo is the one the walk of the input leaves. So a divider of 0 makes the node 0,
and an input of 0 makes it 0, whatever the other dividers are. -/
def Obligations.ZeroIsAbsorbing : Prop :=
  ∀ (cfg : Config) (hw : Hw) (depth id : Nat) (memo : Memo) (input : NodeInput) (divs : List Nat),
    cfg.graph.nodes[id]? = some (.derived input divs) →
    (∀ pred f m, input = .direct pred → freqWalk cfg hw depth pred memo = some (f, m) →
      freqWalk cfg hw (depth + 1) id memo =
        some (divs.foldl (fun g d => if hw.read (.tree d) = 0 then 0 else g / hw.read (.tree d)) f, m)) ∧
      (∀ sel table pred f m, input = .mux sel table → (table.map Prod.fst).Nodup →
        (hw.read (.tree sel), pred) ∈ table → freqWalk cfg hw depth pred memo = some (f, m) →
        freqWalk cfg hw (depth + 1) id memo =
          some (divs.foldl (fun g d => if hw.read (.tree d) = 0 then 0 else g / hw.read (.tree d)) f, m)) ∧
      (∀ sel table, input = .mux sel table → (∀ e ∈ table, e.1 ≠ hw.read (.tree sel)) →
        freqWalk cfg hw (depth + 1) id memo = some (0, memo)) ∧
      (∀ d ∈ divs, hw.read (.tree d) = 0 → ∀ f m, freqWalk cfg hw depth id memo = some (f, m) → f = 0) ∧
      (∀ pred m, input = .direct pred → freqWalk cfg hw depth pred memo = some (0, m) →
        freqWalk cfg hw (depth + 1) id memo = some (0, m)) ∧
      (∀ sel table pred m, input = .mux sel table → (table.map Prod.fst).Nodup → (hw.read (.tree sel), pred) ∈ table →
        freqWalk cfg hw depth pred memo = some (0, m) → freqWalk cfg hw (depth + 1) id memo = some (0, m))

/-- R132, R136: FREQ.AT of a node whose selector holds a value outside its table gives 0 with `ST` Success. -/
def Obligations.UnknownSelectionGivesZero : Prop :=
  ∀ (s : State) (sel : Nat) (table : List (Nat × Nat)) (divs : List Nat),
    s.cfg.graph.nodes[s.a.toNat]? = some (.derived (.mux sel table) divs) →
    (∀ e ∈ table, e.1 ≠ s.hw.read (.tree sel)) →
    exec .freqAt s = .next { s with r := 0, st := 0, held := { s.held with r := true, st := true } }

/-- R134, R138, R139: on a well-formed graph FREQ.AT of every node completes; it writes `R` and `ST`, and `PLLFREQ` only
when that was 0; a result that does not fit 32 bits is a drawn value (R8, U3). The form of the drawn value is the
model's choice, and `graphOk` is deduced: notes/assumptions/6.md and 5.md. -/
def Obligations.FreqAtCompletesOnEveryNode : Prop :=
  ∀ s : State, graphOk s.cfg.graph = true → s.a.toNat < s.cfg.graph.count →
    ∃ f m, freqWalk s.cfg s.hw s.cfg.graph.count s.a.toNat { pllFreq := s.pllFreq, draws := s.draws } = some (f, m) ∧
      exec .freqAt s = .next { s with
        r := if f < 2 ^ 32 then BitVec.ofNat 32 f else Config.freeBits 32 m.draws, st := 0,
        held := { s.held with r := true, st := true }, pllFreq := m.pllFreq,
        draws := m.draws + (if f < 2 ^ 32 then 0 else 1) } ∧
      (s.pllFreq ≠ 0 → m.pllFreq = s.pllFreq ∧ m.draws = s.draws)

/-- R61: FREQ.AT of a number that names no node is refused. -/
def Obligations.FreqAtOfNoNodeIsRefused : Prop :=
  ∀ s : State, s.cfg.graph.count ≤ s.a.toNat → exec .freqAt s = .refused (.noSuchNode s.a.toNat)

/-- R137, R144: FREQ.AT of the `PllOut` node gives the memo when it is not 0; when it is 0 the rate of the registers is
computed from `pllInput()`, stored in `PLLFREQ` and returned. The form of the drawn value is the model's choice:
notes/assumptions/6.md. -/
def Obligations.PllOutNodeReadsTheMemo : Prop :=
  ∀ s : State, graphOk s.cfg.graph = true → s.cfg.graph.nodes[s.a.toNat]? = some .pllOut →
    (s.pllFreq ≠ 0 →
      exec .freqAt s = .next { s with r := s.pllFreq, st := 0, held := { s.held with r := true, st := true } }) ∧
    (s.pllFreq = 0 →
      ∃ fin, PllInputIs s.cfg s.hw fin ∧
        exec .freqAt s = .next { s with
          r := freqWord s.draws (rateOf s.cfg fin (snapshotPset s.hw)),
          pllFreq := freqWord s.draws (rateOf s.cfg fin (snapshotPset s.hw)), st := 0,
          held := { s.held with r := true, st := true },
          draws := s.draws + freqDraws (rateOf s.cfg fin (snapshotPset s.hw)) })

/-- R140: the rate formula written out; a code that decodes to nothing or to 0 counts as 1; no divisor is 0. -/
def Obligations.RateFormulaOfTheObservedSet : Prop :=
  ∀ (cfg : Config) (fin : Nat) (ps : Sys2Proof.PSet),
    (ps.bypass = true → rateOf cfg fin ps = fin) ∧ 1 ≤ rateN cfg ps ∧ 1 ≤ ratePd cfg ps ∧
      rateN cfg ps = (if ps.directI then 1 else orDefault1 (decodeDivider cfg .n ps.ndec.toNat)) ∧
      ratePd cfg ps = (if ps.directO then 1 else 2 * orDefault1 (decodeDivider cfg .p ps.pdec.toNat)) ∧
      (ps.bypass = false → ps.ssEnabled = false →
        rateOf cfg fin ps =
          (fin / rateN cfg ps) * (if ps.fbdiv2 then 2 else 1) * orDefault1 (decodeDivider cfg .m ps.mult) /
            ratePd cfg ps) ∧
      (ps.bypass = false → ps.ssEnabled = true →
        rateOf cfg fin ps =
          ((fin / rateN cfg ps) * (if ps.fbdiv2 then 2 else 1) * (ps.mult / 2048) +
              (fin / rateN cfg ps) * (if ps.fbdiv2 then 2 else 1) * (ps.mult % 2048) / 2048) /
            ratePd cfg ps)

/-- R141, R144, R145: the set read from `HW`, field by field, with the filter coefficients 0; and on a well-formed graph
PLL.RATE gives the rate of that set; it neither reads nor writes `PLLFREQ`. The form of the drawn value is the model's
choice: notes/assumptions/6.md. -/
def Obligations.PllRateIsAFunctionOfTheSnapshot : Prop :=
  ∀ s : State,
    snapshotPset s.hw =
        { ndec := s.hw.pll.ndec, pdec := s.hw.pll.pdec, mult := s.hw.pll.mult, selP := 0, selI := 0, selR := 0,
          directI := s.hw.pll.directI, directO := s.hw.pll.directO, bypass := s.hw.pll.bypass,
          fbdiv2 := s.hw.pll.fbdiv2, ssEnabled := s.hw.pll.ssen } ∧
      (graphOk s.cfg.graph = true →
        ∃ fin, PllInputIs s.cfg s.hw fin ∧
          exec .pllRate s = .next { s with
            r := freqWord s.draws (rateOf s.cfg fin (snapshotPset s.hw)), st := 0,
            held := { s.held with r := true, st := true },
            draws := s.draws + freqDraws (rateOf s.cfg fin (snapshotPset s.hw)) })

/-- R48, R142: PLL.OUT gives the memo, without consulting `HW`, unless the recompute flag is set or the memo is 0; then
it recomputes the memo first. The form of the drawn value is the model's choice: notes/assumptions/6.md. -/
def Obligations.PllOutRecomputesOnRequestOrWhenStale : Prop :=
  ∀ s : State,
    (s.f.getLsbD 0 = false → s.pllFreq ≠ 0 →
      exec .pllOut s = .next { s with r := s.pllFreq, st := 0, held := { s.held with r := true, st := true } }) ∧
    (graphOk s.cfg.graph = true → (s.f.getLsbD 0 = true ∨ s.pllFreq = 0) →
      ∃ fin, PllInputIs s.cfg s.hw fin ∧
        exec .pllOut s = .next { s with
          r := freqWord s.draws (rateOf s.cfg fin (snapshotPset s.hw)),
          pllFreq := freqWord s.draws (rateOf s.cfg fin (snapshotPset s.hw)), st := 0,
          held := { s.held with r := true, st := true },
          draws := s.draws + freqDraws (rateOf s.cfg fin (snapshotPset s.hw)) })

/-- R8, R143: PLL.RATEPS gives the rate of the set in `PS` for the input frequency in `A`, and changes nothing but `R`
and `ST`; a result that does not fit 32 bits is a drawn value. The form of the drawn value is the model's choice:
notes/assumptions/6.md. -/
def Obligations.PllRatePsChangesOnlyTheResult : Prop :=
  ∀ s : State,
    (rateOf s.cfg s.a.toNat s.ps < 2 ^ 32 →
      exec .pllRatePs s = .next { s with
        r := BitVec.ofNat 32 (rateOf s.cfg s.a.toNat s.ps), st := 0,
        held := { s.held with r := true, st := true } }) ∧
    (2 ^ 32 ≤ rateOf s.cfg s.a.toNat s.ps →
      exec .pllRatePs s = .next { s with
        r := Config.freeBits 32 s.draws, st := 0, held := { s.held with r := true, st := true },
        draws := s.draws + 1 })

/-- R146: outside spread-spectrum mode, for a multiplier inside the codec's domain, the rate of a synthesized set is the
rate of its raw values, a raw multiplier of 0 counting as 1. -/
def Obligations.RateUndoesTheSynthesis : Prop :=
  ∀ (cfg : Config) (k : Key) (raw : SynthRaw) (draw : Nat), admissible cfg = true → synthRaw cfg k = .ok raw →
    k.ss = false → raw.m ≤ 32768 →
    rateOf cfg k.fin.toNat (pack cfg raw draw) =
      ((k.fin.toNat / raw.n) * raw.ff * (if raw.m = 0 then 1 else raw.m)) / (if raw.p = 0 then 1 else 2 * raw.p)

/-- R130: the check the model boots with accepts a graph exactly when (a) to (e) of the rule hold, with a rank function.
The check is deduced: notes/assumptions/5.md. -/
def Obligations.GraphCheckMeansRanked : Prop :=
  ∀ g : Graph, graphOk g = true ↔ GraphWellFormed g

/-! ### PLL Apply/Lock Sequencer -/

/-- R150 to R158, R160: the events of APPLY, in order. (1) Where no instant is next and no lock has to be awaited, one
step records all of them: the configuration, the pulse if powerUp or waitForLock is set, the poll that reads 1 if
waitForLock is set, then the reads on the path of `pllIn`, the memo, the voltage call if adjustVoltage is set, and `ST`.
(2) Where an instant is next, the command is issued with its first event, and all the others are still to do. (3) At each
further instant the next one happens, alone: a write or a call, a poll that is repeated until it reads 1, the memo with the
PLL input of that instant, the voltage call, `ST`. The form of the steps is the model's choice: notes/assumptions/8.md. -/
def Obligations.ApplyEventsInOrder : Prop :=
  (∀ s : State, graphOk s.cfg.graph = true → s.inputs.head? ≠ some .instant →
    (s.f.getLsbD 1 = false ∨ s.hw.pll.lock = true) →
    ∃ t fin reads, exec .apply s = .next t ∧ PllInputIs s.cfg s.hw fin ∧
      PathReads s.cfg s.hw s.cfg.graph.pllIn reads ∧ t.pllFreq = freqWord s.draws (rateOf s.cfg fin s.ps) ∧
      t.trace = s.trace ++ configEvents s.cfg s.ps ++
        (if s.f.getLsbD 0 || s.f.getLsbD 1 then pulseEvents s.cfg s.ps else []) ++
        (if s.f.getLsbD 1 then [.fieldRead .lock 1] else []) ++
        closingEvents s.hw reads t.pllFreq (s.f.getLsbD 2)) ∧
  (∀ (s : State) (rest : List Action), s.inputs = .instant :: rest →
    exec .apply s = .next { s with
      inputs := rest, trace := s.trace ++ [.pdEnable s.cfg.pllDomain],
      pending := ((configEvents s.cfg s.ps).tail ++
          (if s.f.getLsbD 0 || s.f.getLsbD 1 then pulseEvents s.cfg s.ps else [])).map ApplyStep.event ++
        (if s.f.getLsbD 1 then [.poll] else []) ++ closingSteps (s.f.getLsbD 2) }) ∧
  ∀ (s : State) (x : ApplyStep) (more : List ApplyStep) (rest : List Action), s.pending = x :: more →
    s.inputs = .instant :: rest →
    (∀ e, x = .event e →
      step s = .next { s with inputs := rest, pending := more, hw := e.onHw s.hw, trace := s.trace ++ [e] }) ∧
    (x = .poll →
      step s = .next { s with
        inputs := rest, pending := if s.hw.pll.lock then more else s.pending,
        trace := s.trace ++ [.fieldRead .lock s.hw.pll.lock.toNat] }) ∧
    (x = .memo → graphOk s.cfg.graph = true →
      ∃ fin reads, PllInputIs s.cfg s.hw fin ∧ PathReads s.cfg s.hw s.cfg.graph.pllIn reads ∧
        step s = .next { s with
          inputs := rest, pending := more, pllFreq := freqWord s.draws (rateOf s.cfg fin s.ps),
          draws := s.draws + freqDraws (rateOf s.cfg fin s.ps),
          trace := s.trace ++ memoEvents s.hw reads (freqWord s.draws (rateOf s.cfg fin s.ps)) }) ∧
    (x = .voltage →
      step s = .next { s with inputs := rest, pending := more, trace := s.trace ++ [.pdSetVoltage s.pllFreq] }) ∧
    (x = .status →
      step s = .next { s with
        inputs := rest, pending := more, st := 0, held := { s.held with st := true },
        trace := s.trace ++ [.statusWrite 0] })

/-- R152, R153, R155, R157, R159: what an APPLY that completes in its step leaves: every PLL field but the lock bit as the
set says, the three request bits 1, the clock-tree fields as they were, `PLLFREQ` from the set and not from the registers,
`ST` Success, nothing still to do, and everything but the trace and the count of drawn values unchanged. (Where an instant
is next it goes event by event: ApplyEventsInOrder.) The form of the steps is the model's choice:
notes/assumptions/8.md. -/
def Obligations.ApplyLeavesTheSetInHardware : Prop :=
  ∀ s : State, graphOk s.cfg.graph = true → s.inputs.head? ≠ some .instant →
    (s.f.getLsbD 1 = false ∨ s.hw.pll.lock = true) →
    ∃ tr fin, PllInputIs s.cfg s.hw fin ∧
      exec .apply s = .next { s with
        hw := s.hw.applied s.ps, pllFreq := freqWord s.draws (rateOf s.cfg fin s.ps), st := 0, pending := [],
        held := { s.held with st := true }, trace := tr, draws := s.draws + freqDraws (rateOf s.cfg fin s.ps) }

/-- R156, R160: an APPLY with waitForLock whose first poll reads 0 still runs: the set is in hardware, the poll is in the
trace, the poll and what follows it are still to do, and `PLLFREQ`, `ST` and the rest are unchanged. That the step ends
with the poll is the model's choice: notes/assumptions/8.md. -/
def Obligations.ApplyWaitsForTheLock : Prop :=
  ∀ s : State, s.inputs.head? ≠ some .instant → s.f.getLsbD 1 = true → s.hw.pll.lock = false →
    exec .apply s = .next { s with
      hw := s.hw.applied s.ps, pending := .poll :: closingSteps (s.f.getLsbD 2),
      trace := s.trace ++ configEvents s.cfg s.ps ++ pulseEvents s.cfg s.ps ++ [.fieldRead .lock 0] }

/-- R156, R177: as long as the hardware never shows `PLL_LOCK` = 1 an APPLY at its lock poll never completes: after any
number of steps, whatever the environment writes meanwhile but 1 to `PLL_LOCK`, it is at the poll with the same steps still
to do, `HW` has changed by the environment's writes alone, the trace has grown by polls that read 0, one at least for every
step that takes no environment write, and everything else, every host register, `PLLFREQ` and the cache included, is as it
was. The form of the polls is the model's choice: notes/assumptions/8.md. -/
def Obligations.UnlockedWaitNeverEnds : Prop :=
  ∀ (n : Nat) (s : State), s.pending.head? = some .poll → s.hw.pll.lock = false →
    (∀ act ∈ s.inputs, act = .instant ∨ ∃ x v, act = .hw x v ∧ (x = .lock → v = 0) ∧ x.admits s.cfg v = true) →
    ∃ k, k ≤ n ∧ n ≤ k + (s.inputs.take n).countP (fun act => decide (act ≠ .instant)) ∧
      Reaches n s { s with
        inputs := s.inputs.drop n, hw := (s.inputs.take n).foldl (fun hw act => actionOnHw act hw) s.hw,
        trace := s.trace ++ List.replicate k (.fieldRead .lock 0) }

/-- R156, R157, R158, R159: how a waiting APPLY completes. (1) When the environment raises `PLL_LOCK` at the lock poll and
does not act next, the poll of that step reads 1 and APPLY runs to its end (V6.1). (2) So it does when `PLL_LOCK` is
already 1 at the poll and nothing arrives. `HW` differs by the lock bit alone. The form of the polls is the model's choice:
notes/assumptions/8.md. -/
def Obligations.LockedPollCompletesApply : Prop :=
  ∀ s : State, graphOk s.cfg.graph = true → ∀ av : Bool, s.pending = .poll :: closingSteps av →
    (∀ rest : List Action, s.inputs = .hw .lock 1 :: rest → (∀ act, rest.head? = some act → act.byHost = true) →
      ∃ fin reads, PllInputIs s.cfg s.hw fin ∧ PathReads s.cfg s.hw s.cfg.graph.pllIn reads ∧
        step s = .next { s with
          inputs := rest, pending := [], hw := { s.hw with pll := { s.hw.pll with lock := true } },
          pllFreq := freqWord s.draws (rateOf s.cfg fin s.ps), st := 0, held := { s.held with st := true },
          draws := s.draws + freqDraws (rateOf s.cfg fin s.ps),
          trace := s.trace ++ [.fieldRead .lock 1] ++
            closingEvents s.hw reads (freqWord s.draws (rateOf s.cfg fin s.ps)) av }) ∧
    (s.inputs = [] → s.hw.pll.lock = true →
      ∃ fin reads, PllInputIs s.cfg s.hw fin ∧ PathReads s.cfg s.hw s.cfg.graph.pllIn reads ∧
        step s = .next { s with
          pending := [], pllFreq := freqWord s.draws (rateOf s.cfg fin s.ps), st := 0,
          held := { s.held with st := true }, draws := s.draws + freqDraws (rateOf s.cfg fin s.ps),
          trace := s.trace ++ [.fieldRead .lock 1] ++
            closingEvents s.hw reads (freqWord s.draws (rateOf s.cfg fin s.ps)) av })

/-- R189, R194: a host write to `CMD` or to an operand register while APPLY runs is refused. That a write which is next
in `inputs` arrives during the command is the model's choice: notes/assumptions/9.md. -/
def Obligations.HostAccessWhileBusyIsRefused : Prop :=
  ∀ (s : State) (act : Action) (rest : List Action), s.pending ≠ [] → s.inputs = act :: rest → act.byHost = true →
    step s = .refused .concurrentAccess

/-! ### Reset and invariants -/

/-- R30: after reset `PLLFREQ` is 0, no slot is valid, the cursor is 0, no host register holds a value, and `HW` is
whatever it was, for every configuration. -/
def Obligations.ResetStateIsEmpty : Prop :=
  ∀ (cfg : Config) (hw : Hw),
    (State.initial cfg hw).pllFreq = 0 ∧ (State.initial cfg hw).scCur = 0 ∧
      (State.initial cfg hw).sc.length = cfg.cacheCap ∧ (∀ e ∈ (State.initial cfg hw).sc, e.valid = false) ∧
      (∀ reg, (State.initial cfg hw).held.has reg = false) ∧ (State.initial cfg hw).hw = hw ∧
      (State.initial cfg hw).pending = []

/-- R30, R31: in the state after reset a host read of `R`, `MT`, `ST` or `PS` yields no value; any ENC makes `R` and `ST`
readable and leaves `MT` as it was, and any DEC makes all three readable. -/
def Obligations.HostReadsNeedAWrite : Prop :=
  (∀ (cfg : Config) (hw : Hw),
    (State.initial cfg hw).hostR = none ∧ (State.initial cfg hw).hostMT = none ∧
      (State.initial cfg hw).hostST = none ∧ (State.initial cfg hw).hostPS = none) ∧
    ∀ (fam : Family) (s : State),
      (∃ t, exec (encOf fam) s = .next t ∧ t.hostR = some t.r ∧ t.hostST = some 0 ∧ t.hostMT = s.hostMT) ∧
        ∃ t, exec (decOf fam) s = .next t ∧ t.hostR = some t.r ∧ t.hostST = some 0 ∧ t.hostMT = some t.mt

/-- R30, R163, R190: a reset, also of an APPLY that waits, keeps `HW` and `CFG`, sets `PLLFREQ` to 0, empties the cache,
leaves no host register with a value and no command running. That the reset is the head of `inputs`, and that one which
arrives between two events of an APPLY does the same, are the model's choice: notes/assumptions/7.md and 16.md. -/
def Obligations.ResetKeepsTheHardware : Prop :=
  ∀ (s : State) (rest : List Action), s.inputs = .reset :: rest →
    ∃ t, step s = .next t ∧ t.hw = s.hw ∧ t.cfg = s.cfg ∧ t.inputs = rest ∧ t.pllFreq = 0 ∧ t.scCur = 0 ∧
      t.sc.length = s.cfg.cacheCap ∧ (∀ e ∈ t.sc, e.valid = false) ∧ (∀ reg, t.held.has reg = false) ∧ t.pending = []

/-- R33: the invariant holds after reset, for every configuration and every `HW` whose fields fit their widths. That `PS`
fits and `ST` is legal rests on the zeros which the model gives registers that hold no value (R30):
notes/assumptions/1.md. -/
def Obligations.InvariantHoldsAfterReset : Prop :=
  ∀ (cfg : Config) (hw : Hw), HwFits cfg hw → Inv (State.initial cfg hw)

/-- R33: every step keeps the invariant, no step changes the configuration (R29), and none takes back the mark of a run. The
form of what a running APPLY has still to do, that (b) of R33 leaves a drawn `mult` open, and the mark are the model's:
notes/assumptions/8.md, 14.md, 1.md. -/
def Obligations.EveryStepKeepsTheInvariant : Prop :=
  ∀ s t : State, admissible s.cfg = true → Inv s → step s = .next t →
    Inv t ∧ t.cfg = s.cfg ∧ (s.unheldRead = true → t.unheldRead = true)

/-- R60: the pseudo-instruction SYNTH, four host writes, runs one SYNTH of the request it carries. That the host's
writes are the inputs is the model's choice: notes/assumptions/7.md. -/
def Obligations.SynthPseudoIssuesItsRequest : Prop :=
  ∀ (s : State) (fin fout : Word32) (fb2 ss : Bool) (rest : List Action), s.pending = [] →
    s.inputs = (Pseudo.synth fin fout fb2 ss).expand ++ rest →
    ∃ s', Host.Core.run Sys2Proof.core 4 s = exec .synth s' ∧
      s'.request = { fin := fin, fout := fout, fb2 := fb2, ss := ss } ∧
      s' = { s with
        inputs := rest, a := fin, b := fout, f := s'.f, held := { s.held with a := true, b := true, f := true } }
end

