-- ==== Sys2Proof/Laws/Memory.lean ====
section
/-! SUPPORT. The clock-tree fields keep their canonical form, and so does every operation that writes them. -/

namespace Sys2Proof.Machine

theorem Memory.above_mono {lo hi : Nat} (h : lo ≤ hi) {t : Memory} (ht : Memory.above hi t = true) :
    Memory.above lo t = true := by
  induction t with
  | nil => rfl
  | cons e rest ih =>
    simp only [Memory.above, Bool.and_eq_true, decide_eq_true_eq] at ht ⊢
    exact ⟨by omega, ih ht.2⟩

theorem Memory.put_wf {id v : Nat} {rest : Memory} (hw : Memory.wf rest = true) (ha : Memory.above id rest = true) :
    Memory.wf (Memory.put id v rest) = true := by
  unfold Memory.put
  split
  · exact hw
  · next hv => simp [Memory.wf, hv, hw, ha]

theorem Memory.put_above {lo id v : Nat} {rest : Memory} (h : lo < id) (ha : Memory.above lo rest = true) :
    Memory.above lo (Memory.put id v rest) = true := by
  unfold Memory.put
  split
  · exact ha
  · simp [Memory.above, h, ha]

theorem Memory.write_above {lo id v : Nat} {t : Memory} (h : lo < id) (ha : Memory.above lo t = true) :
    Memory.above lo (Memory.write t id v) = true := by
  induction t with
  | nil => exact Memory.put_above h rfl
  | cons e rest ih =>
    have ha' := ha
    simp only [Memory.above, Bool.and_eq_true, decide_eq_true_eq] at ha'
    simp only [Memory.write]
    split
    · exact Memory.put_above h ha
    · split
      · exact Memory.put_above h ha'.2
      · simp [Memory.above, ha'.1, ih ha'.2]

/-- A write keeps the canonical form. -/
theorem Memory.write_wf {id v : Nat} {t : Memory} (h : Memory.wf t = true) :
    Memory.wf (Memory.write t id v) = true := by
  induction t with
  | nil => exact Memory.put_wf rfl rfl
  | cons e rest ih =>
    have h' := h
    simp only [Memory.wf, Bool.and_eq_true, decide_eq_true_eq] at h'
    simp only [Memory.write]
    split
    · next hlt => exact Memory.put_wf h (by
        simp only [Memory.above, Bool.and_eq_true, decide_eq_true_eq]
        exact ⟨hlt, Memory.above_mono (Nat.le_of_lt hlt) h'.1.2⟩)
    · next hge =>
      split
      · next heq => exact Memory.put_wf h'.2 (by rw [heq]; exact h'.1.2)
      · next hne =>
        have hlt : e.1 < id := by omega
        simp [Memory.wf, h'.1.1, ih h'.2, Memory.write_above hlt h'.1.2]

/-- A FieldWrite of any field keeps the clock-tree fields canonical. -/
theorem Hw.write_wf {hw : Hw} {field : HwField} {v : Nat} (h : Memory.wf hw.tree = true) :
    Memory.wf (hw.write field v).tree = true := by
  cases field <;> first | exact h | exact Memory.write_wf h

/-- An event keeps the clock-tree fields canonical. -/
theorem Event.onHw_wf {e : Event} {hw : Hw} (h : Memory.wf hw.tree = true) :
    Memory.wf (e.onHw hw).tree = true := by
  cases e <;> first | exact h | exact Hw.write_wf h | exact Hw.write_wf (Hw.write_wf h)

/-- A list of events keeps the clock-tree fields canonical. -/
theorem State.performAll_wf {s : State} {es : List Event} (h : Memory.wf s.hw.tree = true) :
    Memory.wf (s.performAll es).hw.tree = true := by
  induction es generalizing s with
  | nil => exact h
  | cons e rest ih => exact ih (s := s.perform e) (Event.onHw_wf h)

/-- The reset state's clock-tree fields are canonical. -/
theorem State.reset_tree_wf : Memory.wf State.reset.hw.tree = true := rfl

end Sys2Proof.Machine
end

