-- ==== Sys2Proof/Laws/State.lean ====
section
/-! SUPPORT. One lemma per field per named update of the state, true by rfl, so that no proof unfolds an update. -/

namespace Sys2Proof.Machine

variable (s : State)

/-! ### setR -/

@[simp] theorem State.setR_cfg (v : Word32) : (s.setR v).cfg = s.cfg := rfl
@[simp] theorem State.setR_a (v : Word32) : (s.setR v).a = s.a := rfl
@[simp] theorem State.setR_b (v : Word32) : (s.setR v).b = s.b := rfl
@[simp] theorem State.setR_f (v : Word32) : (s.setR v).f = s.f := rfl
@[simp] theorem State.setR_r (v : Word32) : (s.setR v).r = v := rfl
@[simp] theorem State.setR_mt (v : Word32) : (s.setR v).mt = s.mt := rfl
@[simp] theorem State.setR_ps (v : Word32) : (s.setR v).ps = s.ps := rfl
@[simp] theorem State.setR_st (v : Word32) : (s.setR v).st = s.st := rfl
@[simp] theorem State.setR_held (v : Word32) : (s.setR v).held = { s.held with r := true } := rfl
@[simp] theorem State.setR_sc (v : Word32) : (s.setR v).sc = s.sc := rfl
@[simp] theorem State.setR_scCur (v : Word32) : (s.setR v).scCur = s.scCur := rfl
@[simp] theorem State.setR_pllFreq (v : Word32) : (s.setR v).pllFreq = s.pllFreq := rfl
@[simp] theorem State.setR_hw (v : Word32) : (s.setR v).hw = s.hw := rfl
@[simp] theorem State.setR_pending (v : Word32) : (s.setR v).pending = s.pending := rfl
@[simp] theorem State.setR_inputs (v : Word32) : (s.setR v).inputs = s.inputs := rfl
@[simp] theorem State.setR_trace (v : Word32) : (s.setR v).trace = s.trace := rfl
@[simp] theorem State.setR_draws (v : Word32) : (s.setR v).draws = s.draws := rfl
@[simp] theorem State.setR_unheldRead (v : Word32) : (s.setR v).unheldRead = s.unheldRead := rfl

/-! ### setMT -/

@[simp] theorem State.setMT_cfg (b : Bool) : (s.setMT b).cfg = s.cfg := rfl
@[simp] theorem State.setMT_a (b : Bool) : (s.setMT b).a = s.a := rfl
@[simp] theorem State.setMT_b (b : Bool) : (s.setMT b).b = s.b := rfl
@[simp] theorem State.setMT_f (b : Bool) : (s.setMT b).f = s.f := rfl
@[simp] theorem State.setMT_r (b : Bool) : (s.setMT b).r = s.r := rfl
@[simp] theorem State.setMT_mt (b : Bool) : (s.setMT b).mt = b := rfl
@[simp] theorem State.setMT_ps (b : Bool) : (s.setMT b).ps = s.ps := rfl
@[simp] theorem State.setMT_st (b : Bool) : (s.setMT b).st = s.st := rfl
@[simp] theorem State.setMT_held (b : Bool) : (s.setMT b).held = { s.held with mt := true } := rfl
@[simp] theorem State.setMT_sc (b : Bool) : (s.setMT b).sc = s.sc := rfl
@[simp] theorem State.setMT_scCur (b : Bool) : (s.setMT b).scCur = s.scCur := rfl
@[simp] theorem State.setMT_pllFreq (b : Bool) : (s.setMT b).pllFreq = s.pllFreq := rfl
@[simp] theorem State.setMT_hw (b : Bool) : (s.setMT b).hw = s.hw := rfl
@[simp] theorem State.setMT_pending (b : Bool) : (s.setMT b).pending = s.pending := rfl
@[simp] theorem State.setMT_inputs (b : Bool) : (s.setMT b).inputs = s.inputs := rfl
@[simp] theorem State.setMT_trace (b : Bool) : (s.setMT b).trace = s.trace := rfl
@[simp] theorem State.setMT_draws (b : Bool) : (s.setMT b).draws = s.draws := rfl
@[simp] theorem State.setMT_unheldRead (b : Bool) : (s.setMT b).unheldRead = s.unheldRead := rfl

/-! ### setST -/

@[simp] theorem State.setST_cfg (c : BitVec 3) : (s.setST c).cfg = s.cfg := rfl
@[simp] theorem State.setST_a (c : BitVec 3) : (s.setST c).a = s.a := rfl
@[simp] theorem State.setST_b (c : BitVec 3) : (s.setST c).b = s.b := rfl
@[simp] theorem State.setST_f (c : BitVec 3) : (s.setST c).f = s.f := rfl
@[simp] theorem State.setST_r (c : BitVec 3) : (s.setST c).r = s.r := rfl
@[simp] theorem State.setST_mt (c : BitVec 3) : (s.setST c).mt = s.mt := rfl
@[simp] theorem State.setST_ps (c : BitVec 3) : (s.setST c).ps = s.ps := rfl
@[simp] theorem State.setST_st (c : BitVec 3) : (s.setST c).st = c := rfl
@[simp] theorem State.setST_held (c : BitVec 3) : (s.setST c).held = { s.held with st := true } := rfl
@[simp] theorem State.setST_sc (c : BitVec 3) : (s.setST c).sc = s.sc := rfl
@[simp] theorem State.setST_scCur (c : BitVec 3) : (s.setST c).scCur = s.scCur := rfl
@[simp] theorem State.setST_pllFreq (c : BitVec 3) : (s.setST c).pllFreq = s.pllFreq := rfl
@[simp] theorem State.setST_hw (c : BitVec 3) : (s.setST c).hw = s.hw := rfl
@[simp] theorem State.setST_pending (c : BitVec 3) : (s.setST c).pending = s.pending := rfl
@[simp] theorem State.setST_inputs (c : BitVec 3) : (s.setST c).inputs = s.inputs := rfl
@[simp] theorem State.setST_trace (c : BitVec 3) : (s.setST c).trace = s.trace := rfl
@[simp] theorem State.setST_draws (c : BitVec 3) : (s.setST c).draws = s.draws := rfl
@[simp] theorem State.setST_unheldRead (c : BitVec 3) : (s.setST c).unheldRead = s.unheldRead := rfl

/-! ### setPS -/

@[simp] theorem State.setPS_cfg (p : PSet) : (s.setPS p).cfg = s.cfg := rfl
@[simp] theorem State.setPS_a (p : PSet) : (s.setPS p).a = s.a := rfl
@[simp] theorem State.setPS_b (p : PSet) : (s.setPS p).b = s.b := rfl
@[simp] theorem State.setPS_f (p : PSet) : (s.setPS p).f = s.f := rfl
@[simp] theorem State.setPS_r (p : PSet) : (s.setPS p).r = s.r := rfl
@[simp] theorem State.setPS_mt (p : PSet) : (s.setPS p).mt = s.mt := rfl
@[simp] theorem State.setPS_ps (p : PSet) : (s.setPS p).ps = p := rfl
@[simp] theorem State.setPS_st (p : PSet) : (s.setPS p).st = s.st := rfl
@[simp] theorem State.setPS_held (p : PSet) : (s.setPS p).held = { s.held with ps := true } := rfl
@[simp] theorem State.setPS_sc (p : PSet) : (s.setPS p).sc = s.sc := rfl
@[simp] theorem State.setPS_scCur (p : PSet) : (s.setPS p).scCur = s.scCur := rfl
@[simp] theorem State.setPS_pllFreq (p : PSet) : (s.setPS p).pllFreq = s.pllFreq := rfl
@[simp] theorem State.setPS_hw (p : PSet) : (s.setPS p).hw = s.hw := rfl
@[simp] theorem State.setPS_pending (p : PSet) : (s.setPS p).pending = s.pending := rfl
@[simp] theorem State.setPS_inputs (p : PSet) : (s.setPS p).inputs = s.inputs := rfl
@[simp] theorem State.setPS_trace (p : PSet) : (s.setPS p).trace = s.trace := rfl
@[simp] theorem State.setPS_draws (p : PSet) : (s.setPS p).draws = s.draws := rfl
@[simp] theorem State.setPS_unheldRead (p : PSet) : (s.setPS p).unheldRead = s.unheldRead := rfl

/-! ### setRFreq -/

@[simp] theorem State.setRFreq_cfg (v : Nat) : (s.setRFreq v).cfg = s.cfg := rfl
@[simp] theorem State.setRFreq_a (v : Nat) : (s.setRFreq v).a = s.a := rfl
@[simp] theorem State.setRFreq_b (v : Nat) : (s.setRFreq v).b = s.b := rfl
@[simp] theorem State.setRFreq_f (v : Nat) : (s.setRFreq v).f = s.f := rfl
@[simp] theorem State.setRFreq_r (v : Nat) : (s.setRFreq v).r = freqWord s.draws v := rfl
@[simp] theorem State.setRFreq_mt (v : Nat) : (s.setRFreq v).mt = s.mt := rfl
@[simp] theorem State.setRFreq_ps (v : Nat) : (s.setRFreq v).ps = s.ps := rfl
@[simp] theorem State.setRFreq_st (v : Nat) : (s.setRFreq v).st = s.st := rfl
@[simp] theorem State.setRFreq_held (v : Nat) : (s.setRFreq v).held = { s.held with r := true } := rfl
@[simp] theorem State.setRFreq_sc (v : Nat) : (s.setRFreq v).sc = s.sc := rfl
@[simp] theorem State.setRFreq_scCur (v : Nat) : (s.setRFreq v).scCur = s.scCur := rfl
@[simp] theorem State.setRFreq_pllFreq (v : Nat) : (s.setRFreq v).pllFreq = s.pllFreq := rfl
@[simp] theorem State.setRFreq_hw (v : Nat) : (s.setRFreq v).hw = s.hw := rfl
@[simp] theorem State.setRFreq_pending (v : Nat) : (s.setRFreq v).pending = s.pending := rfl
@[simp] theorem State.setRFreq_inputs (v : Nat) : (s.setRFreq v).inputs = s.inputs := rfl
@[simp] theorem State.setRFreq_trace (v : Nat) : (s.setRFreq v).trace = s.trace := rfl
@[simp] theorem State.setRFreq_draws (v : Nat) : (s.setRFreq v).draws = s.draws + freqDraws v := rfl
@[simp] theorem State.setRFreq_unheldRead (v : Nat) : (s.setRFreq v).unheldRead = s.unheldRead := rfl

/-! ### setPllFreq -/

@[simp] theorem State.setPllFreq_cfg (v : Nat) : (s.setPllFreq v).cfg = s.cfg := rfl
@[simp] theorem State.setPllFreq_a (v : Nat) : (s.setPllFreq v).a = s.a := rfl
@[simp] theorem State.setPllFreq_b (v : Nat) : (s.setPllFreq v).b = s.b := rfl
@[simp] theorem State.setPllFreq_f (v : Nat) : (s.setPllFreq v).f = s.f := rfl
@[simp] theorem State.setPllFreq_r (v : Nat) : (s.setPllFreq v).r = s.r := rfl
@[simp] theorem State.setPllFreq_mt (v : Nat) : (s.setPllFreq v).mt = s.mt := rfl
@[simp] theorem State.setPllFreq_ps (v : Nat) : (s.setPllFreq v).ps = s.ps := rfl
@[simp] theorem State.setPllFreq_st (v : Nat) : (s.setPllFreq v).st = s.st := rfl
@[simp] theorem State.setPllFreq_held (v : Nat) : (s.setPllFreq v).held = s.held := rfl
@[simp] theorem State.setPllFreq_sc (v : Nat) : (s.setPllFreq v).sc = s.sc := rfl
@[simp] theorem State.setPllFreq_scCur (v : Nat) : (s.setPllFreq v).scCur = s.scCur := rfl
@[simp] theorem State.setPllFreq_pllFreq (v : Nat) : (s.setPllFreq v).pllFreq = freqWord s.draws v := rfl
@[simp] theorem State.setPllFreq_hw (v : Nat) : (s.setPllFreq v).hw = s.hw := rfl
@[simp] theorem State.setPllFreq_pending (v : Nat) : (s.setPllFreq v).pending = s.pending := rfl
@[simp] theorem State.setPllFreq_inputs (v : Nat) : (s.setPllFreq v).inputs = s.inputs := rfl
@[simp] theorem State.setPllFreq_trace (v : Nat) : (s.setPllFreq v).trace = s.trace := rfl
@[simp] theorem State.setPllFreq_draws (v : Nat) : (s.setPllFreq v).draws = s.draws + freqDraws v := rfl
@[simp] theorem State.setPllFreq_unheldRead (v : Nat) : (s.setPllFreq v).unheldRead = s.unheldRead := rfl

/-! ### succeed -/

@[simp] theorem State.succeed_cfg : (s.succeed).cfg = s.cfg := rfl
@[simp] theorem State.succeed_a : (s.succeed).a = s.a := rfl
@[simp] theorem State.succeed_b : (s.succeed).b = s.b := rfl
@[simp] theorem State.succeed_f : (s.succeed).f = s.f := rfl
@[simp] theorem State.succeed_r : (s.succeed).r = s.r := rfl
@[simp] theorem State.succeed_mt : (s.succeed).mt = s.mt := rfl
@[simp] theorem State.succeed_ps : (s.succeed).ps = s.ps := rfl
@[simp] theorem State.succeed_st : (s.succeed).st = successCode := rfl
@[simp] theorem State.succeed_held : (s.succeed).held = { s.held with st := true } := rfl
@[simp] theorem State.succeed_sc : (s.succeed).sc = s.sc := rfl
@[simp] theorem State.succeed_scCur : (s.succeed).scCur = s.scCur := rfl
@[simp] theorem State.succeed_pllFreq : (s.succeed).pllFreq = s.pllFreq := rfl
@[simp] theorem State.succeed_hw : (s.succeed).hw = s.hw := rfl
@[simp] theorem State.succeed_pending : (s.succeed).pending = s.pending := rfl
@[simp] theorem State.succeed_inputs : (s.succeed).inputs = s.inputs := rfl
@[simp] theorem State.succeed_trace : (s.succeed).trace = s.trace := rfl
@[simp] theorem State.succeed_draws : (s.succeed).draws = s.draws := rfl
@[simp] theorem State.succeed_unheldRead : (s.succeed).unheldRead = s.unheldRead := rfl

/-! ### fail -/

@[simp] theorem State.fail_cfg (k : ErrKind) : (s.fail k).cfg = s.cfg := rfl
@[simp] theorem State.fail_a (k : ErrKind) : (s.fail k).a = s.a := rfl
@[simp] theorem State.fail_b (k : ErrKind) : (s.fail k).b = s.b := rfl
@[simp] theorem State.fail_f (k : ErrKind) : (s.fail k).f = s.f := rfl
@[simp] theorem State.fail_r (k : ErrKind) : (s.fail k).r = s.r := rfl
@[simp] theorem State.fail_mt (k : ErrKind) : (s.fail k).mt = s.mt := rfl
@[simp] theorem State.fail_ps (k : ErrKind) : (s.fail k).ps = s.ps := rfl
@[simp] theorem State.fail_st (k : ErrKind) : (s.fail k).st = k.code := rfl
@[simp] theorem State.fail_held (k : ErrKind) : (s.fail k).held = { s.held with st := true } := rfl
@[simp] theorem State.fail_sc (k : ErrKind) : (s.fail k).sc = s.sc := rfl
@[simp] theorem State.fail_scCur (k : ErrKind) : (s.fail k).scCur = s.scCur := rfl
@[simp] theorem State.fail_pllFreq (k : ErrKind) : (s.fail k).pllFreq = s.pllFreq := rfl
@[simp] theorem State.fail_hw (k : ErrKind) : (s.fail k).hw = s.hw := rfl
@[simp] theorem State.fail_pending (k : ErrKind) : (s.fail k).pending = s.pending := rfl
@[simp] theorem State.fail_inputs (k : ErrKind) : (s.fail k).inputs = s.inputs := rfl
@[simp] theorem State.fail_trace (k : ErrKind) : (s.fail k).trace = s.trace := rfl
@[simp] theorem State.fail_draws (k : ErrKind) : (s.fail k).draws = s.draws := rfl
@[simp] theorem State.fail_unheldRead (k : ErrKind) : (s.fail k).unheldRead = s.unheldRead := rfl

/-! ### record -/

@[simp] theorem State.record_cfg (e : Event) : (s.record e).cfg = s.cfg := rfl
@[simp] theorem State.record_a (e : Event) : (s.record e).a = s.a := rfl
@[simp] theorem State.record_b (e : Event) : (s.record e).b = s.b := rfl
@[simp] theorem State.record_f (e : Event) : (s.record e).f = s.f := rfl
@[simp] theorem State.record_r (e : Event) : (s.record e).r = s.r := rfl
@[simp] theorem State.record_mt (e : Event) : (s.record e).mt = s.mt := rfl
@[simp] theorem State.record_ps (e : Event) : (s.record e).ps = s.ps := rfl
@[simp] theorem State.record_st (e : Event) : (s.record e).st = s.st := rfl
@[simp] theorem State.record_held (e : Event) : (s.record e).held = s.held := rfl
@[simp] theorem State.record_sc (e : Event) : (s.record e).sc = s.sc := rfl
@[simp] theorem State.record_scCur (e : Event) : (s.record e).scCur = s.scCur := rfl
@[simp] theorem State.record_pllFreq (e : Event) : (s.record e).pllFreq = s.pllFreq := rfl
@[simp] theorem State.record_hw (e : Event) : (s.record e).hw = s.hw := rfl
@[simp] theorem State.record_pending (e : Event) : (s.record e).pending = s.pending := rfl
@[simp] theorem State.record_inputs (e : Event) : (s.record e).inputs = s.inputs := rfl
@[simp] theorem State.record_trace (e : Event) : (s.record e).trace = s.trace ++ [e] := rfl
@[simp] theorem State.record_draws (e : Event) : (s.record e).draws = s.draws := rfl
@[simp] theorem State.record_unheldRead (e : Event) : (s.record e).unheldRead = s.unheldRead := rfl

/-! ### perform -/

@[simp] theorem State.perform_cfg (e : Event) : (s.perform e).cfg = s.cfg := rfl
@[simp] theorem State.perform_a (e : Event) : (s.perform e).a = s.a := rfl
@[simp] theorem State.perform_b (e : Event) : (s.perform e).b = s.b := rfl
@[simp] theorem State.perform_f (e : Event) : (s.perform e).f = s.f := rfl
@[simp] theorem State.perform_r (e : Event) : (s.perform e).r = s.r := rfl
@[simp] theorem State.perform_mt (e : Event) : (s.perform e).mt = s.mt := rfl
@[simp] theorem State.perform_ps (e : Event) : (s.perform e).ps = s.ps := rfl
@[simp] theorem State.perform_st (e : Event) : (s.perform e).st = s.st := rfl
@[simp] theorem State.perform_held (e : Event) : (s.perform e).held = s.held := rfl
@[simp] theorem State.perform_sc (e : Event) : (s.perform e).sc = s.sc := rfl
@[simp] theorem State.perform_scCur (e : Event) : (s.perform e).scCur = s.scCur := rfl
@[simp] theorem State.perform_pllFreq (e : Event) : (s.perform e).pllFreq = s.pllFreq := rfl
@[simp] theorem State.perform_hw (e : Event) : (s.perform e).hw = e.onHw s.hw := rfl
@[simp] theorem State.perform_pending (e : Event) : (s.perform e).pending = s.pending := rfl
@[simp] theorem State.perform_inputs (e : Event) : (s.perform e).inputs = s.inputs := rfl
@[simp] theorem State.perform_trace (e : Event) : (s.perform e).trace = s.trace ++ [e] := rfl
@[simp] theorem State.perform_draws (e : Event) : (s.perform e).draws = s.draws := rfl
@[simp] theorem State.perform_unheldRead (e : Event) : (s.perform e).unheldRead = s.unheldRead := rfl

/-! ### noteOperands -/

@[simp] theorem State.noteOperands_cfg (i : Instr) : (s.noteOperands i).cfg = s.cfg := rfl
@[simp] theorem State.noteOperands_a (i : Instr) : (s.noteOperands i).a = s.a := rfl
@[simp] theorem State.noteOperands_b (i : Instr) : (s.noteOperands i).b = s.b := rfl
@[simp] theorem State.noteOperands_f (i : Instr) : (s.noteOperands i).f = s.f := rfl
@[simp] theorem State.noteOperands_r (i : Instr) : (s.noteOperands i).r = s.r := rfl
@[simp] theorem State.noteOperands_mt (i : Instr) : (s.noteOperands i).mt = s.mt := rfl
@[simp] theorem State.noteOperands_ps (i : Instr) : (s.noteOperands i).ps = s.ps := rfl
@[simp] theorem State.noteOperands_st (i : Instr) : (s.noteOperands i).st = s.st := rfl
@[simp] theorem State.noteOperands_held (i : Instr) : (s.noteOperands i).held = s.held := rfl
@[simp] theorem State.noteOperands_sc (i : Instr) : (s.noteOperands i).sc = s.sc := rfl
@[simp] theorem State.noteOperands_scCur (i : Instr) : (s.noteOperands i).scCur = s.scCur := rfl
@[simp] theorem State.noteOperands_pllFreq (i : Instr) : (s.noteOperands i).pllFreq = s.pllFreq := rfl
@[simp] theorem State.noteOperands_hw (i : Instr) : (s.noteOperands i).hw = s.hw := rfl
@[simp] theorem State.noteOperands_pending (i : Instr) : (s.noteOperands i).pending = s.pending := rfl
@[simp] theorem State.noteOperands_inputs (i : Instr) : (s.noteOperands i).inputs = s.inputs := rfl
@[simp] theorem State.noteOperands_trace (i : Instr) : (s.noteOperands i).trace = s.trace := rfl
@[simp] theorem State.noteOperands_draws (i : Instr) : (s.noteOperands i).draws = s.draws := rfl
@[simp] theorem State.noteOperands_unheldRead (i : Instr) :
    (s.noteOperands i).unheldRead = (s.unheldRead || !s.operandsHeld i) := rfl

/-! ### deliver -/

@[simp] theorem State.deliver_cfg (p : PSet) (d : Nat) : (s.deliver p d).cfg = s.cfg := rfl
@[simp] theorem State.deliver_a (p : PSet) (d : Nat) : (s.deliver p d).a = s.a := rfl
@[simp] theorem State.deliver_b (p : PSet) (d : Nat) : (s.deliver p d).b = s.b := rfl
@[simp] theorem State.deliver_f (p : PSet) (d : Nat) : (s.deliver p d).f = s.f := rfl
@[simp] theorem State.deliver_r (p : PSet) (d : Nat) : (s.deliver p d).r = s.r := rfl
@[simp] theorem State.deliver_mt (p : PSet) (d : Nat) : (s.deliver p d).mt = s.mt := rfl
@[simp] theorem State.deliver_ps (p : PSet) (d : Nat) : (s.deliver p d).ps = p := rfl
@[simp] theorem State.deliver_st (p : PSet) (d : Nat) : (s.deliver p d).st = successCode := rfl
@[simp] theorem State.deliver_held (p : PSet) (d : Nat) :
    (s.deliver p d).held = { s.held with ps := true, st := true } := rfl
@[simp] theorem State.deliver_sc (p : PSet) (d : Nat) : (s.deliver p d).sc = s.sc := rfl
@[simp] theorem State.deliver_scCur (p : PSet) (d : Nat) : (s.deliver p d).scCur = s.scCur := rfl
@[simp] theorem State.deliver_pllFreq (p : PSet) (d : Nat) : (s.deliver p d).pllFreq = s.pllFreq := rfl
@[simp] theorem State.deliver_hw (p : PSet) (d : Nat) : (s.deliver p d).hw = s.hw := rfl
@[simp] theorem State.deliver_pending (p : PSet) (d : Nat) : (s.deliver p d).pending = s.pending := rfl
@[simp] theorem State.deliver_inputs (p : PSet) (d : Nat) : (s.deliver p d).inputs = s.inputs := rfl
@[simp] theorem State.deliver_trace (p : PSet) (d : Nat) : (s.deliver p d).trace = s.trace := rfl
@[simp] theorem State.deliver_draws (p : PSet) (d : Nat) : (s.deliver p d).draws = s.draws + d := rfl
@[simp] theorem State.deliver_unheldRead (p : PSet) (d : Nat) : (s.deliver p d).unheldRead = s.unheldRead := rfl

/-! ### withMemo -/

@[simp] theorem State.withMemo_cfg (m : Memo) : (s.withMemo m).cfg = s.cfg := rfl
@[simp] theorem State.withMemo_a (m : Memo) : (s.withMemo m).a = s.a := rfl
@[simp] theorem State.withMemo_b (m : Memo) : (s.withMemo m).b = s.b := rfl
@[simp] theorem State.withMemo_f (m : Memo) : (s.withMemo m).f = s.f := rfl
@[simp] theorem State.withMemo_r (m : Memo) : (s.withMemo m).r = s.r := rfl
@[simp] theorem State.withMemo_mt (m : Memo) : (s.withMemo m).mt = s.mt := rfl
@[simp] theorem State.withMemo_ps (m : Memo) : (s.withMemo m).ps = s.ps := rfl
@[simp] theorem State.withMemo_st (m : Memo) : (s.withMemo m).st = s.st := rfl
@[simp] theorem State.withMemo_held (m : Memo) : (s.withMemo m).held = s.held := rfl
@[simp] theorem State.withMemo_sc (m : Memo) : (s.withMemo m).sc = s.sc := rfl
@[simp] theorem State.withMemo_scCur (m : Memo) : (s.withMemo m).scCur = s.scCur := rfl
@[simp] theorem State.withMemo_pllFreq (m : Memo) : (s.withMemo m).pllFreq = m.pllFreq := rfl
@[simp] theorem State.withMemo_hw (m : Memo) : (s.withMemo m).hw = s.hw := rfl
@[simp] theorem State.withMemo_pending (m : Memo) : (s.withMemo m).pending = s.pending := rfl
@[simp] theorem State.withMemo_inputs (m : Memo) : (s.withMemo m).inputs = s.inputs := rfl
@[simp] theorem State.withMemo_trace (m : Memo) : (s.withMemo m).trace = s.trace := rfl
@[simp] theorem State.withMemo_draws (m : Memo) : (s.withMemo m).draws = m.draws := rfl
@[simp] theorem State.withMemo_unheldRead (m : Memo) : (s.withMemo m).unheldRead = s.unheldRead := rfl

/-! ### storeRate -/

@[simp] theorem State.storeRate_cfg (v : Nat) : (s.storeRate v).cfg = s.cfg := rfl
@[simp] theorem State.storeRate_a (v : Nat) : (s.storeRate v).a = s.a := rfl
@[simp] theorem State.storeRate_b (v : Nat) : (s.storeRate v).b = s.b := rfl
@[simp] theorem State.storeRate_f (v : Nat) : (s.storeRate v).f = s.f := rfl
@[simp] theorem State.storeRate_r (v : Nat) : (s.storeRate v).r = s.r := rfl
@[simp] theorem State.storeRate_mt (v : Nat) : (s.storeRate v).mt = s.mt := rfl
@[simp] theorem State.storeRate_ps (v : Nat) : (s.storeRate v).ps = s.ps := rfl
@[simp] theorem State.storeRate_st (v : Nat) : (s.storeRate v).st = s.st := rfl
@[simp] theorem State.storeRate_held (v : Nat) : (s.storeRate v).held = s.held := rfl
@[simp] theorem State.storeRate_sc (v : Nat) : (s.storeRate v).sc = s.sc := rfl
@[simp] theorem State.storeRate_scCur (v : Nat) : (s.storeRate v).scCur = s.scCur := rfl
@[simp] theorem State.storeRate_pllFreq (v : Nat) : (s.storeRate v).pllFreq = freqWord s.draws v := rfl
@[simp] theorem State.storeRate_hw (v : Nat) : (s.storeRate v).hw = s.hw := rfl
@[simp] theorem State.storeRate_pending (v : Nat) : (s.storeRate v).pending = s.pending := rfl
@[simp] theorem State.storeRate_inputs (v : Nat) : (s.storeRate v).inputs = s.inputs := rfl
@[simp] theorem State.storeRate_trace (v : Nat) :
    (s.storeRate v).trace = s.trace ++ [.memoWrite (freqWord s.draws v)] := rfl
@[simp] theorem State.storeRate_draws (v : Nat) : (s.storeRate v).draws = s.draws + freqDraws v := rfl
@[simp] theorem State.storeRate_unheldRead (v : Nat) : (s.storeRate v).unheldRead = s.unheldRead := rfl

/-! ### withPending -/

@[simp] theorem State.withPending_cfg (l : List ApplyStep) : (s.withPending l).cfg = s.cfg := rfl
@[simp] theorem State.withPending_a (l : List ApplyStep) : (s.withPending l).a = s.a := rfl
@[simp] theorem State.withPending_b (l : List ApplyStep) : (s.withPending l).b = s.b := rfl
@[simp] theorem State.withPending_f (l : List ApplyStep) : (s.withPending l).f = s.f := rfl
@[simp] theorem State.withPending_r (l : List ApplyStep) : (s.withPending l).r = s.r := rfl
@[simp] theorem State.withPending_mt (l : List ApplyStep) : (s.withPending l).mt = s.mt := rfl
@[simp] theorem State.withPending_ps (l : List ApplyStep) : (s.withPending l).ps = s.ps := rfl
@[simp] theorem State.withPending_st (l : List ApplyStep) : (s.withPending l).st = s.st := rfl
@[simp] theorem State.withPending_held (l : List ApplyStep) : (s.withPending l).held = s.held := rfl
@[simp] theorem State.withPending_sc (l : List ApplyStep) : (s.withPending l).sc = s.sc := rfl
@[simp] theorem State.withPending_scCur (l : List ApplyStep) : (s.withPending l).scCur = s.scCur := rfl
@[simp] theorem State.withPending_pllFreq (l : List ApplyStep) : (s.withPending l).pllFreq = s.pllFreq := rfl
@[simp] theorem State.withPending_hw (l : List ApplyStep) : (s.withPending l).hw = s.hw := rfl
@[simp] theorem State.withPending_pending (l : List ApplyStep) : (s.withPending l).pending = l := rfl
@[simp] theorem State.withPending_inputs (l : List ApplyStep) : (s.withPending l).inputs = s.inputs := rfl
@[simp] theorem State.withPending_trace (l : List ApplyStep) : (s.withPending l).trace = s.trace := rfl
@[simp] theorem State.withPending_draws (l : List ApplyStep) : (s.withPending l).draws = s.draws := rfl
@[simp] theorem State.withPending_unheldRead (l : List ApplyStep) : (s.withPending l).unheldRead = s.unheldRead := rfl

/-! ### dropInput -/

@[simp] theorem State.dropInput_cfg : (s.dropInput).cfg = s.cfg := rfl
@[simp] theorem State.dropInput_a : (s.dropInput).a = s.a := rfl
@[simp] theorem State.dropInput_b : (s.dropInput).b = s.b := rfl
@[simp] theorem State.dropInput_f : (s.dropInput).f = s.f := rfl
@[simp] theorem State.dropInput_r : (s.dropInput).r = s.r := rfl
@[simp] theorem State.dropInput_mt : (s.dropInput).mt = s.mt := rfl
@[simp] theorem State.dropInput_ps : (s.dropInput).ps = s.ps := rfl
@[simp] theorem State.dropInput_st : (s.dropInput).st = s.st := rfl
@[simp] theorem State.dropInput_held : (s.dropInput).held = s.held := rfl
@[simp] theorem State.dropInput_sc : (s.dropInput).sc = s.sc := rfl
@[simp] theorem State.dropInput_scCur : (s.dropInput).scCur = s.scCur := rfl
@[simp] theorem State.dropInput_pllFreq : (s.dropInput).pllFreq = s.pllFreq := rfl
@[simp] theorem State.dropInput_hw : (s.dropInput).hw = s.hw := rfl
@[simp] theorem State.dropInput_pending : (s.dropInput).pending = s.pending := rfl
@[simp] theorem State.dropInput_inputs : (s.dropInput).inputs = s.inputs.tail := rfl
@[simp] theorem State.dropInput_trace : (s.dropInput).trace = s.trace := rfl
@[simp] theorem State.dropInput_draws : (s.dropInput).draws = s.draws := rfl
@[simp] theorem State.dropInput_unheldRead : (s.dropInput).unheldRead = s.unheldRead := rfl

/-! ### environment -/

@[simp] theorem State.environment_cfg (x : HwField) (v : Nat) : (s.environment x v).cfg = s.cfg := rfl
@[simp] theorem State.environment_a (x : HwField) (v : Nat) : (s.environment x v).a = s.a := rfl
@[simp] theorem State.environment_b (x : HwField) (v : Nat) : (s.environment x v).b = s.b := rfl
@[simp] theorem State.environment_f (x : HwField) (v : Nat) : (s.environment x v).f = s.f := rfl
@[simp] theorem State.environment_r (x : HwField) (v : Nat) : (s.environment x v).r = s.r := rfl
@[simp] theorem State.environment_mt (x : HwField) (v : Nat) : (s.environment x v).mt = s.mt := rfl
@[simp] theorem State.environment_ps (x : HwField) (v : Nat) : (s.environment x v).ps = s.ps := rfl
@[simp] theorem State.environment_st (x : HwField) (v : Nat) : (s.environment x v).st = s.st := rfl
@[simp] theorem State.environment_held (x : HwField) (v : Nat) : (s.environment x v).held = s.held := rfl
@[simp] theorem State.environment_sc (x : HwField) (v : Nat) : (s.environment x v).sc = s.sc := rfl
@[simp] theorem State.environment_scCur (x : HwField) (v : Nat) : (s.environment x v).scCur = s.scCur := rfl
@[simp] theorem State.environment_pllFreq (x : HwField) (v : Nat) : (s.environment x v).pllFreq = s.pllFreq := rfl
@[simp] theorem State.environment_hw (x : HwField) (v : Nat) : (s.environment x v).hw = s.hw.write x v := rfl
@[simp] theorem State.environment_pending (x : HwField) (v : Nat) : (s.environment x v).pending = s.pending := rfl
@[simp] theorem State.environment_inputs (x : HwField) (v : Nat) : (s.environment x v).inputs = s.inputs := rfl
@[simp] theorem State.environment_trace (x : HwField) (v : Nat) : (s.environment x v).trace = s.trace := rfl
@[simp] theorem State.environment_draws (x : HwField) (v : Nat) : (s.environment x v).draws = s.draws := rfl
@[simp] theorem State.environment_unheldRead (x : HwField) (v : Nat) :
    (s.environment x v).unheldRead = s.unheldRead := rfl

end Sys2Proof.Machine
end

