-- ==== Sys2Proof/Laws/Ops.lean ====
section
/-! SUPPORT. For each shared operation one lemma that says once everything it can do. -/

namespace Sys2Proof.Machine

/-! ### Frequencies in 32 bits -/

theorem freqWord_of_lt {draw v : Nat} (h : v < freqLimit) : freqWord draw v = BitVec.ofNat 32 v := if_pos h

theorem freqWord_of_ge {draw v : Nat} (h : ¬ v < freqLimit) : freqWord draw v = Config.freeBits 32 draw := if_neg h

theorem freqWord_toNat {draw v : Nat} (h : v < freqLimit) : (freqWord draw v).toNat = v := by
  rw [freqWord_of_lt h, BitVec.toNat_ofNat]
  exact Nat.mod_eq_of_lt h

theorem freqDraws_of_lt {v : Nat} (h : v < freqLimit) : freqDraws v = 0 := if_pos h

/-! ### Events in order -/

@[simp] theorem State.performAll_nil (s : State) : s.performAll [] = s := rfl

@[simp] theorem State.performAll_cons (s : State) (e : Event) (es : List Event) :
    s.performAll (e :: es) = (s.perform e).performAll es := rfl

theorem State.performAll_append (s : State) (es fs : List Event) :
    s.performAll (es ++ fs) = (s.performAll es).performAll fs := List.foldl_append

/-- Everything a list of events can do: `HW` takes their writes in order, the record grows by them, nothing else
changes. -/
theorem State.performAll_eq (s : State) (es : List Event) :
    s.performAll es = { s with hw := es.foldl (fun h e => e.onHw h) s.hw, trace := s.trace ++ es } := by
  induction es generalizing s with
  | nil => simp
  | cons e rest ih => rw [State.performAll_cons, ih]; simp [State.perform]

/-! ### The codec commands -/

/-- ENC.f answers a next state with the code in `R`, whatever the operand. -/
theorem encodeCommand_eq (fam : Family) (s : State) :
    encodeCommand fam s =
      .next
        { s with
          r := BitVec.ofNat 32 (encodeOrDraw s.cfg fam s.draws s.a.toNat)
          st := successCode
          held := { s.held with r := true, st := true }
          draws := s.draws + encodeDraws fam s.a.toNat } := rfl

/-- DEC.f answers a next state with the raw value or 0 in `R` and whether it matched in `MT`. -/
theorem decodeCommand_eq (fam : Family) (s : State) :
    decodeCommand fam s =
      .next
        { s with
          r := BitVec.ofNat 32 ((decodeDivider s.cfg fam s.a.toNat).getD 0)
          mt := (decodeDivider s.cfg fam s.a.toNat).isSome
          st := successCode
          held := { s.held with r := true, mt := true, st := true } } := rfl

theorem encodeDivider_zero (cfg : Config) (fam : Family) :
    encodeDivider cfg fam 0 = (cfg.family fam).special0 := rfl

theorem encodeDivider_one (cfg : Config) (fam : Family) :
    encodeDivider cfg fam 1 = (cfg.family fam).special1 := rfl

theorem encodeDivider_two (cfg : Config) (fam : Family) :
    encodeDivider cfg fam 2 = (cfg.family fam).special2 := rfl

theorem encodeDivider_of_ge (cfg : Config) (fam : Family) {raw : Nat} (h : 3 ≤ raw) :
    encodeDivider cfg fam raw = lfsrIter (cfg.family fam) (fam.maxRaw - raw) (cfg.family fam).seed := by
  simp [encodeDivider, show raw ≠ 0 by omega, show raw ≠ 1 by omega, show raw ≠ 2 by omega]

theorem lfsrIter_succ (c : FamilyCfg) (k x : Nat) : lfsrIter c (k + 1) x = lfsrStep c (lfsrIter c k x) := rfl

theorem lfsrIter_step (c : FamilyCfg) (k x : Nat) : lfsrIter c k (lfsrStep c x) = lfsrIter c (k + 1) x := by
  induction k with
  | zero => rfl
  | succ k ih => exact congrArg (lfsrStep c) ih

/-- Everything the search can answer: a counter whose pattern is the code, and no earlier pattern was. -/
theorem orbitSearch_some (c : FamilyCfg) (code : Nat) {k x r : Nat} (h : orbitSearch c code k x = some r) :
    ∃ j, j < k ∧ r = k - j + 2 ∧ lfsrIter c j x = code ∧ ∀ i < j, lfsrIter c i x ≠ code := by
  induction k generalizing x with
  | zero => simp [orbitSearch] at h
  | succ k ih =>
    simp only [orbitSearch] at h
    split at h
    · next hx =>
      exact ⟨0, Nat.succ_pos k, by simpa using h.symm, hx, fun i hi => absurd hi (Nat.not_lt_zero i)⟩
    · next hx =>
      obtain ⟨j, hj, hr, hc, hn⟩ := ih h
      refine ⟨j + 1, by omega, by omega, by rw [← lfsrIter_step]; exact hc, ?_⟩
      intro i hi
      cases i with
      | zero => exact hx
      | succ i => rw [← lfsrIter_step]; exact hn i (by omega)

/-- The search misses exactly the codes that no tested pattern equals. -/
theorem orbitSearch_none (c : FamilyCfg) (code : Nat) (k x : Nat) :
    orbitSearch c code k x = none ↔ ∀ i < k, lfsrIter c i x ≠ code := by
  induction k generalizing x with
  | zero => simp [orbitSearch]
  | succ k ih =>
    simp only [orbitSearch]
    split
    · next hx =>
      constructor
      · intro h; cases h
      · intro h; exact absurd hx (h 0 (Nat.succ_pos k))
    · next hx =>
      rw [ih]
      constructor
      · intro h i hi
        cases i with
        | zero => exact hx
        | succ i => rw [← lfsrIter_step]; exact h i (by omega)
      · intro h i hi
        rw [lfsrIter_step]; exact h (i + 1) (by omega)

/-! ### Synthesis -/

/-- Everything SYNTH can answer. -/
theorem execSynth_cases (s : State) :
    (∃ raw, synthRaw s.cfg s.request = .ok raw ∧
        execSynth s = .next (s.deliver (pack s.cfg raw s.draws) (packDraws s.cfg raw))) ∨
      (∃ kind, synthRaw s.cfg s.request = .err kind ∧ execSynth s = .next (s.fail kind)) ∨
      (synthRaw s.cfg s.request = .ssPreDividerZero ∧ execSynth s = .refused .ssPreDividerZero) := by
  unfold execSynth
  cases synthRaw s.cfg s.request with
  | ok raw => exact .inl ⟨raw, rfl, rfl⟩
  | err kind => exact .inr (.inl ⟨kind, rfl, rfl⟩)
  | ssPreDividerZero => exact .inr (.inr ⟨rfl, rfl⟩)

/-- The slot the cache finds is one of its slots, is valid, and has the key. -/
theorem cacheFind_some {sc : List Slot} {k : Key} {e : Slot} (h : cacheFind sc k = some e) :
    e ∈ sc ∧ e.valid = true ∧ e.key = k := by
  have hp := List.find?_some h
  simp only [Slot.hits, Bool.and_eq_true, decide_eq_true_eq] at hp
  exact ⟨List.mem_of_find?_eq_some h, hp⟩

/-- The cache misses exactly when no valid slot has the key. -/
theorem cacheFind_none {sc : List Slot} {k : Key} :
    cacheFind sc k = none ↔ ∀ e ∈ sc, e.valid = true → e.key ≠ k := by
  simp [cacheFind, Slot.hits]

/-- Everything CSYNTH can answer. -/
theorem execCsynth_cases (s : State) :
    (∃ e, cacheFind s.sc s.request = some e ∧ execCsynth s = .next (s.deliver e.val 0)) ∨
      (cacheFind s.sc s.request = none ∧ execCsynth s = cacheMiss s) := by
  unfold execCsynth
  cases cacheFind s.sc s.request with
  | some e => exact .inl ⟨e, rfl, rfl⟩
  | none => exact .inr ⟨rfl, rfl⟩

/-! ### The steps of APPLY -/

/-- The memo is refused exactly where the PLL input does not resolve. -/
theorem performStep_memo_of_some {s : State} {fin : Nat} (h : pllInput s.cfg s.hw = some fin) :
    performStep .memo s = .next ((s.performAll (inputReads s)).storeRate (rateOf s.cfg fin s.ps)) := by
  simp [performStep, h]

theorem performStep_memo_of_none {s : State} (h : pllInput s.cfg s.hw = none) :
    performStep .memo s = .refused .inadmissibleConfig := by simp [performStep, h]

/-- Everything one step of APPLY can answer: a next state with the same configuration, operands, cache, inputs and steps
still to do, or the refusal of the memo. -/
theorem performStep_cases (x : ApplyStep) (s : State) :
    (x = .memo ∧ pllInput s.cfg s.hw = none ∧ performStep x s = .refused .inadmissibleConfig) ∨
      ∃ t, performStep x s = .next t ∧ t.cfg = s.cfg ∧ t.a = s.a ∧ t.b = s.b ∧ t.f = s.f ∧ t.r = s.r ∧ t.mt = s.mt ∧
        t.ps = s.ps ∧ t.sc = s.sc ∧ t.scCur = s.scCur ∧ t.pending = s.pending ∧ t.inputs = s.inputs ∧
        t.unheldRead = s.unheldRead ∧ s.trace <+: t.trace ∧
        t.hw = match x with
          | .event e => e.onHw s.hw
          | .poll => s.hw
          | .memo => s.hw
          | .voltage => s.hw
          | .status => s.hw := by
  cases x with
  | memo =>
    cases hp : pllInput s.cfg s.hw with
    | none => exact .inl ⟨rfl, rfl, performStep_memo_of_none hp⟩
    | some fin =>
      have hr : ∀ (ids : List Nat) (h : Hw), (ids.map fun id =>
          Event.fieldRead (.tree id) (s.hw.read (.tree id))).foldl (fun h e => e.onHw h) h = h := by
        intro ids
        induction ids with
        | nil => exact fun _ => rfl
        | cons id rest ih => exact fun h => ih h
      refine .inr ⟨_, performStep_memo_of_some hp, ?_⟩
      simp [State.performAll_eq, inputReads, hr]
  | event e => exact .inr ⟨_, rfl, by simp⟩
  | poll => exact .inr ⟨_, rfl, by simp⟩
  | voltage => exact .inr ⟨_, rfl, by simp⟩
  | status => exact .inr ⟨_, rfl, by simp⟩

/-- A step that is done answers the rest of the steps. -/
theorem applyAll_cons {x : ApplyStep} {rest : List ApplyStep} {s t : State} (h : performStep x s = .next t)
    (hr : x.repeats s = false) : applyAll (x :: rest) s = applyAll rest t := by simp [applyAll, h, hr]

/-- A step that repeats ends the step of the machine. -/
theorem applyAll_cons_repeats {x : ApplyStep} {rest : List ApplyStep} {s t : State} (h : performStep x s = .next t)
    (hr : x.repeats s = true) : applyAll (x :: rest) s = .next (t.withPending (x :: rest)) := by
  simp [applyAll, h, hr]

/-- The events of steps 1 to 3 happen in order, whatever follows. -/
theorem applyAll_events (es : List Event) (rest : List ApplyStep) (s : State) :
    applyAll (es.map .event ++ rest) s = applyAll rest (s.performAll es) := by
  induction es generalizing s with
  | nil => rfl
  | cons e es ih => exact ih (s.perform e)

/-! ### The step -/

/-- Everything the decoder can answer. -/
theorem decode_cases (code : Byte) : decode code = .error (.reservedCode code) ∨ ∃ i, decode code = .ok i := by
  unfold decode
  cases decodeFields (famField code) (opField code) with
  | none => exact .inl rfl
  | some i => exact .inr ⟨i, rfl⟩

/-- Everything a write to `CMD` can do. -/
theorem issue_cases (code : Byte) (s : State) :
    (issue code s = .refused (.reservedCode code) ∧ decode code = .error (.reservedCode code)) ∨
      ∃ i, decode code = .ok i ∧ issue code s = exec i (s.noteOperands i) := by
  unfold issue
  rcases decode_cases code with h | ⟨i, h⟩
  · exact .inl ⟨by rw [h], h⟩
  · exact .inr ⟨i, h, by rw [h]⟩

/-- The operands of a command are written exactly when each register it reads is. -/
theorem State.operandsHeld_iff {s : State} {i : Instr} :
    s.operandsHeld i = true ↔ ∀ reg ∈ operandRegs i, s.held.has reg = true := by
  simp [State.operandsHeld]

theorem step_idle {s : State} (hp : s.pending = []) (hi : s.inputs = []) : step s = .next s := by
  simp [step, advance, hp, hi]

theorem step_action {s : State} {act : Action} {rest : List Action} (hp : s.pending = [])
    (hi : s.inputs = act :: rest) : step s = takeAction act { s with inputs := rest } := by
  simp [step, advance, hp, hi]

theorem step_running {s : State} (hp : s.pending ≠ []) (hi : s.inputs = []) : step s = applyAll s.pending s := by
  obtain ⟨x, more, h⟩ := List.exists_cons_of_ne_nil hp
  simp [step, advance, h, hi]

theorem step_action_busy {s : State} {act : Action} {rest : List Action} (hp : s.pending ≠ [])
    (hi : s.inputs = act :: rest) : step s = takeActionBusy act { s with inputs := rest } := by
  obtain ⟨x, more, h⟩ := List.exists_cons_of_ne_nil hp
  simp [step, advance, h, hi]

end Sys2Proof.Machine
end

