-- ==== Sys2Proof/Laws/PerInstr.lean ====
section
/-! SUPPORT. Statements for all commands, made per command. -/

/-- A command is well formed and its word has the family code of R50 in its high four bits, between 1 and 5. -/
def Sys2Proof.Laws.CommandFormat.Statement (i : Sys2Proof.Instr) : Prop :=
  i.wf = true ∧ Sys2Proof.famField (Sys2Proof.encode i) = i.fam ∧ 1 ≤ i.fam.toNat ∧ i.fam.toNat ≤ 5

namespace Sys2Proof.Laws.CommandFormat

theorem encN : Statement .encN := by unfold Statement; decide
theorem decN : Statement .decN := by unfold Statement; decide
theorem encP : Statement .encP := by unfold Statement; decide
theorem decP : Statement .decP := by unfold Statement; decide
theorem encM : Statement .encM := by unfold Statement; decide
theorem decM : Statement .decM := by unfold Statement; decide
theorem selfilt : Statement .selfilt := by unfold Statement; decide
theorem synth : Statement .synth := by unfold Statement; decide
theorem csynth : Statement .csynth := by unfold Statement; decide
theorem freqAt : Statement .freqAt := by unfold Statement; decide
theorem pllRate : Statement .pllRate := by unfold Statement; decide
theorem pllOut : Statement .pllOut := by unfold Statement; decide
theorem pllRatePs : Statement .pllRatePs := by unfold Statement; decide
theorem apply : Statement .apply := by unfold Statement; decide

end Sys2Proof.Laws.CommandFormat
end

