-- ==== Sys2Proof/Laws/Resolver.lean ====
section
/-! SUPPORT. What the walk of the clock graph can do: the selected predecessor, and the PLL's input path, which never
meets the PLL output (R130 (c), R144). -/

namespace Sys2Proof.Machine

/-- The predecessor a multiplexer picks stands in its table under the selector's value. -/
theorem muxLookup_some {table : List (Nat × Nat)} {sel pred : Nat} (h : muxLookup table sel = some pred) :
    (sel, pred) ∈ table := by
  simp only [muxLookup, Option.map_eq_some_iff] at h
  obtain ⟨⟨v, p⟩, hf, rfl⟩ := h
  have hv : v = sel := by simpa using List.find?_some hf
  exact hv ▸ List.mem_of_find?_eq_some hf

/-- A multiplexer picks nothing exactly when no entry has the selector's value. -/
theorem muxLookup_none {table : List (Nat × Nat)} {sel : Nat} :
    muxLookup table sel = none ↔ ∀ e ∈ table, e.1 ≠ sel := by
  simp [muxLookup]

/-- A walk that is grounded below the depth at which `pllIn` first is never meets `PllOut`: it gives one frequency with
every memo, leaves the memo as it was, and reads the fields that R134 says, at every depth that suffices. -/
theorem walk_of_grounded (cfg : Config) (hw : Hw) {first : Nat}
    (hfirst : ∀ d < first, grounded cfg.graph d cfg.graph.pllIn = false) {depth id : Nat} (hd : depth ≤ first)
    (hg : grounded cfg.graph depth id = true) :
    ∃ f, PathReads cfg hw id (pathReads cfg hw depth id) ∧ ∀ d ≥ depth,
      pathReads cfg hw d id = pathReads cfg hw depth id ∧ ∀ memo, freqWalk cfg hw d id memo = some (f, memo) := by
  induction depth generalizing id with
  | zero => simp [grounded] at hg
  | succ n ih =>
    have hn : n ≤ first := by omega
    rw [grounded] at hg
    split at hg
    · cases hg
    · next rate h =>
      refine ⟨rate, by simpa [pathReads, h] using PathReads.fixed h, fun d hd' => ?_⟩
      obtain ⟨d, rfl⟩ : ∃ e, d = e + 1 := ⟨d - 1, by omega⟩
      simp [pathReads, freqWalk, h]
    · next h =>
      refine ⟨cfg.extRate, by simpa [pathReads, h] using PathReads.ext h, fun d hd' => ?_⟩
      obtain ⟨d, rfl⟩ : ∃ e, d = e + 1 := ⟨d - 1, by omega⟩
      simp [pathReads, freqWalk, h]
    · next rate gate on h =>
      refine ⟨if hw.read (.tree gate) = on then rate else 0, by simpa [pathReads, h] using PathReads.gated h,
        fun d hd' => ?_⟩
      obtain ⟨d, rfl⟩ : ∃ e, d = e + 1 := ⟨d - 1, by omega⟩
      simp [pathReads, freqWalk, h]
    · exact absurd hg (by simp [hfirst n (by omega)])
    · next pred divs h =>
      obtain ⟨f, hp, hw'⟩ := ih hn hg
      refine ⟨divideAll hw divs f, by simpa [pathReads, h] using PathReads.direct h hp, fun d hd' => ?_⟩
      obtain ⟨d, rfl⟩ : ∃ e, d = e + 1 := ⟨d - 1, by omega⟩
      obtain ⟨hr, hf⟩ := hw' d (by omega)
      simp [pathReads, freqWalk, h, hr, hf]
    · next sel table divs h =>
      cases hm : muxLookup table (hw.read (.tree sel)) with
      | none =>
        refine ⟨divideAll hw divs 0, by simpa [pathReads, h, hm] using PathReads.noSelection h (muxLookup_none.1 hm),
          fun d hd' => ?_⟩
        obtain ⟨d, rfl⟩ : ∃ e, d = e + 1 := ⟨d - 1, by omega⟩
        simp [pathReads, freqWalk, h, hm]
      | some pred =>
        have hin := muxLookup_some hm
        obtain ⟨f, hp, hw'⟩ := ih hn (List.all_eq_true.1 hg _ hin)
        refine ⟨divideAll hw divs f, by simpa [pathReads, h, hm] using PathReads.mux h hin hp, fun d hd' => ?_⟩
        obtain ⟨d, rfl⟩ : ∃ e, d = e + 1 := ⟨d - 1, by omega⟩
        obtain ⟨hr, hf⟩ := hw' d (by omega)
        simp [pathReads, freqWalk, h, hm, hr, hf]

/-- A well-formed graph has a grounded walk from every node. -/
theorem grounded_of_graphOk {g : Graph} (h : graphOk g = true) {id : Nat} (hid : id < g.count) :
    grounded g g.count id = true := by
  simp only [graphOk, Bool.and_eq_true, List.all_eq_true, List.mem_range] at h
  exact h.1.1.1.2 id hid

theorem pllIn_of_graphOk {g : Graph} (h : graphOk g = true) : g.pllIn < g.count := by
  simp only [graphOk, Bool.and_eq_true, decide_eq_true_eq] at h
  exact h.1.1.1.1

/-- On a well-formed graph the PLL's input resolves, with every memo and without touching it, and its path reads the
fields that R134 says. -/
theorem pllInput_resolves {cfg : Config} (hw : Hw) (h : graphOk cfg.graph = true) :
    ∃ fin, PllInputIs cfg hw fin ∧ pllInput cfg hw = some fin ∧
      PathReads cfg hw cfg.graph.pllIn (pathReads cfg hw cfg.graph.count cfg.graph.pllIn) := by
  have hg := grounded_of_graphOk h (pllIn_of_graphOk h)
  have hex : ∃ d, grounded cfg.graph d cfg.graph.pllIn = true := ⟨_, hg⟩
  obtain ⟨f, hp, hw'⟩ := walk_of_grounded cfg hw (first := Nat.find hex)
    (fun d hd => by simpa using Nat.find_min hex hd) le_rfl (Nat.find_spec hex)
  obtain ⟨hr, hf⟩ := hw' cfg.graph.count (Nat.find_le hg)
  exact ⟨f, hf, by simp [pllInput, hf], hr ▸ hp⟩

end Sys2Proof.Machine
end

