-- ==== Sys2Proof/Tests/Slice0.lean ====
section
/-! SUPPORT. The model's own tests: the ill-formed terms its checks refuse, each command's word written out from R51, and
vectors of spec/95_test_vectors.md (their ids stand in the comments; all under `REF`). -/

namespace Sys2Proof.Tests

open Sys2Proof.Machine


/-! ### Well-formedness: one ill-formed term for each check -/

/-- A parameter set whose fields fit. -/
def ssSet : PSet :=
  { ndec := 0x002, pdec := 0x7F, mult := 0x10AAA, selP := 0, selI := 0, selR := 0, directI := false, directO := true,
    bypass := false, fbdiv2 := false, ssEnabled := true }

/-- The set of V3.1. -/
def intSet : PSet :=
  { ndec := 0x001, pdec := 0x7F, mult := 0x7F55, selP := 7, selI := 16, selR := 0, directI := false, directO := true,
    bypass := false, fbdiv2 := false, ssEnabled := false }

theorem test_fits_ok : intSet.fits Config.ref = true := by decide
theorem test_fits_mult : { intSet with mult := 2 ^ 19 }.fits Config.ref = false := by decide
theorem test_fits_selP : { intSet with selP := 32 }.fits Config.ref = false := by decide
theorem test_fits_selI : { intSet with selI := 64 }.fits Config.ref = false := by decide
theorem test_fits_selR : { intSet with selR := 16 }.fits Config.ref = false := by decide
theorem test_admits_width : HwField.ndec.admits Config.ref 1024 = false := by decide
theorem test_admits_bit : HwField.lock.admits Config.ref 2 = false := by decide
theorem test_admits_tree : (HwField.tree 2).admits Config.ref 4 = false := by decide
theorem test_admits_no_field : (HwField.tree 10).admits Config.ref 0 = false := by decide
theorem test_action_ps : (Action.writePS { intSet with selI := 64 }).wf Config.ref = false := by decide
theorem test_action_hw : (Action.hw .pdec 128).wf Config.ref = false := by decide
theorem test_instr_wf : Instr.apply.wf = true := by decide

/-! ### Decoding: every command's word, bit by bit from the binary column of R51 -/

theorem test_decode_encN : decode 0b00010000#8 = .ok .encN := by decide
theorem test_decode_decN : decode 0b00010001#8 = .ok .decN := by decide
theorem test_decode_encP : decode 0b00010010#8 = .ok .encP := by decide
theorem test_decode_decP : decode 0b00010011#8 = .ok .decP := by decide
theorem test_decode_encM : decode 0b00010100#8 = .ok .encM := by decide
theorem test_decode_decM : decode 0b00010101#8 = .ok .decM := by decide
theorem test_decode_selfilt : decode 0b00100000#8 = .ok .selfilt := by decide
theorem test_decode_synth : decode 0b00110000#8 = .ok .synth := by decide
theorem test_decode_csynth : decode 0b00110001#8 = .ok .csynth := by decide
theorem test_decode_freqAt : decode 0b01000000#8 = .ok .freqAt := by decide
theorem test_decode_pllRate : decode 0b01000001#8 = .ok .pllRate := by decide
theorem test_decode_pllOut : decode 0b01000010#8 = .ok .pllOut := by decide
theorem test_decode_pllRatePs : decode 0b01000011#8 = .ok .pllRatePs := by decide
theorem test_decode_apply : decode 0b01010000#8 = .ok .apply := by decide
/-- The first reserved code of each range of R57. -/
theorem test_decode_reserved :
    [0x00#8, 0x16#8, 0x21#8, 0x32#8, 0x44#8, 0x51#8, 0xFF#8].map decode =
      [.error (.reservedCode 0x00), .error (.reservedCode 0x16), .error (.reservedCode 0x21),
        .error (.reservedCode 0x32), .error (.reservedCode 0x44), .error (.reservedCode 0x51),
        .error (.reservedCode 0xFF)] := by decide
theorem test_tableWord : decodeTableWord 8 0x43 = some .pllRatePs ∧ decodeTableWord 16 0x43 = none := by decide

/-! ### The configuration `REF` is admissible (V1.9), and ill-formed ones are not -/

theorem test_ref_scalars : scalarsOk Config.ref = true := by decide
theorem test_ref_graph : graphOk Config.ref.graph = true := by decide
theorem test_ref_famN : familyOk .n Config.ref.famN = true := by decide +kernel
theorem test_ref_famP : familyOk .p Config.ref.famP = true := by decide +kernel
/-- Taps that make the orbit repeat. -/
theorem test_family_repeats : familyOk .p { Config.refP with taps := [0] } = false := by decide +kernel
/-- A special code equal to the seed. -/
theorem test_family_clash : familyOk .p { Config.refP with special0 := 0x08 } = false := by decide
/-- A node fed by itself. -/
theorem test_graph_cycle :
    graphOk { nodes := [.derived (.direct 0) []], pllIn := 0, fieldWidths := [] } = false := by decide
/-- A PLL whose input is its own output. -/
theorem test_graph_pll_cycle :
    graphOk { nodes := [.pllOut], pllIn := 0, fieldWidths := [] } = false := by decide
/-- A field the graph does not have. -/
theorem test_graph_field :
    graphOk { nodes := [.derived (.direct 1) [0], .ext], pllIn := 1, fieldWidths := [] } = false := by decide
theorem test_boot_refuses :
    boot { Config.ref with ssRefHz := 0 } Hw.zero = .refused .inadmissibleConfig := by
  simp [boot, admissible, scalarsOk, Config.ref]

/-! ### Divider Codec (V1.1 to V1.6) -/

theorem test_encodeN :
    [0, 1, 2, 3, 8, 25, 100, 254, 256].map (encodeDivider Config.ref .n) =
      [0x3FF, 0x302, 0x202, 0x001, 0x02C, 0x03F, 0x0BB, 0x010, 0x040] := by decide +kernel
theorem test_decodeN :
    [0x3FF, 0x202, 0x001, 0x040, 0x0BB, 0x080, 0x101, 0x400].map (decodeDivider Config.ref .n) =
      [some 0, some 2, some 3, some 256, some 100, none, none, none] := by decide +kernel
theorem test_encodeP :
    [0, 1, 2, 3, 10, 17, 20, 25, 31, 32].map (encodeDivider Config.ref .p) =
      [0x7F, 0x62, 0x42, 0x01, 0x0E, 0x03, 0x1F, 0x06, 0x04, 0x08] := by decide +kernel
theorem test_decodeP :
    [0x08, 0x7F, 0x1F, 0x00, 0x10, 0x43, 0x80].map (decodeDivider Config.ref .p) =
      [some 32, some 0, some 20, none, none, none, none] := by decide
theorem test_encodeM :
    [0, 1, 2, 32753, 32755, 32756, 32766, 32768].map (encodeDivider Config.ref .m) =
      [0x1FFFF, 0x18003, 0x10003, 0x3000, 0x4001, 0x0002, 0x0800, 0x2000] := by decide
theorem test_decodeM :
    [0x2000, 0x4001, 0x1FFFF, 0x18003, 0x10003].map (decodeDivider Config.ref .m) =
      [some 32768, some 32755, some 0, some 1, some 2] := by decide

/-! ### Bandwidth Selector (V2) -/

theorem test_selfilt :
    [0, 25, 59, 60, 100, 500, 501, 2048, 2049, 8192, 8193, 16384, 16385, 40000].map
        (fun m => (selfilt Config.ref m false).packed) =
      [0x000401, 0x001C0D, 0x003C1E, 0x00381F, 0x00241F, 0x00081F, 0x00081F, 0x00081F, 0x00041F, 0x00041F, 0x00021F,
        0x00021F, 0x00011F, 0x00011F] := by decide
theorem test_selfilt_bypass :
    [25, 119, 120, 1002].map (fun m => (selfilt Config.ref m true).packed) =
      [0x001007, 0x003C1E, 0x00381F, 0x00081F] := by decide

/-! ### PLL Synthesizer (V3): raw values, error kinds, and the packed fields where they cost little -/

/-- A request. -/
def req (fin fout : Nat) (fb2 ss : Bool) : Key := { fin := fin, fout := fout, fb2 := fb2, ss := ss }

/-- N, P, M, frac and cco of a successful request. -/
def rawOf (k : Key) : Option (Nat × Nat × Nat × Nat × Nat) :=
  match synthRaw Config.ref k with
  | .ok raw => some (raw.n, raw.p, raw.m, raw.frac, raw.cco)
  | .err _ => none
  | .ssPreDividerZero => none

/-- V3.1, 2, 4, 11, 15, 18, 19, 20, 21, 22, 23. -/
theorem test_synth_int :
    [req 12000000 100000000 false false, req 12000000 100000000 true false, req 12000000 1171875 false false,
        req 12000000 74999999 false false, req 32768 100000000 false false, req 4001 100000000 false false,
        req 4000 150000000 false false, req 200000000 100000000 false false, req 160000000 100000000 false false,
        req 10000000 99990000 false false, req 16000000 72000000 true false].map rawOf =
      [some (3, 0, 25, 0, 100000000), some (6, 0, 25, 0, 100000000), some (4, 32, 25, 0, 75000000),
        some (1, 1, 12, 0, 149999998), some (1, 0, 3052, 0, 100000000), some (1, 0, 24994, 0, 100000000),
        some (1, 0, 37500, 0, 150000000), some (1, 0, 0, 0, 100000000), some (1, 0, 1, 0, 100000000),
        some (1, 0, 10, 0, 99990000), some (2, 1, 9, 0, 144000000)] := by decide
/-- V3.26, 27, 32, 35. -/
theorem test_synth_ss :
    [req 12000000 100000000 false true, req 12000000 100000000 true true, req 770999999 100000000 false true,
        req 12000000 60000000 false true].map rawOf =
      [some (4, 0, 33, 682, 100000000), some (4, 0, 16, 1365, 100000000), some (256, 0, 33, 417, 100000000),
        some (4, 1, 40, 0, 120000000)] := by decide
/-- V3.5, 7, 16, 24, 25, 29, 31, 33. -/
theorem test_synth_err :
    [req 12000000 1171874 false false, req 12000000 150000001 false false, req 3999 100000000 false false,
        req 1000000 200000000 false true, req 1000000 100000000 false true, req 2500000 100000000 false true,
        req 1999999 100000000 false true, req 771000000 100000000 false true].map (synthRaw Config.ref) =
      [.err .outputTooLow, .err .outputTooHigh, .err .inputTooLow, .err .outputTooHigh, .err .inputTooLow,
        .ssPreDividerZero, .err .inputTooLow, .err .inputTooHigh] := by decide

/-- The reset state with operands. -/
def operands (a b : Nat) (f : Nat) : State :=
  { State.reset with a := BitVec.ofNat 32 a, b := BitVec.ofNat 32 b, f := BitVec.ofNat 8 f }

/-- A property of the next state. -/
def nextIs (p : State → Bool) : Result → Bool
  | .next t => p t
  | .fault _ => false
  | .refused _ => false

/-- A refusal. -/
def refusedWith (r : Refusal) : Result → Bool
  | .next _ => false
  | .fault _ => false
  | .refused r' => decide (r = r')

/-- P5 line 3: the whole set of V3.26. -/
theorem test_exec_synth : nextIs (fun t => decide (t.ps = ssSet ∧ t.st = 0 ∧ t.held.ps = true))
    (execSynth (operands 12000000 100000000 2)) = true := by decide +kernel
/-- P5 line 1: InputTooLow writes `ST` only. -/
theorem test_exec_synth_fails : nextIs (fun t => decide (t.ps = PSet.zero ∧ t.st = 1 ∧ t.held.ps = false))
    (execSynth (operands 1000000 100000000 2)) = true := by decide

/-! ### Commands on the host registers -/

/-- V1.1: 100 gives 0x0BB. -/
theorem test_exec_encN : nextIs (fun t => decide (t.r = 0x0BB ∧ t.st = 0 ∧ t.held.mt = false))
    (execEncN (operands 100 0 0)) = true := by decide +kernel
/-- P2 line 3: no match. -/
theorem test_exec_decN : nextIs (fun t => decide (t.r = 0 ∧ t.mt = false ∧ t.held.mt = true ∧ decdResult t = 1))
    (execDecN (operands 0x80 0 0)) = true := by decide +kernel
theorem test_exec_encP : nextIs (fun t => decide (t.r = 0x7F)) (execEncP (operands 0 0 0)) = true := by
  decide
/-- P2 line 5: raw 0 matched. -/
theorem test_exec_decP : nextIs (fun t => decide (t.r = 0 ∧ t.mt = true ∧ decdResult t = 1))
    (execDecP (operands 0x7F 0 0)) = true := by decide
theorem test_exec_encM : nextIs (fun t => decide (t.r = 0x2000)) (execEncM (operands 32768 0 0)) = true := by
  decide
theorem test_exec_decM : nextIs (fun t => decide (t.r = 32768 ∧ t.mt = true))
    (execDecM (operands 0x2000 0 0)) = true := by decide
/-- P5 line 5: 33 gives 0x002411. -/
theorem test_exec_selfilt : nextIs (fun t => decide (t.r = 0x002411 ∧ t.st = 0))
    (execSelfilt (operands 33 0 0)) = true := by decide
/-- An out-of-domain ENC runs: one free value is drawn (U1). -/
theorem test_exec_encN_free : nextIs (fun t => decide (t.st = 0 ∧ t.draws = 1))
    (execEncN (operands 257 0 0)) = true := by decide

/-! ### Synthesis Cache (V4): the ring of two slots, with requests whose sets cost little to pack -/

/-- The state after CSYNTH of a request, or the same state when it is refused. -/
def csynthOf (s : State) (a b f : Nat) : State :=
  match execCsynth { s with a := BitVec.ofNat 32 a, b := BitVec.ofNat 32 b, f := BitVec.ofNat 8 f } with
  | .next t => t
  | .fault _ => s
  | .refused _ => s

/-- Two misses fill the ring and the cursor wraps; a hit moves nothing (V4.1 steps 1 to 3). -/
theorem test_cache_hit :
    let s1 := csynthOf State.reset 12000000 100000000 2
    let s2 := csynthOf s1 12000000 60000000 2
    let s3 := csynthOf s2 12000000 100000000 2
    s1.scCur = 1 ∧ s2.scCur = 0 ∧ s3.scCur = 0 ∧ s3.ps = ssSet ∧ s3.sc = s2.sc := by decide +kernel
/-- A third key overwrites the first although that was just used; a failing request stores nothing (steps 4 and 6). -/
theorem test_cache_fifo :
    let s2 := csynthOf (csynthOf State.reset 12000000 100000000 2) 12000000 60000000 2
    let s4 := csynthOf (csynthOf s2 12000000 100000000 2) 12000000 100000000 3
    let s5 := csynthOf s4 12000000 200000000 2
    (s4.sc.map fun e => (e.key.fout.toNat, e.key.fb2)) = [(100000000, true), (60000000, false)] ∧ s4.scCur = 1 ∧
      s5.sc = s4.sc ∧ s5.scCur = 1 ∧ s5.st = 3 := by decide +kernel

/-! ### Clock-Tree Resolver (V5) -/

/-- The clock-tree fields of H0: `PDEN_WDTOSC` 1, `MAINCLKSELB` 2, `AHBDIV` 1, `ASYNCDIV` 2, `PERDIV_A` 5,
`PERDIV_B` 2, the others 0. -/
def treeH0 : Memory := [(0, 1), (4, 2), (5, 1), (7, 2), (8, 5), (9, 2)]

/-- H0 with the PLL fields of a set, clock-tree fields changed as listed, and a memo. -/
def atH0 (ps : PSet) (changes : List (Nat × Nat)) (memo : Nat) : State :=
  { State.reset with
    hw :=
      { pll :=
          { ndec := ps.ndec, pdec := ps.pdec, mult := ps.mult, selP := 0, selI := 0, selR := 0, directI := ps.directI,
            directO := ps.directO, bypass := ps.bypass, fbdiv2 := ps.fbdiv2, ssen := ps.ssEnabled, nreq := false,
            preq := false, mreq := false, lock := false }
        tree := changes.foldl (fun t e => Memory.write t e.1 e.2) treeH0 }
    pllFreq := BitVec.ofNat 32 memo }

/-- FREQ.AT of a list of nodes. -/
def freqs (s : State) (ids : List Nat) : List (Option Nat) :=
  ids.map fun id =>
    match execFreqAt { s with a := BitVec.ofNat 32 id } with
    | .next t => some t.r.toNat
    | .fault _ => none
    | .refused _ => none

/-- V5.1. -/
theorem test_freq_all :
    freqs (atH0 intSet [] 100000000) [0, 1, 2, 3, 4, 5, 6, 7, 8, 9, 10] =
      [some 12000000, some 16000000, some 0, some 0, some 12000000, some 12000000, some 100000000, some 100000000,
        some 100000000, some 50000000, some 10000000] := by decide
/-- V5.4, V5.5 and V5.12: absorption and unknown selections. -/
theorem test_freq_zero :
    freqs (atH0 intSet [(5, 0)] 25000000) [7, 8, 10, 9] = [some 25000000, some 0, some 0, some 12500000] ∧
      freqs (atH0 intSet [(4, 1), (3, 2), (5, 3)] 100000000) [5, 7, 8, 9, 10] =
        [some 0, some 0, some 0, some 0, some 0] ∧
      freqs (atH0 intSet [(4, 7)] 100000000) [7, 8, 10] = [some 0, some 0, some 0] := by decide
/-- V5.7, V5.8, V5.10, V5.11: gates, floors, other selections. -/
theorem test_freq_floor :
    freqs (atH0 intSet [(4, 0), (2, 2), (5, 3), (0, 0)] 1) [2, 4, 8, 10] =
        [some 500000, some 500000, some 166666, some 16666] ∧
      freqs (atH0 intSet [(4, 0), (2, 1), (5, 3)] 1) [1, 8, 9, 10] =
        [some 16000000, some 5333333, some 8000000, some 533333] ∧
      freqs (atH0 intSet [(4, 3), (1, 1)] 1) [3, 7, 10] = [some 32768, some 32768, some 3276] ∧
      freqs (atH0 intSet [(6, 1), (7, 5)] 1) [9] = [some 2400000] := by decide
/-- V5.14. -/
theorem test_freq_no_node :
    refusedWith (.noSuchNode 11) (execFreqAt { atH0 intSet [] 1 with a := 11 }) = true := by decide
/-- V5.2 with the set of V3.26 in the registers: the stale memo is recomputed and stored. -/
theorem test_freq_recompute : nextIs (fun t => decide (t.r = 99999023 ∧ t.pllFreq = 99999023 ∧ t.draws = 0))
    (execFreqAt { atH0 ssSet [] 0 with a := 6 }) = true := by decide +kernel
/-- PLL.RATE does not touch the memo. -/
theorem test_pllRate : nextIs (fun t => decide (t.r = 99999023 ∧ t.pllFreq = 7))
    (execPllRate (atH0 ssSet [] 7)) = true := by decide +kernel
/-- V5.13. -/
theorem test_pllRate_bypass : nextIs (fun t => decide (t.r = 12000000))
    (execPllRate (atH0 { ssSet with bypass := true } [] 7)) = true := by decide
/-- PLL.OUT without and with the explicit request (V5.3). -/
theorem test_pllOut : nextIs (fun t => decide (t.r = 7 ∧ t.pllFreq = 7)) (execPllOut (atH0 ssSet [] 7)) = true ∧
    nextIs (fun t => decide (t.r = 99999023 ∧ t.pllFreq = 99999023))
      (execPllOut { atH0 ssSet [] 7 with f := 1 }) = true := by decide +kernel
/-- PLL.RATEPS of V3.26 and of a bypassed set. -/
theorem test_pllRatePs :
    nextIs (fun t => decide (t.r = 99999023)) (execPllRatePs { operands 12000000 0 0 with ps := ssSet }) = true ∧
      nextIs (fun t => decide (t.r = 12000000))
        (execPllRatePs { operands 12000000 0 0 with ps := { ssSet with bypass := true } }) = true := by
  decide +kernel
/-- V5.9, with only P undecodable: the default divides by 2 × 1. -/
theorem test_rate_default :
    rateOf Config.ref 12000000 { ssSet with pdec := 0, directO := false } = 49999511 := by decide +kernel

/-! ### Apply/Lock Sequencer (V6) -/

/-- H0 with the set of V3.26 to apply, flags, and the lock bit. -/
def toApply (f : Nat) (lock : Bool) : State :=
  let s := atH0 intSet [] 5
  { s with
    ps := ssSet, f := BitVec.ofNat 8 f, hw := { s.hw with pll := { s.hw.pll with lock := lock } }
    held := { Held.none with f := true, ps := true } }

/-- V6.2: the first fifteen events, the read of `PLLCLKSEL`, the memo, `ST`. -/
theorem test_apply_config :
    nextIs (fun t => decide (t.pending = [] ∧ t.pllFreq = 99999023 ∧ t.hw.pll.mult = 0x10AAA ∧ t.hw.pll.mreq = true ∧
        t.trace = applyEvents Config.ref ssSet false ++
          [.fieldRead (.tree 3) 0, .memoWrite 99999023, .statusWrite 0] ∧ t.trace.length = 18))
      (execApply (toApply 0 false)) = true := by decide +kernel
/-- V6.1 with the lock shown at the first poll, and V6.5's voltage call: the whole trace after event 15. -/
theorem test_apply_locked :
    nextIs (fun t => decide (t.pending = [] ∧ t.st = 0 ∧ t.hw.pll.ndec = 2 ∧
        t.trace.drop 15 =
          [.pairWrite .mult 0x5DD2 .mreq false, .pdDisable 0, .pairWrite .mult 0x5DD2 .mreq true, .delay 72,
            .pairWrite .mult 0x10AAA .mreq false, .pairWrite .mult 0x10AAA .mreq true, .fieldRead .lock 1,
            .fieldRead (.tree 3) 0, .memoWrite 99999023, .pdSetVoltage 99999023, .statusWrite 0]))
      (execApply (toApply 7 true)) = true := by decide +kernel
/-- V6.6: no lock, so APPLY still runs and neither `PLLFREQ` nor `ST` is written. -/
theorem test_apply_waits :
    nextIs (fun t => decide (t.pending = [.poll, .memo, .status] ∧ t.pllFreq = 5 ∧ t.held.st = false ∧ t.hw.pll.ndec = 2 ∧
        t.trace.drop 21 = [.fieldRead .lock 0])) (execApply (toApply 2 false)) = true := by decide

/-! ### Steps -/

/-- V6.1: `PLL_LOCK` read as 0, 0 and then 1, the environment raising it. -/
theorem test_run_lock :
    nextIs (fun t => decide (t.pending = [] ∧ t.pllFreq = 99999023 ∧ t.trace.drop 21 =
        [.fieldRead .lock 0, .fieldRead .lock 0, .fieldRead .lock 1, .fieldRead (.tree 3) 0, .memoWrite 99999023,
          .statusWrite 0]))
      (Host.Core.run Sys2Proof.core 4
        { toApply 3 false with inputs := [.cmd 0x50, .hw .lock 0, .instant, .hw .lock 1] }) = true := by decide +kernel
/-- R49: `PLL_LOCK` raised and cleared again between two polls, which APPLY never sees. -/
theorem test_run_lock_unseen :
    nextIs (fun t => decide (t.pending = [.poll, .memo, .status] ∧ t.hw.pll.lock = false ∧ t.inputs = [] ∧
        t.trace.length = 1))
      (Host.Core.run Sys2Proof.core 3
        { toApply 3 false with
          pending := [.poll, .memo, .status], inputs := [.hw .lock 1, .hw .lock 0, .instant] }) = true := by decide
/-- A host write while APPLY runs is refused (U7). -/
theorem test_step_concurrent :
    refusedWith .concurrentAccess (step { toApply 3 false with pending := [.poll], inputs := [.writeA 1] }) = true := by
  decide
/-- The first command after reset: ENC.N of an `A` that nothing has written runs on 0 and marks the run. -/
theorem test_step_first :
    nextIs (fun t => decide (t.r = 0x3FF ∧ t.unheldRead = true)) (step (State.reset.withFetchWord 8 0x10)) = true := by
  decide
/-- R163: a reset of a hung APPLY keeps `HW`. -/
theorem test_step_reset :
    nextIs (fun t => decide (t.pending = [] ∧ t.pllFreq = 0 ∧ t.hw = (toApply 3 false).hw ∧ t.inputs = []))
      (step { toApply 3 false with pending := [.poll], inputs := [.reset] }) = true := by decide

/-- R49, R190: after event 18 of APPLY, in the bring-up pulse, the environment changes a selector, then resets: `HW` keeps
the forced multiplier (log 16). -/
theorem test_step_instants :
    nextIs (fun t => decide (t.pending = [] ∧ t.pllFreq = 0 ∧ t.hw.pll.mult = 0x5DD2 ∧ t.hw.pll.mreq = true ∧
        t.hw.read (.tree 3) = 1 ∧ t.trace.length = 18 ∧ t.inputs = []))
      (Host.Core.run Sys2Proof.core 20
        { toApply 3 false with inputs := .cmd 0x50 :: List.replicate 18 .instant ++ [.hw (.tree 3) 1, .reset] }) =
      true := by decide
/-- R157: the memo resolves the PLL input as it is at its own instant: the selector changes after event 15. -/
theorem test_step_memo_instant :
    nextIs (fun t => decide (t.pending = [] ∧ t.pllFreq = 133332031 ∧ t.st = 0))
      (Host.Core.run Sys2Proof.core 18
        { toApply 0 false with inputs := .cmd 0x50 :: List.replicate 15 .instant ++ [.hw (.tree 3) 1] }) = true := by
  decide +kernel

/-! ### Witnesses: for each statement with hypotheses, states and operands that meet them, at the ends of each clause -/

/-- A host write to `CMD` that arrives at the reset state. -/
def issuing (code : Nat) : State := { State.reset with inputs := [.cmd (BitVec.ofNat 8 code)] }

theorem witness_ReservedCodesAreRefused :
    ∀ code ∈ [0x00, 0x0F, 0x10, 0x15, 0x16, 0x1F, 0x20, 0x21, 0x2F, 0x30, 0x31, 0x32, 0x3F, 0x40, 0x43, 0x44, 0x4F,
        0x50, 0x51, 0xFF],
      (issuing code).pending = [] ∧ (issuing code).inputs = .cmd (BitVec.ofNat 8 code) :: [] :=
  fun _ _ => ⟨rfl, rfl⟩
/-- Every operand was written, and only the last one read was not. -/
theorem witness_StepRunsTheDecodedCommand :
    let s := { toApply 0 false with inputs := [.cmd 0x50] }
    let s' := { s with held := { Held.none with ps := true } }
    s.pending = [] ∧ s.inputs = .cmd 0x50 :: [] ∧ decode 0x50 = .ok .apply ∧
      (∀ reg ∈ operandRegs .apply, s.held.has reg = true) ∧ ∃ reg ∈ operandRegs .apply, s'.held.has reg = false :=
  ⟨rfl, rfl, by decide, by decide, .f, by decide, rfl⟩
theorem witness_OperandWritesSetOneRegister :
    let s := State.reset
    s.pending = [] ∧ { s with inputs := [.writeA 0xFFFFFFFF] }.inputs = .writeA 0xFFFFFFFF :: [] ∧
      { s with inputs := [.writeB 0] }.inputs = .writeB 0 :: [] ∧
      { s with inputs := [.writeF 0xFF] }.inputs = .writeF 0xFF :: [] ∧
      { s with inputs := [.writePS intSet] }.inputs = .writePS intSet :: [] ∧ intSet.fits s.cfg = true :=
  ⟨rfl, rfl, rfl, rfl, rfl, by decide⟩
theorem witness_FieldReadAfterFieldWrite :
    Memory.wf treeH0 = true ∧ HwField.ndec.admits Config.ref 1023 = true ∧ HwField.mult.admits Config.ref 524287 = true ∧
      HwField.lock.admits Config.ref 1 = true ∧ (HwField.tree 9).admits Config.ref 255 = true ∧
      (HwField.tree 0).admits Config.ref 0 = true := by decide
theorem witness_EnvironmentWriteLeavesMemoStale :
    let s := { atH0 intSet [] 100000000 with inputs := [.hw (.tree 4) 7] }
    s.pending.head? ≠ some .poll ∧ s.inputs = .hw (.tree 4) 7 :: [] ∧ Memory.wf s.hw.tree = true ∧
      (HwField.tree 4).admits s.cfg 7 = true ∧
      ∃ act, [Action.hw .lock 0].head? = some act ∧ act.byHost = false :=
  ⟨by decide, rfl, by decide, by decide, _, rfl, rfl⟩
theorem witness_EncCommandsWriteTheCode :
    (operands 256 0 0).a.toNat ≤ 256 ∧ 256 < (operands 257 0 0).a.toNat ∧ (operands 32 0 0).a.toNat ≤ 32 ∧
      32 < (operands 33 0 0).a.toNat ∧ (operands 32768 0 0).a.toNat ≤ 32768 ∧
      32768 < (operands 32769 0 0).a.toNat := by decide
theorem witness_DecCommandsWriteRawAndMatch :
    decodeDivider Config.ref .n (operands 0x040 0 0).a.toNat = some 256 ∧
      decodeDivider Config.ref .p (operands 0x7F 0 0).a.toNat = some 0 ∧
      decodeDivider Config.ref .m (operands 0x4001 0 0).a.toNat = some 32755 ∧
      decodeDivider Config.ref .n (operands 0x400 0 0).a.toNat = none := by decide +kernel
theorem witness_StepFeedsBackTheParityOfTheTaps :
    familyShapeOk .n Config.refN = true ∧ 255 < 2 ^ Config.refN.len ∧ familyShapeOk .p Config.refP = true ∧
      0 < 2 ^ Config.refP.len := by decide
theorem witness_EncodeWalksDownFromTheSeed :
    familyShapeOk .n Config.refN = true ∧ familyShapeOk .p Config.refP = true ∧
      familyShapeOk .m Config.refM = true := by decide
theorem witness_CodecRoundTrips :
    familyOk .n (Config.ref.family .n) = true ∧ familyOk .p (Config.ref.family .p) = true ∧
      decodeDivider Config.ref .p 0x42 = some 2 := ⟨test_ref_famN, test_ref_famP, by decide⟩
theorem witness_WideCodesDecodeToNothing :
    familyShapeOk .p (Config.ref.family .p) = true ∧ 2 ^ Family.p.width ≤ 0x80 := by decide
theorem witness_FilterIFollowsTheBands :
    ∀ me ∈ [0, 59, 60, 500, 501, 2048, 2049, 8192, 8193, 16384, 16385],
      me = (if Config.ref.selfiltHalveOnBypass = true ∧ false = true then me / 2 else me) := by decide
theorem witness_SelfiltPacksTheTriple : scalarsOk (operands 59 0 1).cfg = true := by decide

/-- The synthesis of a request that succeeds. -/
def rawAt (k : Key) (p : Nat) : SynthRaw := synthAt Config.ref k p

/-- The least output, an output in the band, and the greatest, in both modes. -/
theorem witness_synthRaw :
    synthRaw Config.ref (req 12000000 1171875 false false) = .ok (rawAt (req 12000000 1171875 false false) 32) ∧
      synthRaw Config.ref (req 4000 150000000 false false) = .ok (rawAt (req 4000 150000000 false false) 0) ∧
      synthRaw Config.ref (req 12000000 74999999 true false) = .ok (rawAt (req 12000000 74999999 true false) 1) ∧
      synthRaw Config.ref (req 770999999 75000000 false true) = .ok (rawAt (req 770999999 75000000 false true) 0) := by
  decide
theorem witness_RequestChecksInOrder :
    [req 0 150000001 false true, req 0 1171874 false true, req 1999999 1171875 false true,
        req 3999 150000000 false false, req 771000000 150000000 false true, req 2999999 1171875 false true].map
          (synthRaw Config.ref) =
      [.err .outputTooHigh, .err .outputTooLow, .err .inputTooLow, .err .inputTooLow, .err .inputTooHigh,
        .ssPreDividerZero] := by decide
theorem witness_PostDividerIsTheLeast :
    synthRaw Config.ref (req 12000000 1171875 false false) = .ok (rawAt (req 12000000 1171875 false false) 32) ∧
      synthRaw Config.ref (req 4000 150000000 false false) = .ok (rawAt (req 4000 150000000 false false) 0) :=
  ⟨witness_synthRaw.1, witness_synthRaw.2.1⟩
theorem witness_CcoStaysInItsBand :
    synthRaw Config.ref (req 12000000 74999999 true false) = .ok (rawAt (req 12000000 74999999 true false) 1) :=
  witness_synthRaw.2.2.1
/-- The pre-divider is adopted, not adopted, and derived. -/
theorem witness_PreDividerComesFromTheCommonDivisor :
    synthRaw Config.ref (req 12000000 100000000 true false) = .ok (rawAt (req 12000000 100000000 true false) 0) ∧
      (rawAt (req 12000000 100000000 true false) 0).n = 6 ∧ (rawAt (req 4000 150000000 false false) 0).n = 1 ∧
      synthRaw Config.ref (req 4000 150000000 false false) = .ok (rawAt (req 4000 150000000 false false) 0) ∧
      synthRaw Config.ref (req 770999999 75000000 false true) = .ok (rawAt (req 770999999 75000000 false true) 0) := by
  decide
theorem witness_MultiplierIsTheNearest :
    synthRaw Config.ref (req 160000000 100000000 false false) = .ok (rawAt (req 160000000 100000000 false false) 0) ∧
      (req 160000000 100000000 false false).ss = false := by decide
theorem witness_FractionApproachesFromBelow :
    synthRaw Config.ref (req 12000000 100000000 true true) = .ok (rawAt (req 12000000 100000000 true true) 0) ∧
      (req 12000000 100000000 true true).ss = true := by decide
theorem witness_SynthSucceedsInRange :
    InRange (operands 4000 1171875 0).cfg (operands 4000 1171875 0).request ∧
      InRange (operands 3000000 150000000 2).cfg (operands 3000000 150000000 2).request ∧
      InRange (operands 770999999 150000000 3).cfg (operands 770999999 150000000 3).request := by
  unfold InRange
  decide
theorem witness_FailureWritesOnlyTheStatus :
    synthRaw Config.ref (operands 3999 1171875 0).request = .err .inputTooLow ∧
      ∀ e ∈ (operands 3999 1171875 0).sc, e.valid = true → e.key ≠ (operands 3999 1171875 0).request := by
  decide
theorem witness_ZeroPreDividerIsRefused :
    let s := operands 2000000 150000000 2
    1171875 ≤ s.b.toNat ∧ s.b.toNat ≤ 150000000 ∧ s.f.getLsbD 1 = true ∧ 2000000 ≤ s.a.toNat ∧
      s.a.toNat / s.cfg.ssRefHz = 0 ∧ ∀ e ∈ s.sc, e.valid = true → e.key ≠ s.request := by decide
/-- The ignored bits of `F` and everything else may differ. -/
theorem witness_SynthDependsOnTheRequestAlone :
    let s := operands 12000000 100000000 0xFE
    let s' := { operands 12000000 100000000 2 with pllFreq := 5, ps := intSet, r := 9 }
    s.cfg = s'.cfg ∧ s.request = s'.request := by decide

/-- A ring with one valid slot, which holds the synthesis of its key, and the operands of another request. -/
def withSlot (a b f : Nat) : State :=
  { operands a b f with
    sc :=
      [{ valid := true, key := req 12000000 100000000 false true,
         val := pack Config.ref (rawAt (req 12000000 100000000 false true) 0) 0 }, Slot.empty]
    scCur := 1 }

theorem withSlot_keysDistinct (a b f : Nat) : CacheKeysDistinct (withSlot a b f) := by
  intro i j hi hj vi vj _
  have hi2 : i < 2 := hi
  have hj2 : j < 2 := hj
  interval_cases i <;> interval_cases j <;> first | rfl | exact absurd vi Bool.false_ne_true | exact absurd vj Bool.false_ne_true
theorem withSlot_faithful (a b f : Nat) : CacheFaithful (withSlot a b f) := by
  intro e he hv
  have hs : e = (withSlot 0 0 0).sc[0] ∨ e = Slot.empty := by simpa [withSlot] using he
  rcases hs with rfl | rfl
  · exact ⟨rawAt (req 12000000 100000000 false true) 0, 0,
      by
        show synthRaw Config.ref (req 12000000 100000000 false true) = _
        decide,
      rfl⟩
  · exact absurd hv (by decide)
theorem witness_CacheHitReturnsTheStoredSet :
    CacheKeysDistinct (withSlot 12000000 100000000 0xFE) ∧
      (withSlot 12000000 100000000 0xFE).sc[0] ∈ (withSlot 12000000 100000000 0xFE).sc ∧
      (withSlot 12000000 100000000 0xFE).sc[0].valid = true ∧
      (withSlot 12000000 100000000 0xFE).sc[0].key = (withSlot 12000000 100000000 0xFE).request :=
  ⟨withSlot_keysDistinct _ _ _, List.getElem_mem _, rfl, by decide⟩
theorem witness_CacheMissStoresAtTheCursor :
    InRange (withSlot 12000000 100000000 0).cfg (withSlot 12000000 100000000 0).request ∧
      ∀ e ∈ (withSlot 12000000 100000000 0).sc, e.valid = true → e.key ≠ (withSlot 12000000 100000000 0).request := by
  constructor
  · unfold InRange; decide
  · intro e he _
    have hs : e = (withSlot 0 0 0).sc[0] ∨ e = Slot.empty := by simpa [withSlot] using he
    rcases hs with rfl | rfl <;> decide
/-- A hit, a miss that fails, and a miss that is refused. -/
theorem witness_CacheIsTransparent :
    CacheFaithful (withSlot 12000000 100000000 2) ∧ CacheFaithful (withSlot 12000000 150000001 2) ∧
      CacheFaithful (withSlot 2000000 100000000 2) :=
  ⟨withSlot_faithful _ _ _, withSlot_faithful _ _ _, withSlot_faithful _ _ _⟩
theorem witness_CacheEvictsTheFirstInserted :
    let first := req 12000000 100000000 false true
    let keys := [req 12000000 60000000 false true, req 4000 1171875 true false]
    0 < Config.ref.cacheCap ∧ keys.length = Config.ref.cacheCap ∧ (first :: keys).Nodup ∧
      ∀ k ∈ first :: keys, InRange Config.ref k := by
  unfold InRange
  decide
theorem witness_InvalidSlotsAreNeverRead :
    RingsAgree [(withSlot 0 0 0).sc[0], Slot.empty]
      [(withSlot 0 0 0).sc[0], { Slot.empty with key := req 12000000 100000000 false true, val := intSet }] :=
  .cons ⟨rfl, fun _ => rfl⟩ (.cons ⟨rfl, fun h => absurd h (by decide)⟩ .nil)
theorem witness_FreqAtOfTheSources :
    Graph.ex.nodes[(operands 0 0 0).a.toNat]? = some (.fixed 12000000) ∧
      Graph.ex.nodes[(operands 1 0 0).a.toNat]? = some .ext ∧ Config.ref.extRate < 2 ^ 32 ∧
      Graph.ex.nodes[(operands 2 0 0).a.toNat]? = some (.gated 500000 0 0) := by decide
/-- Dividers that are not 0, a zero divider, a direct predecessor of frequency 0, a selected one, and no selection. -/
theorem witness_ZeroIsAbsorbing :
    let hw := (atH0 intSet [(5, 0), (3, 2), (4, 1)] 1).hw
    let hw' := (atH0 intSet [(4, 0), (5, 255)] 1).hw
    Graph.ex.nodes[8]? = some (.derived (.direct 7) [5]) ∧ hw.read (.tree 5) = 0 ∧ hw'.read (.tree 5) = 255 ∧
      freqWalk Config.ref hw' 3 7 { pllFreq := 1, draws := 0 } = some (12000000, { pllFreq := 1, draws := 0 }) ∧
      freqWalk Config.ref hw 3 8 { pllFreq := 1, draws := 0 } = some (0, { pllFreq := 1, draws := 0 }) ∧
      freqWalk Config.ref hw 2 7 { pllFreq := 1, draws := 0 } = some (0, { pllFreq := 1, draws := 0 }) ∧
      ([(0, 4), (1, 5), (2, 6), (3, 3)].map Prod.fst).Nodup ∧
      (hw.read (.tree 4), 5) ∈ [(0, 4), (1, 5), (2, 6), (3, 3)] ∧
      freqWalk Config.ref hw 1 5 { pllFreq := 1, draws := 0 } = some (0, { pllFreq := 1, draws := 0 }) ∧
      ∀ e ∈ [(0, 0), (1, 1), (3, 3)], e.1 ≠ hw.read (.tree 3) := by decide
theorem witness_UnknownSelectionGivesZero :
    let s := { atH0 intSet [(3, 2)] 1 with a := 5 }
    s.cfg.graph.nodes[s.a.toNat]? = some (.derived (.mux 3 [(0, 0), (1, 1), (3, 3)]) []) ∧
      ∀ e ∈ [(0, 0), (1, 1), (3, 3)], e.1 ≠ s.hw.read (.tree 3) := by decide
theorem witness_FreqAtCompletesOnEveryNode :
    graphOk (operands 10 0 0).cfg.graph = true ∧ (operands 10 0 0).a.toNat < (operands 10 0 0).cfg.graph.count :=
  ⟨test_ref_graph, by decide⟩
theorem witness_FreqAtOfNoNodeIsRefused :
    (operands 11 0 0).cfg.graph.count ≤ (operands 11 0 0).a.toNat := by decide
theorem witness_PllOutNodeReadsTheMemo :
    let s := { atH0 ssSet [] 100000000 with a := 6 }
    let s' := { atH0 ssSet [] 0 with a := 6 }
    graphOk s.cfg.graph = true ∧ s.cfg.graph.nodes[s.a.toNat]? = some .pllOut ∧ s.pllFreq ≠ 0 ∧ s'.pllFreq = 0 ∧
      s'.cfg.graph.nodes[s'.a.toNat]? = some .pllOut :=
  ⟨test_ref_graph, by decide, by decide, by decide, by decide⟩
theorem witness_RateFormulaOfTheObservedSet :
    { ssSet with bypass := true }.bypass = true ∧ ssSet.bypass = false ∧ ssSet.ssEnabled = true ∧
      intSet.bypass = false ∧ intSet.ssEnabled = false := by decide
theorem witness_PllRateIsAFunctionOfTheSnapshot : graphOk (atH0 ssSet [] 7).cfg.graph = true := test_ref_graph
theorem witness_PllOutRecomputesOnRequestOrWhenStale :
    (atH0 ssSet [] 7).f.getLsbD 0 = false ∧ (atH0 ssSet [] 7).pllFreq ≠ 0 ∧
      graphOk (atH0 ssSet [] 7).cfg.graph = true ∧ { atH0 ssSet [] 7 with f := 0xFF }.f.getLsbD 0 = true ∧
      (atH0 ssSet [] 0).pllFreq = 0 :=
  ⟨by decide, by decide, test_ref_graph, by decide, by decide⟩
/-- A rate that fits 32 bits and one that does not. -/
theorem witness_PllRatePsChangesOnlyTheResult :
    rateOf Config.ref (operands 12000000 0 0).a.toNat ssSet < 2 ^ 32 ∧
      2 ^ 32 ≤ rateOf Config.ref (operands 4294967295 0 0).a.toNat { ssSet with directI := true } := by
  decide +kernel
/-- No wait, with and without the pulse, a wait whose first poll finds the lock, and an issue with an instant next. -/
theorem witness_ApplyEventsInOrder :
    graphOk (toApply 0 false).cfg.graph = true ∧ (toApply 0 false).inputs.head? ≠ some .instant ∧
      (toApply 0 false).f.getLsbD 1 = false ∧ (toApply 5 false).f.getLsbD 1 = false ∧
      (toApply 7 true).f.getLsbD 1 = true ∧ (toApply 7 true).hw.pll.lock = true ∧
      { toApply 7 true with inputs := [.instant] }.inputs = .instant :: [] :=
  ⟨test_ref_graph, by decide, by decide, by decide, by decide, by decide, rfl⟩
/-- Each kind of step is the next one in a state that a run of `n` instants from the issue reaches. -/
theorem witness_ApplyEventsInOrder_instants :
    [(1, some (ApplyStep.event (.fieldWrite .selR 0))), (21, some .poll), (22, some .memo), (23, some .voltage),
        (24, some .status)].all
      (fun c => nextIs (fun t => decide (t.pending.head? = c.2 ∧ t.inputs.head? = some .instant))
        (Host.Core.run Sys2Proof.core c.1
          { toApply 7 true with inputs := .cmd 0x50 :: List.replicate 30 .instant })) = true := by decide
theorem witness_ApplyLeavesTheSetInHardware :
    graphOk (toApply 2 true).cfg.graph = true ∧ (toApply 2 true).inputs.head? ≠ some .instant ∧
      (toApply 2 true).hw.pll.lock = true ∧ (toApply 0 false).f.getLsbD 1 = false :=
  ⟨test_ref_graph, by decide, by decide, by decide⟩
theorem witness_ApplyWaitsForTheLock :
    (toApply 2 false).inputs.head? ≠ some .instant ∧ (toApply 2 false).f.getLsbD 1 = true ∧
      (toApply 2 false).hw.pll.lock = false := by decide

/-- From reset the host loads a set and the flag waitForLock and issues APPLY; then come other actions. -/
def fromReset (acts : List Action) : State :=
  { State.reset with inputs := [.writePS ssSet, .writeF 2, .cmd 0x50] ++ acts }

/-- An APPLY at its lock poll, with actions still to come. -/
def waiting (acts : List Action) : State :=
  { toApply 2 false with pending := .poll :: closingSteps false, inputs := acts }

theorem witness_UnlockedWaitNeverEnds :
    let s := waiting [.hw .ndec 1023, .instant, .hw .lock 0]
    s.pending.head? = some .poll ∧ s.hw.pll.lock = false ∧
      ∀ act ∈ s.inputs, act = .instant ∨ ∃ x v, act = .hw x v ∧ (x = .lock → v = 0) ∧ x.admits s.cfg v = true := by
  refine ⟨rfl, by decide, fun act h => ?_⟩
  have ha : act = .hw .ndec 1023 ∨ act = .instant ∨ act = .hw .lock 0 := by simpa [waiting] using h
  rcases ha with rfl | rfl | rfl
  · exact .inr ⟨.ndec, 1023, rfl, by decide, by decide⟩
  · exact .inl rfl
  · exact .inr ⟨.lock, 0, rfl, fun _ => rfl, by decide⟩
/-- States that runs from reset reach meet the premises of both clauses. -/
theorem witness_LockedPollCompletesApply :
    graphOk (fromReset []).cfg.graph = true ∧
      nextIs (fun s => decide (s.cfg = Config.ref ∧ s.pending = .poll :: closingSteps false ∧
          s.inputs = .hw .lock 1 :: [.writeA 7] ∧ (Action.writeA 7).byHost = true))
        (Host.Core.run Sys2Proof.core 3 (fromReset [.hw .lock 1, .writeA 7])) = true ∧
      nextIs (fun s => decide (s.cfg = Config.ref ∧ s.pending = .poll :: closingSteps false ∧ s.inputs = [] ∧
          s.hw.pll.lock = true))
        (Host.Core.run Sys2Proof.core 24 (fromReset (List.replicate 20 .instant ++ [.hw .lock 1, .instant]))) = true :=
  ⟨test_ref_graph, by decide, by decide⟩
/-- V6.1 from reset: the APPLY completes at the poll that sees the lock, and the host goes on. -/
theorem test_run_from_reset :
    nextIs (fun s => decide (s.pending = [] ∧ s.st = 0 ∧ s.pllFreq = 99999023 ∧ s.hw.pll.mult = 0x10AAA ∧ s.a = 7 ∧
        s.unheldRead = false ∧ s.inputs = []))
      (Host.Core.run Sys2Proof.core 5 (fromReset [.hw .lock 1, .writeA 7])) = true := by decide +kernel
theorem witness_HostAccessWhileBusyIsRefused :
    ∀ act ∈ [Action.writeA 0, .writeB 0, .writeF 0, .writePS intSet, .cmd 0x50],
      (waiting [act]).pending ≠ [] ∧ (waiting [act]).inputs = act :: [] ∧ act.byHost = true := by
  intro act h
  exact ⟨List.cons_ne_nil _ _, rfl, by fin_cases h <;> rfl⟩
theorem witness_ResetKeepsTheHardware : (waiting [.reset]).inputs = .reset :: [] := rfl
theorem witness_hwFits : HwFits Config.ref (toApply 0 true).hw := by
  unfold HwFits TreeFits
  decide
theorem witness_InvariantHoldsAfterReset : HwFits Config.ref (toApply 0 true).hw := witness_hwFits
theorem witness_SynthPseudoIssuesItsRequest :
    let s := { State.reset with inputs := (Pseudo.synth 12000000 100000000 true true).expand ++ [Action.cmd 0x50] }
    s.pending = [] ∧ s.inputs = (Pseudo.synth 12000000 100000000 true true).expand ++ [Action.cmd 0x50] := ⟨rfl, rfl⟩

/-! ### The orbit of family M under `REF` (V1.9), in stretches of 4000 steps -/

theorem test_orbitM_0 : orbitSearch Config.refM 1 4000 8192 = none ∧ lfsrIter Config.refM 4000 8192 = 15415 := by
  decide +kernel
theorem test_orbitM_1 : orbitSearch Config.refM 1 4000 15415 = none ∧ lfsrIter Config.refM 4000 15415 = 13567 := by
  decide +kernel
theorem test_orbitM_2 : orbitSearch Config.refM 1 4000 13567 = none ∧ lfsrIter Config.refM 4000 13567 = 2805 := by
  decide +kernel
theorem test_orbitM_3 : orbitSearch Config.refM 1 4000 2805 = none ∧ lfsrIter Config.refM 4000 2805 = 22397 := by
  decide +kernel
theorem test_orbitM_4 : orbitSearch Config.refM 1 4000 22397 = none ∧ lfsrIter Config.refM 4000 22397 = 21788 := by
  decide +kernel
theorem test_orbitM_5 : orbitSearch Config.refM 1 4000 21788 = none ∧ lfsrIter Config.refM 4000 21788 = 31813 := by
  decide +kernel
theorem test_orbitM_6 : orbitSearch Config.refM 1 4000 31813 = none ∧ lfsrIter Config.refM 4000 31813 = 27817 := by
  decide +kernel
theorem test_orbitM_7 : orbitSearch Config.refM 1 4000 27817 = none ∧ lfsrIter Config.refM 4000 27817 = 30542 := by
  decide +kernel
theorem test_orbitM_8 : orbitSearch Config.refM 1 766 30542 = some 3 := by decide +kernel

/-- A search that misses in its first `a` patterns goes on from there. -/
theorem orbitSearch_skip {c : FamilyCfg} {code a x : Nat} (b : Nat) (h : orbitSearch c code a x = none) :
    orbitSearch c code (a + b) x = orbitSearch c code b (lfsrIter c a x) := by
  induction a generalizing x with
  | zero => simp [lfsrIter]
  | succ a ih =>
    rw [orbitSearch] at h
    split at h
    · cases h
    · next hx => rw [Nat.succ_add, orbitSearch, if_neg hx, ih h, lfsrIter_step]

/-- One stretch of the orbit. -/
theorem orbitSearch_stretch {c : FamilyCfg} {code a x y : Nat} (b : Nat)
    (h : orbitSearch c code a x = none ∧ lfsrIter c a x = y) :
    orbitSearch c code (a + b) x = orbitSearch c code b y := by
  rw [orbitSearch_skip b h.1, h.2]

theorem test_orbitM_search : orbitSearch Config.refM 1 32766 8192 = some 3 :=
  (orbitSearch_stretch 28766 test_orbitM_0).trans <| (orbitSearch_stretch 24766 test_orbitM_1).trans <|
  (orbitSearch_stretch 20766 test_orbitM_2).trans <| (orbitSearch_stretch 16766 test_orbitM_3).trans <|
  (orbitSearch_stretch 12766 test_orbitM_4).trans <| (orbitSearch_stretch 8766 test_orbitM_5).trans <|
  (orbitSearch_stretch 4766 test_orbitM_6).trans <| (orbitSearch_stretch 766 test_orbitM_7).trans <|
  test_orbitM_8

theorem test_orbitM_last : lfsrIter Config.refM 32765 8192 = 1 := by
  obtain ⟨j, hj, hr, hc, -⟩ := orbitSearch_some _ _ test_orbitM_search
  rw [show j = 32765 by omega] at hc
  exact hc

theorem test_ref_famM : familyOk .m Config.ref.famM = true := by
  have hs : (familyShapeOk .m Config.refM && specialsDistinct Config.refM &&
      outsideOrbit .m Config.refM Config.refM.special0 && outsideOrbit .m Config.refM Config.refM.special1 &&
      outsideOrbit .m Config.refM Config.refM.special2) = true := by decide
  have ho : orbitDistinct .m Config.refM = true := by
    show decide (orbitSearch Config.refM (lfsrIter Config.refM 32765 8192) 32766 8192 = some 3) = true
    rw [test_orbitM_last, test_orbitM_search]
    rfl
  show (_ && orbitDistinct .m Config.refM) = true
  rw [ho, Bool.and_true]
  exact hs

/-- `REF` is admissible (V1.9). -/
theorem test_ref_admissible : admissible Config.ref = true := by
  simp only [admissible, test_ref_scalars, test_ref_graph, test_ref_famN, test_ref_famP, test_ref_famM]
  rfl

/-! ### Witnesses that need an admissible configuration -/

/-- In both modes, a multiplier inside its field and one outside it. -/
theorem witness_PackedSetHoldsTheSynthesis :
    admissible Config.ref = true ∧
      synthRaw Config.ref (req 4000 150000000 false false) = .ok (rawAt (req 4000 150000000 false false) 0) ∧
      32768 < (rawAt (req 4000 150000000 false false) 0).m ∧
      synthRaw Config.ref (req 12000000 1171875 false false) = .ok (rawAt (req 12000000 1171875 false false) 32) ∧
      (rawAt (req 12000000 1171875 false false) 32).m ≤ 32768 ∧
      synthRaw Config.ref (req 770999999 75000000 false true) = .ok (rawAt (req 770999999 75000000 false true) 0) ∧
      (rawAt (req 770999999 75000000 false true) 0).m < 2 ^ Config.ref.mdIntW :=
  ⟨test_ref_admissible, witness_synthRaw.2.1, by decide, witness_synthRaw.1, by decide,
    witness_synthRaw.2.2.2, by decide⟩
theorem witness_RateUndoesTheSynthesis :
    admissible Config.ref = true ∧
      synthRaw Config.ref (req 12000000 1171875 false false) = .ok (rawAt (req 12000000 1171875 false false) 32) ∧
      (req 12000000 1171875 false false).ss = false ∧ (rawAt (req 12000000 1171875 false false) 32).m ≤ 32768 :=
  ⟨test_ref_admissible, witness_synthRaw.1, rfl, by decide⟩

/-- A state that meets the invariant, with a valid slot, with and without an APPLY at its poll. -/
theorem inv_withSlot {steps : List ApplyStep} (acts : List Action) (h : steps <:+ (withSlot 0 0 2).applySteps) :
    Inv { withSlot 0 0 2 with pending := steps, inputs := acts } where
  cacheShape := ⟨rfl, fun _ => by show 1 < 2; decide⟩
  cacheKeys := withSlot_keysDistinct 0 0 2
  cacheFaithful := withSlot_faithful 0 0 2
  hwFits := by
    show HwFits Config.ref Hw.zero
    unfold HwFits TreeFits
    decide
  setsFit := by
    refine ⟨by show PSet.zero.fits Config.ref = true; decide, fun e he hv => ?_⟩
    have hs : e = (withSlot 0 0 0).sc[0] ∨ e = Slot.empty := by simpa [withSlot] using he
    rcases hs with rfl | rfl
    · show (pack Config.ref (rawAt (req 12000000 100000000 false true) 0) 0).fits Config.ref = true
      decide
    · exact absurd hv (by decide)
  statusLegal := by show (0#3).toNat ≤ 5; decide
  pendingLegal := h

theorem witness_EveryStepKeepsTheInvariant :
    admissible (withSlot 0 0 2).cfg = true ∧ Inv { withSlot 0 0 2 with pending := [], inputs := [.writeA 1] } ∧
      (∃ t, step { withSlot 0 0 2 with pending := [], inputs := [.writeA 1] } = .next t) ∧
      Inv { withSlot 0 0 2 with pending := [.poll, .memo, .status], inputs := [.instant] } ∧
      ∃ t, step { withSlot 0 0 2 with pending := [.poll, .memo, .status], inputs := [.instant] } = .next t :=
  ⟨test_ref_admissible, inv_withSlot _ List.nil_suffix, ⟨_, rfl⟩, inv_withSlot _ (by decide), ⟨_, rfl⟩⟩

end Sys2Proof.Tests
end

section
/-! SUPPORT. What the state after reset holds, and what a step does with the actions that run no command. -/

namespace Sys2Proof.Machine

/-! ### The state after reset -/

theorem State.initial_slot_invalid {cfg : Config} {hw : Hw} {e : Slot} (h : e ∈ (State.initial cfg hw).sc) :
    e.valid = false := by
  have he : e = Slot.empty := List.eq_of_mem_replicate h
  rw [he]
  rfl

theorem State.initial_sc_length (cfg : Config) (hw : Hw) : (State.initial cfg hw).sc.length = cfg.cacheCap :=
  List.length_replicate

theorem State.initial_held_has (cfg : Config) (hw : Hw) (reg : HostReg) :
    (State.initial cfg hw).held.has reg = false := by
  cases reg <;> rfl

/-! ### The step -/

/-- The reset event is taken alike whether or not a command runs (R163, R190). -/
theorem step_reset {s : State} {rest : List Action} (hi : s.inputs = .reset :: rest) :
    step s = .next ({ s with inputs := rest } : State).afterReset := by
  by_cases hp : s.pending = []
  · rw [step_action hp hi]
    rfl
  · rw [step_action_busy hp hi]
    rfl

/-- A write of a command's code to `CMD` runs the command on the state that notes which operands it lacks. -/
theorem step_command {s : State} {code : Byte} {rest : List Action} {i : Instr} (hp : s.pending = [])
    (hi : s.inputs = .cmd code :: rest) (hd : decode code = .ok i) :
    step s = exec i (({ s with inputs := rest } : State).noteOperands i) := by
  rw [step_action hp hi]
  simp [takeAction, issue, hd]

theorem State.noteOperands_of_held {s : State} {i : Instr} (h : s.operandsHeld i = true) : s.noteOperands i = s := by
  simp [State.noteOperands, h]

theorem State.noteOperands_of_unheld {s : State} {i : Instr} (h : s.operandsHeld i = false) :
    s.noteOperands i = { s with unheldRead := true } := by
  simp [State.noteOperands, h]

theorem State.operandsHeld_eq_false_iff {s : State} {i : Instr} :
    s.operandsHeld i = false ↔ ∃ reg ∈ operandRegs i, s.held.has reg = false := by
  simp [State.operandsHeld]

/-! ### The codec commands, by family -/

theorem exec_encOf (fam : Family) (s : State) : exec (encOf fam) s = encodeCommand fam s := by
  cases fam <;> rfl

theorem exec_decOf (fam : Family) (s : State) : exec (decOf fam) s = decodeCommand fam s := by
  cases fam <;> rfl

end Sys2Proof.Machine
end

section
/-! SUPPORT. What the checks of admissibility and of fitting fields say, one `↔` each, and that every code and every
packed set fits its fields. -/

namespace Sys2Proof.Machine

/-! ### The checks -/

theorem familyShapeOk_iff {fam : Family} {c : FamilyCfg} :
    familyShapeOk fam c = true ↔
      1 ≤ c.len ∧ c.len ≤ fam.width ∧ c.taps ≠ [] ∧ c.taps.Nodup ∧ (∀ t ∈ c.taps, t < c.len) ∧ c.seed < 2 ^ c.len ∧
        c.special0 < 2 ^ fam.width ∧ c.special1 < 2 ^ fam.width ∧ c.special2 < 2 ^ fam.width := by
  simp [familyShapeOk, and_assoc]

theorem familyShapeOk_of_familyOk {fam : Family} {c : FamilyCfg} (h : familyOk fam c = true) :
    familyShapeOk fam c = true := by
  simp only [familyOk, Bool.and_eq_true, and_assoc] at h
  exact h.1

theorem scalarsOk_iff {cfg : Config} :
    scalarsOk cfg = true ↔
      5 ≤ cfg.selPW ∧ cfg.selPW ≤ 8 ∧ cfg.selIW ≤ 8 ∧ cfg.selRW ≤ 8 ∧ cfg.seliMax < 2 ^ cfg.selIW ∧
        0 < cfg.ssRefHz ∧ cfg.forceMaxMult < 2 ^ cfg.multW := by
  simp [scalarsOk, and_assoc]

theorem admissible_iff {cfg : Config} :
    admissible cfg = true ↔
      scalarsOk cfg = true ∧ graphOk cfg.graph = true ∧ ∀ fam, familyOk fam (cfg.family fam) = true := by
  have hfam : (∀ fam, familyOk fam (cfg.family fam) = true) ↔
      familyOk .n cfg.famN = true ∧ familyOk .p cfg.famP = true ∧ familyOk .m cfg.famM = true :=
    ⟨fun h => ⟨h .n, h .p, h .m⟩, fun ⟨hn, hp, hm⟩ fam => by cases fam <;> assumption⟩
  simp [admissible, hfam, and_assoc]

theorem PSet.fits_iff {cfg : Config} {p : PSet} :
    p.fits cfg = true ↔
      p.mult < 2 ^ cfg.multW ∧ p.selP < 2 ^ cfg.selPW ∧ p.selI < 2 ^ cfg.selIW ∧ p.selR < 2 ^ cfg.selRW := by
  simp [PSet.fits, and_assoc]

theorem HwField.admits_of_width {cfg : Config} {x : HwField} {v w : Nat} (hx : x.width cfg = some w)
    (hv : v < 2 ^ w) : x.admits cfg v = true := by
  simp [HwField.admits, hx, hv]

theorem HwField.lt_of_admits {cfg : Config} {x : HwField} {v w : Nat} (hx : x.width cfg = some w)
    (h : x.admits cfg v = true) : v < 2 ^ w := by
  simpa [HwField.admits, hx] using h

/-- A request bit or a flag is a value of a field of one bit. -/
theorem HwField.admits_bit {cfg : Config} {x : HwField} (hx : x.width cfg = some 1) (b : Bool) :
    x.admits cfg b.toNat = true :=
  HwField.admits_of_width hx b.toNat_lt

/-! ### The codes fit their fields -/

theorem feedback_lt_two (taps : List Nat) (x : Nat) : feedback taps x < 2 := by
  induction taps with
  | nil => exact Nat.two_pos
  | cons t rest ih => exact Nat.xor_lt_two_pow (n := 1) (Nat.and_lt_two_pow _ Nat.one_lt_two) ih

/-- A step stays within the register length (R72). -/
theorem lfsrStep_lt {c : FamilyCfg} {x : Nat} (hlen : 1 ≤ c.len) (hx : x < 2 ^ c.len) :
    lfsrStep c x < 2 ^ c.len := by
  have hhigh : feedback c.taps x <<< (c.len - 1) < 2 ^ c.len := by
    rw [Nat.shiftLeft_eq]
    calc feedback c.taps x * 2 ^ (c.len - 1) < 2 * 2 ^ (c.len - 1) :=
          Nat.mul_lt_mul_of_pos_right (feedback_lt_two _ _) (Nat.two_pow_pos _)
      _ = 2 ^ c.len := by rw [← Nat.pow_succ', Nat.succ_eq_add_one, Nat.sub_add_cancel hlen]
  exact Nat.or_lt_two_pow hhigh ((Nat.shiftRight_le x 1).trans_lt hx)

theorem lfsrIter_lt {c : FamilyCfg} {x : Nat} (hlen : 1 ≤ c.len) (hx : x < 2 ^ c.len) (k : Nat) :
    lfsrIter c k x < 2 ^ c.len := by
  induction k with
  | zero => exact hx
  | succ k ih => exact lfsrStep_lt hlen ih

/-- Every code fits the field of its family (R72, R73). -/
theorem encodeDivider_lt {cfg : Config} {fam : Family} (h : familyShapeOk fam (cfg.family fam) = true) (raw : Nat) :
    encodeDivider cfg fam raw < 2 ^ fam.width := by
  obtain ⟨hlen, hwidth, -, -, -, hseed, h0, h1, h2⟩ := familyShapeOk_iff.1 h
  match raw with
  | 0 => exact h0
  | 1 => exact h1
  | 2 => exact h2
  | raw + 3 =>
    rw [encodeDivider_of_ge cfg fam (Nat.le_add_left 3 raw)]
    exact (lfsrIter_lt hlen hseed _).trans_le (Nat.pow_le_pow_right Nat.two_pos hwidth)

/-! ### The packed set fits its fields -/

/-- A synthesis that succeeds is the search's result for the post-divider found (R105). -/
theorem synthRaw_ok {cfg : Config} {k : Key} {raw : SynthRaw} (h : synthRaw cfg k = .ok raw) :
    ∃ p, postDivSearch k.fout.toNat = some p ∧ raw = synthAt cfg k p := by
  have hs : synthSearch cfg k = .ok raw := by
    unfold synthRaw at h
    split_ifs at h <;> exact h
  unfold synthSearch at hs
  cases hp : postDivSearch k.fout.toNat with
  | none => simp [hp] at hs
  | some p => exact ⟨p, rfl, by simpa [hp] using hs.symm⟩

/-- The fraction has at most `FRAC_W` bits (R111); a zero divisor gives 0. -/
theorem synthAt_frac_lt (cfg : Config) (k : Key) (p : Nat) : (synthAt cfg k p).frac < 2 ^ fracW := by
  simp only [synthAt, fracW]
  split
  · generalize feedbackFactor k.fb2 * _ = d
    rcases Nat.eq_zero_or_pos d with rfl | hd
    · simp
    · rw [Nat.div_lt_iff_lt_mul hd, Nat.mul_comm]
      exact Nat.mul_lt_mul_of_pos_left (Nat.mod_lt _ hd) (by norm_num)
  · norm_num

theorem packMult_lt {cfg : Config} {raw : SynthRaw} (hm : familyShapeOk .m cfg.famM = true)
    (hfrac : raw.frac < 2 ^ fracW) (draw : Nat) : packMult cfg raw draw < 2 ^ cfg.multW := by
  have hcode : 2 ^ 17 ≤ 2 ^ cfg.multW := Nat.pow_le_pow_right Nat.two_pos (Nat.le_max_left _ _)
  have hmd : 2 ^ (cfg.mdIntW + fracW) ≤ 2 ^ cfg.multW := Nat.pow_le_pow_right Nat.two_pos (Nat.le_max_right _ _)
  unfold packMult
  split
  · split
    · exact (Config.freeBits cfg.multW draw).isLt
    · next hss hfit =>
      have hmul : raw.m < 2 ^ cfg.mdIntW := by simpa [multOverflows, hss] using hfit
      have hshift : raw.m <<< fracW < 2 ^ (cfg.mdIntW + fracW) := by
        rw [Nat.shiftLeft_eq, Nat.pow_add]
        exact Nat.mul_lt_mul_of_pos_right hmul (Nat.two_pow_pos _)
      exact (Nat.or_lt_two_pow hshift (hfrac.trans_le (Nat.pow_le_pow_right Nat.two_pos
        (Nat.le_add_left _ _)))).trans_le hmd
  · split
    · exact (Config.freeBits 17 draw).isLt.trans_le hcode
    · exact (encodeDivider_lt (fam := .m) hm raw.m).trans_le hcode

theorem filterP_le (me : Nat) : filterP me ≤ 31 := by
  unfold filterP selPSat
  split <;> omega

theorem packFilter_fits {cfg : Config} (h : scalarsOk cfg = true) (raw : SynthRaw) :
    (packFilter cfg raw).selP < 2 ^ cfg.selPW ∧ (packFilter cfg raw).selI < 2 ^ cfg.selIW ∧
      (packFilter cfg raw).selR < 2 ^ cfg.selRW := by
  obtain ⟨hselP, -, -, -, hseli, -, -⟩ := scalarsOk_iff.1 h
  unfold packFilter
  split
  · exact ⟨Nat.two_pow_pos _, Nat.two_pow_pos _, Nat.two_pow_pos _⟩
  · have hp : 2 ^ 5 ≤ 2 ^ cfg.selPW := Nat.pow_le_pow_right Nat.two_pos hselP
    exact ⟨(Nat.lt_succ_of_le (filterP_le _)).trans_le hp, (Nat.min_le_right _ _).trans_lt hseli,
      Nat.two_pow_pos _⟩

/-- Packing a synthesis gives a set whose fields fit, whatever is drawn for `mult` (R110, R111, R118). -/
theorem pack_fits {cfg : Config} {k : Key} {raw : SynthRaw} (ha : admissible cfg = true)
    (h : synthRaw cfg k = .ok raw) (draw : Nat) : (pack cfg raw draw).fits cfg = true := by
  obtain ⟨hscalars, -, hfam⟩ := admissible_iff.1 ha
  obtain ⟨p, -, rfl⟩ := synthRaw_ok h
  exact PSet.fits_iff.2
    ⟨packMult_lt (familyShapeOk_of_familyOk (hfam .m)) (synthAt_frac_lt cfg k p) draw, packFilter_fits hscalars _⟩

end Sys2Proof.Machine
end

section
/-! SUPPORT. Every write of a value that fits keeps the fields of `HW` within their widths, and every event of an APPLY
is such a write. -/

namespace Sys2Proof.Machine

theorem Memory.mem_put {id v : Nat} {rest : Memory} {e : Nat × Nat} (h : e ∈ Memory.put id v rest) :
    e = (id, v) ∨ e ∈ rest := by
  unfold Memory.put at h
  split at h
  · exact .inr h
  · exact List.mem_cons.1 h

/-- A pair of the list after a write is the one written or was there before. -/
theorem Memory.mem_write {id v : Nat} {t : Memory} {e : Nat × Nat} (h : e ∈ Memory.write t id v) :
    e = (id, v) ∨ e ∈ t := by
  induction t with
  | nil => exact Memory.mem_put h
  | cons head rest ih =>
    simp only [Memory.write] at h
    split_ifs at h
    · exact Memory.mem_put h
    · exact (Memory.mem_put h).imp_right (List.mem_cons_of_mem _)
    · rcases List.mem_cons.1 h with rfl | hrest
      · exact .inr List.mem_cons_self
      · exact (ih hrest).imp_right (List.mem_cons_of_mem _)

theorem TreeFits.write {cfg : Config} {t : Memory} {id v : Nat} (h : TreeFits cfg t)
    (hv : (HwField.tree id).admits cfg v = true) : TreeFits cfg (Memory.write t id v) := by
  refine ⟨Memory.write_wf h.1, fun e he => ?_⟩
  rcases Memory.mem_write he with rfl | ht
  · exact hv
  · exact h.2 e ht

/-- A FieldWrite of a value that fits keeps every field within its width (R39). -/
theorem Hw.write_fits {cfg : Config} {hw : Hw} {x : HwField} {v : Nat} (h : HwFits cfg hw)
    (hv : x.admits cfg v = true) : HwFits cfg (hw.write x v) := by
  obtain ⟨hmult, hselP, hselI, hselR, htree⟩ := h
  cases x with
  | mult => exact ⟨HwField.lt_of_admits rfl hv, hselP, hselI, hselR, htree⟩
  | selP => exact ⟨hmult, HwField.lt_of_admits rfl hv, hselI, hselR, htree⟩
  | selI => exact ⟨hmult, hselP, HwField.lt_of_admits rfl hv, hselR, htree⟩
  | selR => exact ⟨hmult, hselP, hselI, HwField.lt_of_admits rfl hv, htree⟩
  | tree id => exact ⟨hmult, hselP, hselI, hselR, htree.write hv⟩
  | ndec | pdec | directI | directO | bypass | fbdiv2 | ssen | nreq | preq | mreq | lock =>
    exact ⟨hmult, hselP, hselI, hselR, htree⟩

/-- What an event writes fits the fields it writes; an event that writes no field of `HW` passes. -/
def Event.fits (cfg : Config) : Event → Bool
  | .fieldWrite x v => x.admits cfg v
  | .pairWrite x v req b => x.admits cfg v && req.admits cfg b.toNat
  | .pdEnable _ => true
  | .pdDisable _ => true
  | .pdSetVoltage _ => true
  | .delay _ => true
  | .fieldRead _ _ => true
  | .memoWrite _ => true
  | .statusWrite _ => true

theorem Event.onHw_fits {cfg : Config} {hw : Hw} {e : Event} (h : HwFits cfg hw) (he : e.fits cfg = true) :
    HwFits cfg (e.onHw hw) := by
  cases e with
  | fieldWrite x v => exact Hw.write_fits h he
  | pairWrite x v req b =>
    obtain ⟨hx, hreq⟩ : x.admits cfg v = true ∧ req.admits cfg b.toNat = true := Bool.and_eq_true_iff.1 he
    exact Hw.write_fits (Hw.write_fits h hx) hreq
  | pdEnable | pdDisable | pdSetVoltage | delay | fieldRead | memoWrite | statusWrite => exact h

theorem Event.fieldWrite_fits {cfg : Config} {x : HwField} {v w : Nat} (hx : x.width cfg = some w) (hv : v < 2 ^ w) :
    (Event.fieldWrite x v).fits cfg = true :=
  HwField.admits_of_width hx hv

/-- A pair write fits when its value does (R152). -/
theorem Event.pairWrite_fits {cfg : Config} {x req : HwField} {v : Nat} (hx : x.admits cfg v = true)
    (hreq : req.width cfg = some 1) (b : Bool) : (Event.pairWrite x v req b).fits cfg = true :=
  Bool.and_eq_true_iff.2 ⟨hx, HwField.admits_bit hreq b⟩

section
variable {cfg : Config} {ps : PSet} (hps : ps.fits cfg = true)
include hps

theorem controlWrites_fit : ∀ e ∈ controlWrites ps, e.fits cfg = true := by
  obtain ⟨-, hselP, hselI, hselR⟩ := PSet.fits_iff.1 hps
  simp only [controlWrites, List.forall_mem_cons]
  exact ⟨Event.fieldWrite_fits rfl hselR, Event.fieldWrite_fits rfl hselI, Event.fieldWrite_fits rfl hselP,
    Event.fieldWrite_fits rfl ps.bypass.toNat_lt, Event.fieldWrite_fits rfl ps.fbdiv2.toNat_lt,
    Event.fieldWrite_fits rfl ps.directI.toNat_lt, Event.fieldWrite_fits rfl ps.directO.toNat_lt,
    Event.fieldWrite_fits rfl ps.ssEnabled.toNat_lt, List.forall_mem_nil _⟩

theorem mult_admits_of_fits : HwField.mult.admits cfg ps.mult = true :=
  HwField.admits_of_width rfl (PSet.fits_iff.1 hps).1

theorem dividerWrites_fit : ∀ e ∈ dividerWrites ps, e.fits cfg = true := by
  have hlatch : ∀ {x req : HwField} {v : Nat}, x.admits cfg v = true → req.width cfg = some 1 →
      ∀ e ∈ latchWrite x req v, e.fits cfg = true := fun hx hreq => by
    simp only [latchWrite, List.forall_mem_cons]
    exact ⟨Event.pairWrite_fits hx hreq _, Event.pairWrite_fits hx hreq _, List.forall_mem_nil _⟩
  simp only [dividerWrites, List.forall_mem_append]
  exact ⟨⟨hlatch (HwField.admits_of_width rfl ps.ndec.isLt) rfl, hlatch (HwField.admits_of_width rfl ps.pdec.isLt) rfl⟩,
    hlatch (mult_admits_of_fits hps) rfl⟩

variable (hforce : cfg.forceMaxMult < 2 ^ cfg.multW)
include hforce

theorem bringUpPulse_fit : ∀ e ∈ bringUpPulse cfg ps, e.fits cfg = true := by
  have hmax : HwField.mult.admits cfg cfg.forceMaxMult = true := HwField.admits_of_width rfl hforce
  have hset := mult_admits_of_fits hps
  simp only [bringUpPulse, List.forall_mem_cons]
  exact ⟨Event.pairWrite_fits hmax rfl _, rfl, Event.pairWrite_fits hmax rfl _, rfl, Event.pairWrite_fits hset rfl _,
    Event.pairWrite_fits hset rfl _, List.forall_mem_nil _⟩

/-- Every write APPLY makes fits its field, `FORCE_MAX_MULT` included (R152, R153, R155). -/
theorem applyEvents_fit (pulse : Bool) : ∀ e ∈ applyEvents cfg ps pulse, e.fits cfg = true := by
  simp only [applyEvents, List.forall_mem_append]
  refine ⟨⟨⟨fun e he => by rw [List.mem_singleton.1 he]; rfl, controlWrites_fit hps⟩, dividerWrites_fit hps⟩, ?_⟩
  cases pulse with
  | true => exact bringUpPulse_fit hps hforce
  | false => exact List.forall_mem_nil _

end

/-- The events among the steps of an APPLY are those of steps 1 to 3. -/
theorem event_mem_applySteps {cfg : Config} {ps : PSet} {pu wl av : Bool} {e : Event}
    (h : .event e ∈ applySteps cfg ps pu wl av) : e ∈ applyEvents cfg ps (pu || wl) := by
  cases wl <;> cases av <;> simpa [applySteps] using h

end Sys2Proof.Machine
end

section
/-! SUPPORT. What keeps the invariant: the frame of a change that leaves the fields it speaks of, the cache's store, the
commands, the steps of APPLY, and the actions of the outside world. -/

namespace Sys2Proof.Machine

/-! ### Keeping the invariant -/

/-- What a step from `s` to `t` has to give: the invariant, the same configuration, a mark that is not taken back. -/
structure Kept (s t : State) : Prop where
  inv : Inv t
  cfg : t.cfg = s.cfg
  mark : s.unheldRead = true → t.unheldRead = true

theorem Kept.refl {s : State} (h : Inv s) : Kept s s := ⟨h, rfl, id⟩

theorem Kept.trans {s t u : State} (h : Kept s t) (h' : Kept t u) : Kept s u :=
  ⟨h'.inv, h'.cfg.trans h.cfg, h'.mark ∘ h.mark⟩

/-- The steps of an APPLY depend on the configuration, the set in `PS` and the flags in `F` alone. -/
theorem State.applySteps_congr {s t : State} (hcfg : t.cfg = s.cfg) (hps : t.ps = s.ps) (hf : t.f = s.f) :
    t.applySteps = s.applySteps := by
  simp only [State.applySteps, State.powerUp, State.waitForLock, State.adjustVoltage, State.flag, hcfg, hps, hf]

/-- Where the ring and the cursor are as before, the invariant asks only for what the other fields hold. -/
theorem Inv.update {s t : State} (h : Inv s) (hcfg : t.cfg = s.cfg) (hsc : t.sc = s.sc) (hcur : t.scCur = s.scCur)
    (hhw : HwFits s.cfg t.hw) (hps : t.ps.fits s.cfg = true) (hst : t.st.toNat ≤ 5)
    (hpending : t.pending <:+ t.applySteps) : Inv t where
  cacheShape := by unfold CacheShape; rw [hcfg, hsc, hcur]; exact h.cacheShape
  cacheKeys := by unfold CacheKeysDistinct; rw [hsc]; exact h.cacheKeys
  cacheFaithful := by unfold CacheFaithful; rw [hcfg, hsc]; exact h.cacheFaithful
  hwFits := by rw [hcfg]; exact hhw
  setsFit := by unfold SetsFit; rw [hcfg, hsc]; exact ⟨hps, h.setsFit.2⟩
  statusLegal := hst
  pendingLegal := hpending

/-- Where no command runs, nothing is still to do, whatever `PS` and `F` hold. -/
theorem pending_legal_of_idle {t : State} (h : t.pending = []) : t.pending <:+ t.applySteps :=
  h ▸ List.nil_suffix

/-- What a change leaves alone that touches nothing the invariant speaks of but `ST`. -/
structure Frame (s t : State) : Prop where
  cfg : t.cfg = s.cfg := by rfl
  f : t.f = s.f := by rfl
  ps : t.ps = s.ps := by rfl
  sc : t.sc = s.sc := by rfl
  scCur : t.scCur = s.scCur := by rfl
  hw : t.hw = s.hw := by rfl
  pending : t.pending = s.pending := by rfl
  unheldRead : t.unheldRead = s.unheldRead := by rfl

theorem Frame.kept {s t : State} (h : Frame s t) (hi : Inv s) (hst : t.st.toNat ≤ 5) : Kept s t where
  inv := hi.update h.cfg h.sc h.scCur (h.hw ▸ hi.hwFits) (h.ps ▸ hi.setsFit.1) hst (by
    rw [h.pending, State.applySteps_congr h.cfg h.ps h.f]
    exact hi.pendingLegal)
  cfg := h.cfg
  mark := fun hs => h.unheldRead.trans hs

theorem ErrKind.code_le (k : ErrKind) : k.code.toNat ≤ 5 := by cases k <;> decide

theorem successCode_le : successCode.toNat ≤ 5 := by decide

/-! ### The reset state -/

/-- The invariant holds after reset, whatever `HW` holds that fits. -/
theorem inv_initial {cfg : Config} {hw : Hw} (h : HwFits cfg hw) : Inv (State.initial cfg hw) := by
  have hinvalid : ∀ e ∈ (State.initial cfg hw).sc, e.valid ≠ true :=
    fun e he => by simp [State.initial_slot_invalid he]
  exact
    { cacheShape := ⟨State.initial_sc_length cfg hw, id⟩
      cacheKeys := fun i _ hi _ hv => absurd hv (hinvalid _ (List.getElem_mem hi))
      cacheFaithful := fun e he hv => absurd hv (hinvalid e he)
      hwFits := h
      setsFit :=
        ⟨PSet.fits_iff.2 ⟨Nat.two_pow_pos _, Nat.two_pow_pos _, Nat.two_pow_pos _, Nat.two_pow_pos _⟩,
          fun e he hv => absurd hv (hinvalid e he)⟩
      statusLegal := Nat.zero_le 5
      pendingLegal := List.nil_suffix }

theorem afterReset_kept {s : State} (hi : Inv s) : Kept s s.afterReset where
  inv := (inv_initial hi.hwFits).update rfl rfl rfl hi.hwFits (inv_initial hi.hwFits).setsFit.1 (Nat.zero_le 5)
    List.nil_suffix
  cfg := rfl
  mark := id

/-! ### The cache and the synthesizer -/

section
variable {s : State}

theorem execSynth_of_ok {raw : SynthRaw} (h : synthRaw s.cfg s.request = .ok raw) :
    execSynth s = .next (s.deliver (pack s.cfg raw s.draws) (packDraws s.cfg raw)) := by simp [execSynth, h]

theorem execSynth_of_err {kind : ErrKind} (h : synthRaw s.cfg s.request = .err kind) :
    execSynth s = .next (s.fail kind) := by simp [execSynth, h]

theorem execSynth_of_zero (h : synthRaw s.cfg s.request = .ssPreDividerZero) :
    execSynth s = .refused .ssPreDividerZero := by simp [execSynth, h]

theorem cacheMiss_of_ok {raw : SynthRaw} (h : synthRaw s.cfg s.request = .ok raw) :
    cacheMiss s = .next ((s.cacheStore s.request (pack s.cfg raw s.draws)).deliver (pack s.cfg raw s.draws)
      (packDraws s.cfg raw)) := by simp [cacheMiss, h]

theorem cacheMiss_of_err {kind : ErrKind} (h : synthRaw s.cfg s.request = .err kind) :
    cacheMiss s = .next (s.fail kind) := by simp [cacheMiss, h]

theorem cacheMiss_of_zero (h : synthRaw s.cfg s.request = .ssPreDividerZero) :
    cacheMiss s = .refused .ssPreDividerZero := by simp [cacheMiss, h]

theorem execCsynth_of_hit {e : Slot} (h : cacheFind s.sc s.request = some e) :
    execCsynth s = .next (s.deliver e.val 0) := by simp [execCsynth, h]

theorem execCsynth_of_miss (h : cacheFind s.sc s.request = none) : execCsynth s = cacheMiss s := by
  simp [execCsynth, h]

end

/-- Everything a store can do (R123, R126). -/
theorem State.cacheStore_cases (s : State) (k : Key) (pset : PSet) :
    (s.cfg.cacheCap = 0 ∧ s.cacheStore k pset = s) ∨
      (0 < s.cfg.cacheCap ∧ s.cacheStore k pset =
        { s with
          sc := s.sc.set s.scCur { valid := true, key := k, val := pset }
          scCur := (s.scCur + 1) % s.cfg.cacheCap }) := by
  unfold State.cacheStore
  split
  · next h => exact .inl ⟨h, rfl⟩
  · next h => exact .inr ⟨Nat.pos_of_ne_zero h, rfl⟩

/-- A ring with distinct keys stays so when a key that no valid slot has is stored (R33 (a)). -/
theorem CacheKeysDistinct.set {s : State} {n : Nat} {e : Slot} (h : CacheKeysDistinct s)
    (hnew : ∀ d ∈ s.sc, d.valid = true → d.key ≠ e.key) : CacheKeysDistinct { s with sc := s.sc.set n e } := by
  intro i j hi hj vi vj hkey
  simp only [List.length_set] at hi hj
  simp only [List.getElem_set] at vi vj hkey
  by_cases hni : n = i <;> by_cases hnj : n = j
  · exact hni.symm.trans hnj
  · rw [if_neg hnj] at vj
    rw [if_pos hni, if_neg hnj] at hkey
    exact absurd hkey.symm (hnew _ (List.getElem_mem hj) vj)
  · rw [if_neg hni] at vi
    rw [if_neg hni, if_pos hnj] at hkey
    exact absurd hkey (hnew _ (List.getElem_mem hi) vi)
  · rw [if_neg hni] at vi
    rw [if_neg hnj] at vj
    rw [if_neg hni, if_neg hnj] at hkey
    exact h i j hi hj vi vj hkey

/-- Storing the synthesis of a key that the cache misses keeps the invariant (R33, R123). -/
theorem cacheStore_kept {s : State} {k : Key} {raw : SynthRaw} {draw : Nat} (hi : Inv s)
    (hmiss : cacheFind s.sc k = none) (hraw : synthRaw s.cfg k = .ok raw)
    (hfits : (pack s.cfg raw draw).fits s.cfg = true) : Kept s (s.cacheStore k (pack s.cfg raw draw)) := by
  rcases s.cacheStore_cases k (pack s.cfg raw draw) with ⟨-, heq⟩ | ⟨hcap, heq⟩
  · rw [heq]
    exact Kept.refl hi
  · rw [heq]
    refine ⟨⟨?shape, ?keys, ?faithful, hi.hwFits, ⟨hi.setsFit.1, ?sets⟩, hi.statusLegal, hi.pendingLegal⟩, rfl, id⟩
    case shape => exact ⟨List.length_set.trans hi.cacheShape.1, fun _ => Nat.mod_lt _ hcap⟩
    case keys => exact hi.cacheKeys.set (cacheFind_none.1 hmiss)
    case faithful =>
      intro e he hv
      rcases List.mem_or_eq_of_mem_set he with hold | rfl
      · exact hi.cacheFaithful e hold hv
      · exact ⟨raw, draw, hraw, rfl⟩
    case sets =>
      intro e he hv
      rcases List.mem_or_eq_of_mem_set he with hold | rfl
      · exact hi.setsFit.2 e hold hv
      · exact hfits

/-- Delivering a set that fits keeps the invariant where no command runs. -/
theorem deliver_kept {s : State} {p : PSet} (hi : Inv s) (hidle : s.pending = []) (hp : p.fits s.cfg = true)
    (drawn : Nat) : Kept s (s.deliver p drawn) :=
  ⟨hi.update rfl rfl rfl hi.hwFits hp successCode_le (pending_legal_of_idle hidle), rfl, id⟩

theorem fail_kept {s : State} (hi : Inv s) (kind : ErrKind) : Kept s (s.fail kind) :=
  Frame.kept {} hi kind.code_le

section
variable {s t : State} (ha : admissible s.cfg = true) (hi : Inv s) (hidle : s.pending = [])
include ha hi hidle

theorem execSynth_kept (h : execSynth s = .next t) : Kept s t := by
  rcases execSynth_cases s with ⟨raw, hraw, heq⟩ | ⟨kind, -, heq⟩ | ⟨-, heq⟩ <;> cases heq.symm.trans h
  · exact deliver_kept hi hidle (pack_fits ha hraw _) _
  · exact fail_kept hi kind

theorem cacheMiss_kept (hmiss : cacheFind s.sc s.request = none) (h : cacheMiss s = .next t) : Kept s t := by
  cases hraw : synthRaw s.cfg s.request with
  | ok raw =>
    cases (cacheMiss_of_ok hraw).symm.trans h
    have hfits := pack_fits ha hraw s.draws
    have hstore := cacheStore_kept hi hmiss hraw hfits
    have hidle' : (s.cacheStore s.request (pack s.cfg raw s.draws)).pending = [] := by
      rcases s.cacheStore_cases s.request (pack s.cfg raw s.draws) with ⟨-, heq⟩ | ⟨-, heq⟩ <;> rw [heq] <;> exact hidle
    exact hstore.trans (deliver_kept hstore.inv hidle' (by rw [hstore.cfg]; exact hfits) _)
  | err kind =>
    cases (cacheMiss_of_err hraw).symm.trans h
    exact fail_kept hi kind
  | ssPreDividerZero => cases (cacheMiss_of_zero hraw).symm.trans h

theorem execCsynth_kept (h : execCsynth s = .next t) : Kept s t := by
  rcases execCsynth_cases s with ⟨e, hfind, heq⟩ | ⟨hmiss, heq⟩
  · obtain ⟨hmem, hvalid, -⟩ := cacheFind_some hfind
    cases heq.symm.trans h
    exact deliver_kept hi hidle (hi.setsFit.2 e hmem hvalid) _
  · exact cacheMiss_kept ha hi hidle hmiss (heq.symm.trans h)

end

/-! ### The commands that only compute -/

theorem encodeCommand_frame {fam : Family} {s t : State} (h : encodeCommand fam s = .next t) :
    Frame s t ∧ t.st = successCode := by
  cases h
  exact ⟨{}, rfl⟩

theorem decodeCommand_frame {fam : Family} {s t : State} (h : decodeCommand fam s = .next t) :
    Frame s t ∧ t.st = successCode := by
  cases h
  exact ⟨{}, rfl⟩

theorem execFreqAt_frame {s t : State} (h : execFreqAt s = .next t) : Frame s t ∧ t.st = successCode := by
  unfold execFreqAt at h
  split at h
  · cases h
  · split at h <;> cases h
    exact ⟨{}, rfl⟩

theorem execPllRate_frame {s t : State} (h : execPllRate s = .next t) : Frame s t ∧ t.st = successCode := by
  unfold execPllRate at h
  split at h <;> cases h
  exact ⟨{}, rfl⟩

theorem execPllOut_frame {s t : State} (h : execPllOut s = .next t) : Frame s t ∧ t.st = successCode := by
  unfold execPllOut at h
  split at h
  · split at h <;> cases h
    exact ⟨{}, rfl⟩
  · cases h
    exact ⟨{}, rfl⟩

/-- A command other than SYNTH, CSYNTH and APPLY succeeds where it completes, and leaves `PS`, the cache, `HW` and what
is still to do alone. -/
theorem exec_frame {i : Instr} {s t : State} (hs : i ≠ .synth) (hc : i ≠ .csynth) (ha : i ≠ .apply)
    (h : exec i s = .next t) : Frame s t ∧ t.st = successCode := by
  cases i with
  | encN | encP | encM => exact encodeCommand_frame h
  | decN | decP | decM => exact decodeCommand_frame h
  | selfilt => cases h; exact ⟨{}, rfl⟩
  | synth => exact absurd rfl hs
  | csynth => exact absurd rfl hc
  | freqAt => exact execFreqAt_frame h
  | pllRate => exact execPllRate_frame h
  | pllOut => exact execPllOut_frame h
  | pllRatePs => cases h; exact ⟨{}, rfl⟩
  | apply => exact absurd rfl ha

/-! ### The steps of APPLY -/

/-- A step of APPLY leaves `ST` alone or sets it to Success. -/
theorem performStep_st {x : ApplyStep} {s t : State} (h : performStep x s = .next t) :
    t.st = s.st ∨ t.st = successCode := by
  cases x with
  | event e => cases h; exact .inl rfl
  | poll => cases h; exact .inl rfl
  | memo =>
    cases hp : pllInput s.cfg s.hw with
    | none => cases (performStep_memo_of_none hp).symm.trans h
    | some fin =>
      cases (performStep_memo_of_some hp).symm.trans h
      exact .inl (by simp [State.performAll_eq])
  | voltage => cases h; exact .inl rfl
  | status => cases h; exact .inr rfl

/-- One of the steps of an APPLY of the set in `PS` keeps the invariant and the steps themselves. -/
theorem performStep_kept {x : ApplyStep} {s t : State} (ha : admissible s.cfg = true) (hi : Inv s)
    (hx : x ∈ s.applySteps) (h : performStep x s = .next t) : Kept s t ∧ t.applySteps = s.applySteps := by
  have hst : t.st.toNat ≤ 5 := by
    rcases performStep_st h with heq | heq <;> rw [heq]
    · exact hi.statusLegal
    · exact successCode_le
  rcases performStep_cases x s with ⟨-, -, heq⟩ |
    ⟨t', heq, hcfg, -, -, hf, -, -, hps, hsc, hcur, hpending, -, hmark, -, hhw⟩ <;> cases heq.symm.trans h
  have hsteps := State.applySteps_congr hcfg hps hf
  refine ⟨⟨hi.update hcfg hsc hcur ?fits (hps ▸ hi.setsFit.1) hst ?pending, hcfg, hmark.trans⟩, hsteps⟩
  case pending =>
    rw [hpending, hsteps]
    exact hi.pendingLegal
  case fits =>
    rw [hhw]
    cases x with
    | event e =>
      obtain ⟨-, -, -, -, -, -, hforce⟩ := scalarsOk_iff.1 (admissible_iff.1 ha).1
      exact Event.onHw_fits hi.hwFits (applyEvents_fit hi.setsFit.1 hforce _ e (event_mem_applySteps hx))
    | poll | memo | voltage | status => exact hi.hwFits

theorem withPending_kept {s : State} {steps : List ApplyStep} (hi : Inv s) (h : steps <:+ s.applySteps) :
    Kept s (s.withPending steps) :=
  ⟨hi.update rfl rfl rfl hi.hwFits hi.setsFit.1 hi.statusLegal h, rfl, id⟩

/-- Doing the first of the steps keeps the invariant: what is left is an end of the steps. -/
theorem applyNext_kept {steps : List ApplyStep} {s t : State} (ha : admissible s.cfg = true) (hi : Inv s)
    (hsteps : steps <:+ s.applySteps) (h : applyNext steps s = .next t) : Kept s t := by
  cases steps with
  | nil =>
    cases h
    exact withPending_kept hi List.nil_suffix
  | cons x rest =>
    rw [applyNext] at h
    split at h <;> cases h
    next u hu =>
    obtain ⟨hkept, hsame⟩ := performStep_kept ha hi (hsteps.mem List.mem_cons_self) hu
    refine hkept.trans (withPending_kept hkept.inv ?_)
    rw [hsame]
    split
    · exact hsteps
    · exact (List.suffix_cons x rest).trans hsteps

/-- Doing the steps one after another keeps the invariant. -/
theorem applyAll_kept {steps : List ApplyStep} {s t : State} (ha : admissible s.cfg = true) (hi : Inv s)
    (hsteps : steps <:+ s.applySteps) (h : applyAll steps s = .next t) : Kept s t := by
  induction steps generalizing s with
  | nil =>
    cases h
    exact withPending_kept hi List.nil_suffix
  | cons x rest ih =>
    rw [applyAll] at h
    split at h
    · next u hu =>
      obtain ⟨hkept, hsame⟩ := performStep_kept ha hi (hsteps.mem List.mem_cons_self) hu
      split at h
      · cases h
        exact hkept.trans (withPending_kept hkept.inv (hsame ▸ hsteps))
      · have hrest : rest <:+ u.applySteps := hsame ▸ (List.suffix_cons x rest).trans hsteps
        exact hkept.trans (ih (hkept.cfg ▸ ha) hkept.inv hrest h)
    · cases h
    · cases h

theorem execApply_kept {s t : State} (ha : admissible s.cfg = true) (hi : Inv s) (h : execApply s = .next t) :
    Kept s t := by
  unfold execApply at h
  split at h
  · have hdrop : Kept s s.dropInput := Frame.kept {} hi hi.statusLegal
    exact hdrop.trans (applyNext_kept ha hdrop.inv List.suffix_rfl h)
  · exact applyAll_kept ha hi List.suffix_rfl h

/-! ### Commands and actions -/

/-- Every command that is issued while none runs keeps the invariant. -/
theorem exec_kept {i : Instr} {s t : State} (ha : admissible s.cfg = true) (hi : Inv s) (hidle : s.pending = [])
    (h : exec i s = .next t) : Kept s t := by
  by_cases hs : i = .synth
  · subst hs
    exact execSynth_kept ha hi hidle h
  by_cases hc : i = .csynth
  · subst hc
    exact execCsynth_kept ha hi hidle h
  by_cases hp : i = .apply
  · subst hp
    exact execApply_kept ha hi h
  obtain ⟨hframe, hst⟩ := exec_frame hs hc hp h
  exact hframe.kept hi (hst ▸ successCode_le)

theorem noteOperands_kept {s : State} (hi : Inv s) (i : Instr) : Kept s (s.noteOperands i) :=
  ⟨hi.update rfl rfl rfl hi.hwFits hi.setsFit.1 hi.statusLegal hi.pendingLegal, rfl, fun h => by simp [h]⟩

theorem environment_kept {s : State} {x : HwField} {v : Nat} (hi : Inv s) (hv : x.admits s.cfg v = true) :
    Kept s (s.environment x v) :=
  ⟨hi.update rfl rfl rfl (Hw.write_fits hi.hwFits hv) hi.setsFit.1 hi.statusLegal hi.pendingLegal, rfl, id⟩

section
variable {s t : State} (ha : admissible s.cfg = true) (hi : Inv s)
include ha hi

theorem issue_kept {code : Byte} (hidle : s.pending = []) (h : issue code s = .next t) : Kept s t := by
  rcases issue_cases code s with ⟨heq, -⟩ | ⟨i, -, heq⟩
  · cases heq.symm.trans h
  · exact (noteOperands_kept hi i).trans (exec_kept ha (noteOperands_kept hi i).inv hidle (heq.symm.trans h))

/-- An action that is taken while no command runs keeps the invariant. -/
theorem takeAction_kept {act : Action} (hidle : s.pending = []) (h : takeAction act s = .next t) : Kept s t := by
  cases act with
  | writeA v => cases h; exact Frame.kept {} hi hi.statusLegal
  | writeB v => cases h; exact Frame.kept {} hi hi.statusLegal
  | writeF v =>
    cases h
    exact ⟨hi.update rfl rfl rfl hi.hwFits hi.setsFit.1 hi.statusLegal (pending_legal_of_idle hidle), rfl, id⟩
  | writePS p =>
    rw [takeAction] at h
    split at h <;> cases h
    next hp =>
    exact ⟨hi.update rfl rfl rfl hi.hwFits hp hi.statusLegal (pending_legal_of_idle hidle), rfl, id⟩
  | cmd code => exact issue_kept ha hi hidle h
  | hw x v =>
    rw [takeAction] at h
    split at h <;> cases h
    next hv => exact environment_kept hi hv
  | reset => cases h; exact afterReset_kept hi
  | instant => cases h; exact Kept.refl hi

/-- An action that is taken while APPLY runs keeps the invariant. -/
theorem takeActionBusy_kept {act : Action} (h : takeActionBusy act s = .next t) : Kept s t := by
  cases act with
  | hw x v =>
    rw [takeActionBusy] at h
    split at h
    · next hv =>
      have henv := environment_kept hi hv
      split at h
      · exact henv.trans (applyAll_kept ha henv.inv henv.inv.pendingLegal h)
      · cases h
        exact henv
    · cases h
  | reset => cases h; exact afterReset_kept hi
  | instant => exact applyNext_kept ha hi hi.pendingLegal h
  | writeA | writeB | writeF | writePS | cmd => cases h

/-- The step lemma of the invariant. -/
theorem step_kept (h : step s = .next t) : Kept s t := by
  cases hin : s.inputs with
  | nil =>
    by_cases hidle : s.pending = []
    · cases (step_idle hidle hin).symm.trans h
      exact Kept.refl hi
    · exact applyAll_kept ha hi hi.pendingLegal ((step_running hidle hin).symm.trans h)
  | cons act rest =>
    have hdrop : Kept s { s with inputs := rest } := Frame.kept {} hi hi.statusLegal
    by_cases hidle : s.pending = []
    · exact hdrop.trans (takeAction_kept ha hdrop.inv hidle ((step_action hidle hin).symm.trans h))
    · exact hdrop.trans (takeActionBusy_kept ha hdrop.inv ((step_action_busy hidle hin).symm.trans h))

end

end Sys2Proof.Machine
end

section
/-! SUPPORT. The cache as CSYNTH sees it: what a hit and SYNTH have in common, and that no command reads a slot that is
not valid. -/

namespace Sys2Proof.Machine

/-! ### CSYNTH beside SYNTH -/

/-- Two packings of one synthesis differ in the value drawn for `mult` alone (R118). -/
theorem pack_mult_free (cfg : Config) (raw : SynthRaw) (d d' : Nat) :
    { pack cfg raw d with mult := 0 } = { pack cfg raw d' with mult := 0 } := rfl

/-- Where the multiplier fits, packing draws nothing. -/
theorem pack_of_fit {cfg : Config} {raw : SynthRaw} (h : multOverflows cfg raw = false) (d d' : Nat) :
    pack cfg raw d = pack cfg raw d' := by
  simp [pack, packMult, h]

/-- CSYNTH of a request that hits delivers a packing of the synthesis that SYNTH packs (R126, R33 (b)). -/
theorem execCsynth_hit {s : State} {e : Slot} (hf : CacheFaithful s) (hfind : cacheFind s.sc s.request = some e) :
    ∃ raw draw, synthRaw s.cfg s.request = .ok raw ∧ execCsynth s = .next (s.deliver (pack s.cfg raw draw) 0) := by
  obtain ⟨hmem, hvalid, hkey⟩ := cacheFind_some hfind
  obtain ⟨raw, draw, hraw, hval⟩ := hf e hmem hvalid
  exact ⟨raw, draw, hkey ▸ hraw, hval ▸ execCsynth_of_hit hfind⟩

/-! ### The ring put beside the other fields -/

/-- The same state with another cache ring. -/
def State.withRing (s : State) (sc : List Slot) : State := { s with sc := sc }

/-- The same outcome with another cache ring in its next state. -/
def Result.withRing (sc : List Slot) : Result → Result
  | .next t => .next (t.withRing sc)
  | .fault e => .fault e
  | .refused r => .refused r

@[simp] theorem State.withRing_cfg (s : State) (sc : List Slot) : (s.withRing sc).cfg = s.cfg := rfl
@[simp] theorem State.withRing_hw (s : State) (sc : List Slot) : (s.withRing sc).hw = s.hw := rfl
@[simp] theorem State.withRing_a (s : State) (sc : List Slot) : (s.withRing sc).a = s.a := rfl
@[simp] theorem State.withRing_draws (s : State) (sc : List Slot) : (s.withRing sc).draws = s.draws := rfl
@[simp] theorem State.withRing_memo (s : State) (sc : List Slot) : (s.withRing sc).memo = s.memo := rfl
@[simp] theorem State.withRing_request (s : State) (sc : List Slot) : (s.withRing sc).request = s.request := rfl

theorem performAll_withRing (s : State) (sc : List Slot) (es : List Event) :
    (s.withRing sc).performAll es = (s.performAll es).withRing sc := by
  simp [State.performAll_eq, State.withRing]

theorem performStep_withRing (x : ApplyStep) (s : State) (sc : List Slot) :
    performStep x (s.withRing sc) = Result.withRing sc (performStep x s) := by
  cases x with
  | event | poll | voltage | status => rfl
  | memo =>
    cases hp : pllInput s.cfg s.hw with
    | none => rw [performStep_memo_of_none hp, performStep_memo_of_none (s := s.withRing sc) hp]; rfl
    | some fin =>
      rw [performStep_memo_of_some hp, performStep_memo_of_some (s := s.withRing sc) hp, performAll_withRing]
      rfl

theorem repeats_withRing (x : ApplyStep) (s : State) (sc : List Slot) :
    x.repeats (s.withRing sc) = x.repeats s := by
  cases x <;> rfl

theorem applyNext_withRing (steps : List ApplyStep) (s : State) (sc : List Slot) :
    applyNext steps (s.withRing sc) = Result.withRing sc (applyNext steps s) := by
  cases steps with
  | nil => rfl
  | cons x rest =>
    simp only [applyNext, performStep_withRing, repeats_withRing]
    cases performStep x s <;> rfl

theorem applyAll_withRing (steps : List ApplyStep) (s : State) (sc : List Slot) :
    applyAll steps (s.withRing sc) = Result.withRing sc (applyAll steps s) := by
  induction steps generalizing s with
  | nil => rfl
  | cons x rest ih =>
    simp only [applyAll, performStep_withRing, repeats_withRing]
    cases performStep x s with
    | next t =>
      simp only [Result.withRing]
      split
      · rfl
      · exact ih t
    | fault e => rfl
    | refused r => rfl

theorem execApply_withRing (s : State) (sc : List Slot) :
    execApply (s.withRing sc) = Result.withRing sc (execApply s) := by
  unfold execApply
  by_cases h : s.instantNext = true
  · rw [if_pos h, if_pos (show (s.withRing sc).instantNext = true from h)]
    exact applyNext_withRing _ s.dropInput sc
  · rw [if_neg h, if_neg (show ¬ (s.withRing sc).instantNext = true from h)]
    exact applyAll_withRing _ s sc

theorem execSynth_withRing (s : State) (sc : List Slot) :
    execSynth (s.withRing sc) = Result.withRing sc (execSynth s) := by
  simp only [execSynth, State.withRing_cfg, State.withRing_request]
  cases synthRaw s.cfg s.request <;> rfl

theorem execFreqAt_withRing (s : State) (sc : List Slot) :
    execFreqAt (s.withRing sc) = Result.withRing sc (execFreqAt s) := by
  by_cases hid : s.cfg.graph.count ≤ s.a.toNat <;>
    simp only [execFreqAt, State.withRing_cfg, State.withRing_hw, State.withRing_a, State.withRing_memo, hid, if_true,
      if_false]
  · rfl
  · cases freqWalk s.cfg s.hw s.cfg.graph.count s.a.toNat s.memo <;> rfl

theorem execPllRate_withRing (s : State) (sc : List Slot) :
    execPllRate (s.withRing sc) = Result.withRing sc (execPllRate s) := by
  simp only [execPllRate, State.withRing_cfg, State.withRing_hw]
  cases pllInput s.cfg s.hw <;> rfl

theorem execPllOut_withRing (s : State) (sc : List Slot) :
    execPllOut (s.withRing sc) = Result.withRing sc (execPllOut s) := by
  unfold execPllOut
  by_cases hnew : (s.recompute || decide (s.pllFreq = 0)) = true
  · have hnew' : ((s.withRing sc).recompute || decide ((s.withRing sc).pllFreq = 0)) = true := hnew
    rw [if_pos hnew, if_pos hnew']
    simp only [State.withRing_cfg, State.withRing_hw]
    cases pllInput s.cfg s.hw <;> rfl
  · have hnew' : ¬((s.withRing sc).recompute || decide ((s.withRing sc).pllFreq = 0)) = true := hnew
    rw [if_neg hnew, if_neg hnew']
    rfl

/-- A command other than CSYNTH neither reads the cache ring nor writes it. -/
theorem exec_withRing {i : Instr} (hi : i ≠ .csynth) (s : State) (sc : List Slot) :
    exec i (s.withRing sc) = Result.withRing sc (exec i s) := by
  cases i with
  | encN | encP | encM | decN | decP | decM | selfilt | pllRatePs => rfl
  | synth => exact execSynth_withRing s sc
  | csynth => exact absurd rfl hi
  | freqAt => exact execFreqAt_withRing s sc
  | pllRate => exact execPllRate_withRing s sc
  | pllOut => exact execPllOut_withRing s sc
  | apply => exact execApply_withRing s sc

/-- So where it completes the ring is as it was. -/
theorem exec_sc {i : Instr} (hi : i ≠ .csynth) {s t : State} (h : exec i s = .next t) : t.sc = s.sc := by
  have hsame : exec i s = Result.withRing s.sc (exec i s) := exec_withRing hi s s.sc
  rw [h] at hsame
  have hring : t = t.withRing s.sc := Host.Outcome.next.inj hsame
  rw [hring]
  rfl

/-! ### Rings that agree on their valid slots -/

/-- Rings that agree find the same slot: a slot that is found is valid. -/
theorem RingsAgree.cacheFind_eq {sc sc' : List Slot} (h : RingsAgree sc sc') (k : Key) :
    cacheFind sc k = cacheFind sc' k := by
  induction h with
  | nil => rfl
  | @cons e e' rest rest' he _ ih =>
    obtain ⟨hvalid, hsame⟩ := he
    by_cases hv : e.valid = true
    · cases hsame hv
      simp only [cacheFind, List.find?_cons] at ih ⊢
      rw [ih]
    · have hv' : ¬ e'.valid = true := hvalid ▸ hv
      simpa [cacheFind, Slot.hits, List.find?_cons, hv, hv'] using ih

/-- The same slot put into both keeps them in agreement. -/
theorem RingsAgree.set {sc sc' : List Slot} (h : RingsAgree sc sc') (n : Nat) (e : Slot) :
    RingsAgree (sc.set n e) (sc'.set n e) := by
  induction h generalizing n with
  | nil => exact .nil
  | cons he hrest ih =>
    cases n with
    | zero => exact .cons ⟨rfl, fun _ => rfl⟩ hrest
    | succ n => exact .cons he (ih n)

/-- A store into rings that agree. -/
theorem RingsAgree.cacheStore {s : State} {sc' : List Slot} (h : RingsAgree s.sc sc') (k : Key) (p : PSet) :
    ∃ sc'', (s.withRing sc').cacheStore k p = (s.cacheStore k p).withRing sc'' ∧
      RingsAgree (s.cacheStore k p).sc sc'' := by
  by_cases hcap : s.cfg.cacheCap = 0
  · refine ⟨sc', ?_, ?_⟩ <;> simp [State.cacheStore, hcap, h]
  · refine ⟨sc'.set s.scCur { valid := true, key := k, val := p }, ?_, ?_⟩
    · simp [State.cacheStore, State.withRing, hcap]
    · simpa [State.cacheStore, hcap] using h.set _ _

/-- Two states that differ in slots that are not valid alone: CSYNTH hits the same set, stores the same slot, or stops
alike (R121). -/
theorem execCsynth_ringsAgree {s : State} {sc' : List Slot} (h : RingsAgree s.sc sc') :
    (∃ t sc'', execCsynth s = .next t ∧ execCsynth (s.withRing sc') = .next (t.withRing sc'') ∧
        RingsAgree t.sc sc'') ∨
      ∃ r, execCsynth s = .refused r ∧ execCsynth (s.withRing sc') = .refused r := by
  have hfind : cacheFind (s.withRing sc').sc (s.withRing sc').request = cacheFind s.sc s.request :=
    (h.cacheFind_eq s.request).symm
  cases hslot : cacheFind s.sc s.request with
  | some e =>
    exact .inl ⟨s.deliver e.val 0, sc', execCsynth_of_hit hslot, execCsynth_of_hit (hfind.trans hslot), h⟩
  | none =>
    rw [execCsynth_of_miss hslot, execCsynth_of_miss (hfind.trans hslot)]
    cases hraw : synthRaw s.cfg s.request with
    | ok raw =>
      obtain ⟨sc'', hstore, hagree⟩ := h.cacheStore s.request (pack s.cfg raw s.draws)
      have heq := cacheMiss_of_ok (s := s.withRing sc') hraw
      rw [State.withRing_request, State.withRing_cfg, State.withRing_draws, hstore] at heq
      exact .inl ⟨_, sc'', cacheMiss_of_ok hraw, heq, hagree⟩
    | err kind => exact .inl ⟨s.fail kind, sc', cacheMiss_of_err hraw, cacheMiss_of_err hraw, h⟩
    | ssPreDividerZero => exact .inr ⟨_, cacheMiss_of_zero hraw, cacheMiss_of_zero hraw⟩

end Sys2Proof.Machine
end

section
/-! SUPPORT. The theorems that settle the statements about the state, its reset, its invariant and the
cache (spec/10_state.md). -/

namespace Sys2Proof.Machine

/-- Settles O55: the state after reset is made of the values of R30. -/
theorem resetStateIsEmpty : Obligations.ResetStateIsEmpty := fun cfg hw =>
  ⟨rfl, rfl, State.initial_sc_length cfg hw, fun _ => State.initial_slot_invalid, State.initial_held_has cfg hw, rfl,
    rfl⟩

/-- Settles O56, from the next state of each codec command. -/
theorem hostReadsNeedAWrite : Obligations.HostReadsNeedAWrite := by
  refine ⟨fun cfg hw => ⟨rfl, rfl, rfl, rfl⟩, fun fam s => ⟨?enc, ?dec⟩⟩
  case enc => exact ⟨_, (exec_encOf fam s).trans (encodeCommand_eq fam s), rfl, rfl, rfl⟩
  case dec => exact ⟨_, (exec_decOf fam s).trans (decodeCommand_eq fam s), rfl, rfl, rfl⟩

/-- Settles O57: a reset is taken alike with and without a running APPLY. -/
theorem resetKeepsTheHardware : Obligations.ResetKeepsTheHardware := fun s _ hi =>
  ⟨_, step_reset hi, rfl, rfl, rfl, rfl, rfl, State.initial_sc_length s.cfg s.hw,
    fun _ => State.initial_slot_invalid (hw := s.hw), State.initial_held_has s.cfg s.hw, rfl⟩

/-- Settles O58: an empty ring meets R33, and the zeros of log 1 fit. -/
theorem invariantHoldsAfterReset : Obligations.InvariantHoldsAfterReset := fun _ _ => inv_initial

/-- Settles O5: a step that takes the write is the write. -/
theorem operandWritesSetOneRegister : Obligations.OperandWritesSetOneRegister := by
  intro s rest hidle
  refine ⟨fun v hi => step_action hidle hi, fun v hi => step_action hidle hi, fun v hi => step_action hidle hi, ?ps⟩
  case ps =>
    intro p hi hp
    rw [step_action hidle hi]
    exact if_pos hp

/-- Settles O4: the operands are noted before the command runs, and noting them changes at most the mark. -/
theorem stepRunsTheDecodedCommand : Obligations.StepRunsTheDecodedCommand := by
  refine ⟨rfl, fun s code rest i hidle hi hd => ⟨fun hheld => ?held, fun hunheld => ?unheld⟩⟩
  case held =>
    exact (step_command hidle hi hd).trans
      (congrArg (exec i) (State.noteOperands_of_held (State.operandsHeld_iff.2 hheld)))
  case unheld =>
    exact (step_command hidle hi hd).trans
      (congrArg (exec i) (State.noteOperands_of_unheld (State.operandsHeld_eq_false_iff.2 hunheld)))

/-- Settles O34: a hit delivers the stored packing of the synthesis SYNTH packs; a miss does what SYNTH does and
stores. -/
theorem cacheIsTransparent : Obligations.CacheIsTransparent := by
  intro s hfaithful
  cases hfind : cacheFind s.sc s.request with
  | some e =>
    obtain ⟨raw, draw, hraw, hhit⟩ := execCsynth_hit hfaithful hfind
    refine .inl ⟨_, _, hhit, execSynth_of_ok hraw, rfl, pack_mult_free s.cfg raw draw s.draws, ?fit, ?err⟩
    case fit =>
      intro raw' hraw' hfit
      cases hraw.symm.trans hraw'
      exact pack_of_fit hfit draw s.draws
    case err =>
      rintro ⟨kind, herr⟩
      cases hraw.symm.trans herr
  | none =>
    have hmiss : exec .csynth s = cacheMiss s := execCsynth_of_miss hfind
    cases hraw : synthRaw s.cfg s.request with
    | ok raw =>
      refine .inl ⟨_, _, hmiss.trans (cacheMiss_of_ok hraw), execSynth_of_ok hraw, rfl, rfl, fun _ _ _ => rfl, ?_⟩
      rintro ⟨kind, ⟨⟩⟩
    | err kind =>
      exact .inl ⟨_, _, hmiss.trans (cacheMiss_of_err hraw), execSynth_of_err hraw, rfl, rfl, fun _ _ _ => rfl,
        fun _ => rfl⟩
    | ssPreDividerZero => exact .inr ⟨hmiss.trans (cacheMiss_of_zero hraw), execSynth_of_zero hraw⟩

/-- Settles O36: CSYNTH compares valid slots only, and the other commands do not read the ring. -/
theorem invalidSlotsAreNeverRead : Obligations.InvalidSlotsAreNeverRead := by
  intro i s sc' hagree
  by_cases hi : i = .csynth
  · subst hi
    exact execCsynth_ringsAgree hagree
  · have hother : exec i { s with sc := sc' } = Result.withRing sc' (exec i s) := exec_withRing hi s sc'
    cases h : exec i s with
    | next t =>
      rw [h] at hother
      exact .inl ⟨t, sc', rfl, hother, (exec_sc hi h).symm ▸ hagree⟩
    | fault e => cases e
    | refused r =>
      rw [h] at hother
      exact .inr ⟨r, rfl, hother⟩

/-- Settles O59, by the step lemma of the invariant. -/
theorem everyStepKeepsTheInvariant : Obligations.EveryStepKeepsTheInvariant := fun _ _ ha hi h =>
  have hkept := step_kept ha hi h
  ⟨hkept.inv, hkept.cfg, hkept.mark⟩

end Sys2Proof.Machine
end

section
/-! SUPPORT. FieldRead after FieldWrite (R38, R39): of the clock-tree fields in canonical form, and of every field of
`HW`. -/

namespace Sys2Proof.Machine

/-! ### The clock-tree fields -/

/-- A list whose numbers are all larger does not list the field. -/
theorem Memory.read_of_above {id : Nat} {t : Memory} (h : Memory.above id t = true) :
    Memory.read t id = Memory.unlisted := by
  induction t with
  | nil => rfl
  | cons e rest ih =>
    simp only [Memory.above, Bool.and_eq_true, decide_eq_true_eq] at h
    obtain ⟨hlt, hrest⟩ := h
    rw [Memory.read, if_neg hlt.ne', ih hrest]

theorem Memory.read_put {id v : Nat} {rest : Memory} (h : Memory.above id rest = true) (j : Nat) :
    Memory.read (Memory.put id v rest) j = if j = id then v else Memory.read rest j := by
  unfold Memory.put
  split_ifs with hv hj hj
  · rw [hj, Memory.read_of_above h, hv]
  · rfl
  · exact if_pos hj.symm
  · exact if_neg (Ne.symm hj)

/-- Reading canonical clock-tree fields after a write, which puts its pair in front, puts it in the place of the first
pair, or passes that pair. -/
theorem Memory.read_write {id v : Nat} {t : Memory} (h : Memory.wf t = true) (j : Nat) :
    Memory.read (Memory.write t id v) j = if j = id then v else Memory.read t j := by
  induction t with
  | nil => exact Memory.read_put rfl j
  | cons e rest ih =>
    obtain ⟨k, w⟩ := e
    simp only [Memory.wf, Bool.and_eq_true] at h
    obtain ⟨⟨-, habove⟩, hrest⟩ := h
    rcases lt_trichotomy id k with hlt | rfl | hgt
    · have hall : Memory.above id ((k, w) :: rest) = true := by
        simp [Memory.above, hlt, Memory.above_mono hlt.le habove]
      rw [Memory.write, if_pos hlt]
      exact Memory.read_put hall j
    · rw [Memory.write, if_neg (lt_irrefl id), if_pos rfl, Memory.read_put habove]
      split_ifs with hj
      · rfl
      · exact (if_neg (Ne.symm hj)).symm
    · rw [Memory.write, if_neg hgt.not_gt, if_neg hgt.ne', Memory.read, Memory.read, ih hrest]
      by_cases hj : j = id
      · rw [if_pos hj, if_pos hj, if_neg (hj ▸ hgt.ne)]
      · rw [if_neg hj, if_neg hj]

/-! ### The fields of `HW` -/

theorem bitOf_toNat {v : Nat} (h : v < 2) : (bitOf v).toNat = v := by
  interval_cases v <;> rfl

/-- A field reads the value of its width that was written to it. -/
theorem Hw.read_write_same {cfg : Config} {hw : Hw} {x : HwField} {v : Nat} (hwf : Memory.wf hw.tree = true)
    (hv : x.admits cfg v = true) : (hw.write x v).read x = v := by
  cases x with
  | ndec | pdec => exact (BitVec.toNat_ofNat _ _).trans (Nat.mod_eq_of_lt (HwField.lt_of_admits rfl hv))
  | mult | selP | selI | selR => rfl
  | directI | directO | bypass | fbdiv2 | ssen | nreq | preq | mreq | lock =>
    exact bitOf_toNat (HwField.lt_of_admits rfl hv)
  | tree id => exact (Memory.read_write hwf id).trans (if_pos rfl)

/-- Every other field reads as before: the PLL fields are apart by construction, two clock-tree fields by their
numbers. -/
theorem Hw.read_write_of_ne {hw : Hw} {x y : HwField} {v : Nat} (hwf : Memory.wf hw.tree = true) (hne : y ≠ x) :
    (hw.write x v).read y = hw.read y := by
  cases x with
  | tree id =>
    cases y with
    | tree j => exact (Memory.read_write hwf j).trans (if_neg fun h => hne (congrArg HwField.tree h))
    | _ => rfl
  | _ => cases y <;> simp [Hw.write, Hw.read] at hne ⊢

end Sys2Proof.Machine
end

section
/-! SUPPORT. What a step does with the environment's write of a field (R49), and what APPLY does after its lock poll
(R156 to R159). -/

namespace Sys2Proof.Machine

/-! ### The environment's write of a field -/

theorem State.polling_iff {s : State} : s.polling = true ↔ s.pending.head? = some .poll := decide_eq_true_iff

theorem State.environmentNext_iff {s : State} :
    s.environmentNext = true ↔ ∃ act, s.inputs.head? = some act ∧ act.byHost = false := by
  simp [State.environmentNext, Option.any_eq_true]

theorem takeAction_hw {s : State} {x : HwField} {v : Nat} (hv : x.admits s.cfg v = true) :
    takeAction (.hw x v) s = .next (s.environment x v) := if_pos hv

/-- Away from the lock poll, or where the environment acts next, the write is all that the step does. -/
theorem takeActionBusy_hw {s : State} {x : HwField} {v : Nat} (hv : x.admits s.cfg v = true)
    (h : s.polling = false ∨ s.environmentNext = true) :
    takeActionBusy (.hw x v) s = .next (s.environment x v) := by
  rcases h with h | h <;> simp [takeActionBusy, hv, h]

/-- At the lock poll APPLY goes on after the write, where the environment does not act next. -/
theorem takeActionBusy_hw_polled {s : State} {x : HwField} {v : Nat} (hv : x.admits s.cfg v = true)
    (hpoll : s.polling = true) (henv : s.environmentNext = false) :
    takeActionBusy (.hw x v) s = applyAll s.pending (s.environment x v) := by
  simp [takeActionBusy, hv, hpoll, henv]

/-- The step that takes an environment write and does nothing else. -/
theorem step_hw {s : State} {x : HwField} {v : Nat} {rest : List Action} (hi : s.inputs = .hw x v :: rest)
    (hv : x.admits s.cfg v = true)
    (h : s.pending.head? ≠ some .poll ∨ ∃ act, rest.head? = some act ∧ act.byHost = false) :
    step s = .next (({ s with inputs := rest } : State).environment x v) := by
  by_cases hidle : s.pending = []
  · exact (step_action hidle hi).trans (takeAction_hw hv)
  · refine (step_action_busy hidle hi).trans (takeActionBusy_hw hv (h.imp (fun hpoll => ?_) fun henv => ?_))
    · exact Bool.eq_false_iff.2 fun hp => hpoll (State.polling_iff.1 hp)
    · exact State.environmentNext_iff.2 henv

/-! ### The walk reads no lock bit -/

theorem Hw.read_tree_congr {hw hw' : Hw} (htree : hw'.tree = hw.tree) (id : Nat) :
    hw'.read (.tree id) = hw.read (.tree id) := congrArg (Memory.read · id) htree

theorem divideAll_congr {hw hw' : Hw} (htree : hw'.tree = hw.tree) (divs : List Nat) (f : Nat) :
    divideAll hw' divs f = divideAll hw divs f := by
  have hdivide : divideBy hw' = divideBy hw := by
    funext f d
    simp only [divideBy, Hw.read_tree_congr htree]
  rw [divideAll, divideAll, hdivide]

/-- A walk depends on the clock-tree fields and the set in the PLL fields alone (R133, R137, R145). -/
theorem freqWalk_congr {cfg : Config} {hw hw' : Hw} (htree : hw'.tree = hw.tree)
    (hset : snapshotPset hw' = snapshotPset hw) (depth id : Nat) (memo : Memo) :
    freqWalk cfg hw' depth id memo = freqWalk cfg hw depth id memo := by
  induction depth generalizing id memo with
  | zero => rfl
  | succ depth ih => simp only [freqWalk, Hw.read_tree_congr htree, divideAll_congr htree, hset, ih]

theorem pllInput_congr {cfg : Config} {hw hw' : Hw} (htree : hw'.tree = hw.tree)
    (hset : snapshotPset hw' = snapshotPset hw) : pllInput cfg hw' = pllInput cfg hw := by
  simp only [pllInput, freqWalk_congr htree hset]

/-- The fields a walk reads depend on the clock-tree fields alone (R134). -/
theorem pathReads_congr {cfg : Config} {hw hw' : Hw} (htree : hw'.tree = hw.tree) (depth id : Nat) :
    pathReads cfg hw' depth id = pathReads cfg hw depth id := by
  induction depth generalizing id with
  | zero => rfl
  | succ depth ih => simp only [pathReads, Hw.read_tree_congr htree, ih]

/-- `HW` with the lock bit at 1. -/
def Hw.locked (hw : Hw) : Hw := { hw with pll := { hw.pll with lock := true } }

theorem Hw.write_lock_one (hw : Hw) : hw.write .lock 1 = hw.locked := rfl

/-- The clock-tree fields on the path of the PLL's input, in the order the memo reads them (R134, R157). -/
def inputPath (cfg : Config) (hw : Hw) : List Nat := pathReads cfg hw cfg.graph.count cfg.graph.pllIn

theorem inputReads_eq (s : State) :
    inputReads s = (inputPath s.cfg s.hw).map fun id => .fieldRead (.tree id) (s.hw.read (.tree id)) := rfl

theorem pllInput_locked (cfg : Config) (hw : Hw) : pllInput cfg hw.locked = pllInput cfg hw := pllInput_congr rfl rfl

theorem inputPath_locked (cfg : Config) (hw : Hw) : inputPath cfg hw.locked = inputPath cfg hw :=
  pathReads_congr (hw := hw) (hw' := hw.locked) rfl _ _

/-! ### APPLY after its lock poll -/

/-- Reads leave `HW` as it is (R38). -/
theorem foldl_onHw_reads (ids : List Nat) (value : Nat → Nat) (hw : Hw) :
    (ids.map fun id => Event.fieldRead (.tree id) (value id)).foldl (fun h e => e.onHw h) hw = hw := by
  induction ids with
  | nil => rfl
  | cons id rest ih => exact ih

/-- The memo's exact next state where the PLL input resolves (R157). -/
theorem performStep_memo_eq {s : State} {fin : Nat} (h : pllInput s.cfg s.hw = some fin) :
    performStep .memo s = .next { s with
      pllFreq := freqWord s.draws (rateOf s.cfg fin s.ps), draws := s.draws + freqDraws (rateOf s.cfg fin s.ps),
      trace := s.trace ++
        memoEvents s.hw (inputPath s.cfg s.hw) (freqWord s.draws (rateOf s.cfg fin s.ps)) } := by
  rw [performStep_memo_of_some h, State.performAll_eq, inputReads_eq, foldl_onHw_reads]
  simp [State.storeRate, State.setPllFreq, State.record, memoEvents]

/-- What an APPLY whose lock poll has read 1 comes to, with its PLL input at `fin` and `reads` on the path of it (R157,
R158, R159). -/
def State.closed (s : State) (fin : Nat) (reads : List Nat) (av : Bool) : State :=
  { s with
    pending := [], pllFreq := freqWord s.draws (rateOf s.cfg fin s.ps), st := 0, held := { s.held with st := true },
    draws := s.draws + freqDraws (rateOf s.cfg fin s.ps),
    trace := s.trace ++ closingEvents s.hw reads (freqWord s.draws (rateOf s.cfg fin s.ps)) av }

/-- The memo, the voltage call where it is to do, and the write of `ST`, to the end of APPLY. -/
theorem applyAll_closingSteps {s : State} {fin : Nat} (h : pllInput s.cfg s.hw = some fin) (av : Bool) :
    applyAll (closingSteps av) s = .next (s.closed fin (inputPath s.cfg s.hw) av) := by
  refine (applyAll_cons (performStep_memo_eq h) rfl).trans ?_
  cases av <;>
    simp [applyAll, performStep, ApplyStep.repeats, State.closed, closingEvents, State.withPending, State.record,
      State.succeed, State.setST, successCode]

/-- A poll that reads 1 lets APPLY run to its end (R156). -/
theorem applyAll_poll_locked {s : State} {fin : Nat} (hlock : s.hw.pll.lock = true)
    (h : pllInput s.cfg s.hw = some fin) (av : Bool) :
    applyAll (.poll :: closingSteps av) s =
      .next ((s.record (.fieldRead .lock 1)).closed fin (inputPath s.cfg s.hw) av) := by
  have hread : s.hw.read .lock = 1 := by simp [Hw.read, hlock]
  have hpoll : performStep .poll s = .next (s.record (.fieldRead .lock 1)) := by simp [performStep, hread]
  exact (applyAll_cons hpoll (by simp [ApplyStep.repeats, hlock])).trans
    (applyAll_closingSteps (s := s.record (.fieldRead .lock 1)) h av)

end Sys2Proof.Machine
end

section
/-! SUPPORT. The theorems that settle the statements about the hardware fields, the environment's writes of them and
the lock (spec/20_memory.md). -/

namespace Sys2Proof.Machine

/-- Settles O6: each field reads what was written to it, and fields that differ do not meet. -/
theorem fieldReadAfterFieldWrite : Obligations.FieldReadAfterFieldWrite := by
  intro cfg hw x y v hwf hv
  split_ifs with hyx
  · rw [hyx]
    exact Hw.read_write_same hwf hv
  · exact Hw.read_write_of_ne hwf hyx

/-- Settles O7: the step is the write alone. -/
theorem environmentWriteLeavesMemoStale : Obligations.EnvironmentWriteLeavesMemoStale := by
  intro s x v rest hquiet hi hwf hv
  exact ⟨s.hw.write x v, step_hw hi hv hquiet, Hw.read_write_same hwf hv, fun _ => Hw.read_write_of_ne hwf⟩

/-- Settles O53: the lock bit is no part of the walk, so the PLL input at the poll is that of `HW` before the write. -/
theorem lockedPollCompletesApply : Obligations.LockedPollCompletesApply := by
  intro s hgraph av hpending
  obtain ⟨fin, hfin, hinput, hpath⟩ := pllInput_resolves s.hw hgraph
  have hbusy : s.pending ≠ [] := by simp [hpending]
  refine ⟨fun rest hi hhost => ⟨fin, _, hfin, hpath, ?raised⟩, fun hi hlock => ⟨fin, _, hfin, hpath, ?found⟩⟩
  case raised =>
    have hpoll : ({ s with inputs := rest } : State).polling = true := by simp [State.polling, hpending]
    have henv : ({ s with inputs := rest } : State).environmentNext = false := by
      refine Bool.eq_false_iff.2 fun h => ?_
      obtain ⟨act, hact, hby⟩ := State.environmentNext_iff.1 h
      simp [hhost act hact] at hby
    have hlocked : pllInput s.cfg s.hw.locked = some fin := (pllInput_locked s.cfg s.hw).trans hinput
    rw [step_action_busy hbusy hi, takeActionBusy_hw_polled rfl hpoll henv, hpending,
      applyAll_poll_locked rfl hlocked, State.environment_hw, Hw.write_lock_one, inputPath_locked]
    rfl
  case found =>
    rw [step_running hbusy hi, hpending, applyAll_poll_locked hlock hinput]
    rfl

end Sys2Proof.Machine
end

section
/-! SUPPORT. The decoder and the encoder undo one another, and the codes that are no command are the reserved ones (R50,
R51, R57). -/

namespace Sys2Proof

/-! ### Decode and encode -/

/-- The two fields make up the code (R50). -/
theorem famField_append_opField (code : Byte) : famField code ++ opField code = code := by
  unfold famField opField
  rw [BitVec.extractLsb'_append_extractLsb'_eq_extractLsb' (Nat.zero_add 4).symm]
  exact BitVec.extractLsb'_eq_self

theorem decode_encode (i : Instr) : decode (encode i) = .ok i := by
  cases i <;> rfl

theorem decode_eq_ok_iff {code : Byte} {i : Instr} :
    decode code = .ok i ↔ decodeFields (famField code) (opField code) = some i := by
  unfold decode
  cases decodeFields (famField code) (opField code) <;> simp

theorem decodeCodec_fields {op : BitVec 4} {i : Instr} (h : decodeCodec op = some i) : i.fam = 1 ∧ i.op = op := by
  unfold decodeCodec at h
  split at h <;> cases h
  all_goals exact ⟨rfl, BitVec.eq_of_toNat_eq (Eq.symm ‹_›)⟩

theorem decodeSynth_fields {op : BitVec 4} {i : Instr} (h : decodeSynth op = some i) : i.fam = 3 ∧ i.op = op := by
  unfold decodeSynth at h
  split at h <;> cases h
  all_goals exact ⟨rfl, BitVec.eq_of_toNat_eq (Eq.symm ‹_›)⟩

theorem decodeResolver_fields {op : BitVec 4} {i : Instr} (h : decodeResolver op = some i) :
    i.fam = 4 ∧ i.op = op := by
  unfold decodeResolver at h
  split at h <;> cases h
  all_goals exact ⟨rfl, BitVec.eq_of_toNat_eq (Eq.symm ‹_›)⟩

theorem decodeSingle_fields {op : BitVec 4} {i j : Instr} (hj : j.op = 0) (h : decodeSingle j op = some i) :
    i.fam = j.fam ∧ i.op = op := by
  unfold decodeSingle at h
  split at h <;> cases h
  exact ⟨rfl, hj.trans (BitVec.eq_of_toNat_eq (Eq.symm ‹_›))⟩

/-- Two fields decode only to the command that has them. -/
theorem decodeFields_fields {fam op : BitVec 4} {i : Instr} (h : decodeFields fam op = some i) :
    i.fam = fam ∧ i.op = op := by
  have of_family {n : BitVec 4} (hfam : fam.toNat = n.toNat) (hi : i.fam = n ∧ i.op = op) :
      i.fam = fam ∧ i.op = op := ⟨hi.1.trans (BitVec.eq_of_toNat_eq hfam.symm), hi.2⟩
  unfold decodeFields at h
  split at h
  · exact of_family ‹_› (decodeCodec_fields h)
  · exact of_family ‹_› (decodeSingle_fields rfl h)
  · exact of_family ‹_› (decodeSynth_fields h)
  · exact of_family ‹_› (decodeResolver_fields h)
  · exact of_family ‹_› (decodeSingle_fields rfl h)
  · cases h

/-- A byte that decodes is the encoding of the command it decodes to (R50, R51). -/
theorem encode_of_decode {code : Byte} {i : Instr} (h : decode code = .ok i) : encode i = code := by
  obtain ⟨hfam, hop⟩ := decodeFields_fields (decode_eq_ok_iff.1 h)
  rw [encode, hfam, hop, famField_append_opField]

/-! ### The reserved codes -/

/-- The ranges of codes that R57 reserves. -/
def ReservedCode (code : Byte) : Prop :=
  code.toNat ≤ 0x0F ∨ (0x16 ≤ code.toNat ∧ code.toNat ≤ 0x1F) ∨ (0x21 ≤ code.toNat ∧ code.toNat ≤ 0x2F) ∨
    (0x32 ≤ code.toNat ∧ code.toNat ≤ 0x3F) ∨ (0x44 ≤ code.toNat ∧ code.toNat ≤ 0x4F) ∨ 0x51 ≤ code.toNat

/-- No command's code lies in a reserved range. -/
theorem not_reservedCode_encode (i : Instr) : ¬ ReservedCode (encode i) := by
  unfold ReservedCode
  cases i <;> decide

/-- Between the reserved ranges lie the fourteen commands of R51. -/
theorem exists_encode_of_not_reservedCode {code : Byte} (h : ¬ ReservedCode code) : ∃ i, encode i = code := by
  have command (i : Instr) (hi : code.toNat = (encode i).toNat) : ∃ i, encode i = code :=
    ⟨i, BitVec.eq_of_toNat_eq hi.symm⟩
  have hcodes :
      code.toNat = 0x10 ∨ code.toNat = 0x11 ∨ code.toNat = 0x12 ∨ code.toNat = 0x13 ∨ code.toNat = 0x14 ∨
        code.toNat = 0x15 ∨ code.toNat = 0x20 ∨ code.toNat = 0x30 ∨ code.toNat = 0x31 ∨ code.toNat = 0x40 ∨
        code.toNat = 0x41 ∨ code.toNat = 0x42 ∨ code.toNat = 0x43 ∨ code.toNat = 0x50 := by
    unfold ReservedCode at h
    omega
  rcases hcodes with h | h | h | h | h | h | h | h | h | h | h | h | h | h
  exacts [command .encN h, command .decN h, command .encP h, command .decP h, command .encM h, command .decM h,
    command .selfilt h, command .synth h, command .csynth h, command .freqAt h, command .pllRate h,
    command .pllOut h, command .pllRatePs h, command .apply h]

theorem exists_decode_iff {code : Byte} : (∃ i, decode code = .ok i) ↔ ¬ ReservedCode code := by
  constructor
  · rintro ⟨i, hi⟩
    exact encode_of_decode hi ▸ not_reservedCode_encode i
  · intro h
    obtain ⟨i, rfl⟩ := exists_encode_of_not_reservedCode h
    exact ⟨i, decode_encode i⟩

end Sys2Proof
end

section
/-! SUPPORT. What the host computes after a DEC, and the host writes of the pseudo-instruction SYNTH (R60). -/

namespace Sys2Proof.Machine

/-! ### A write of a reserved code -/

theorem decode_of_reservedCode {code : Byte} (h : ReservedCode code) :
    decode code = .error (.reservedCode code) :=
  (decode_cases code).resolve_right fun hok => exists_decode_iff.1 hok h

/-- A reserved code written to `CMD` stops the run (R57). -/
theorem step_reservedCode {s : State} {code : Byte} {rest : List Action} (hp : s.pending = [])
    (hi : s.inputs = .cmd code :: rest) (h : ReservedCode code) : step s = .refused (.reservedCode code) := by
  rw [step_action hp hi]
  simp [takeAction, issue, decode_of_reservedCode h]

/-! ### The default of a decode -/

/-- What a DEC finds is in the domain of its family (R74). -/
theorem decodeDivider_le {cfg : Config} {fam : Family} {code raw : Nat} (h : decodeDivider cfg fam code = some raw) :
    raw ≤ fam.maxRaw := by
  have hmax : 3 ≤ fam.maxRaw := by cases fam <;> decide
  unfold decodeDivider at h
  split_ifs at h
  case neg =>
    obtain ⟨j, -, rfl, -, -⟩ := orbitSearch_some _ _ h
    omega
  all_goals
    cases h
    omega

/-- What a DEC finds fits `R`. -/
theorem decodeDivider_lt {cfg : Config} {fam : Family} {code raw : Nat} (h : decodeDivider cfg fam code = some raw) :
    raw < 2 ^ 32 := by
  have hmax : fam.maxRaw ≤ 32768 := by cases fam <;> decide
  exact ((decodeDivider_le h).trans hmax).trans_lt (by norm_num)

/-- The host's rule over `MT` and `R` is `orDefault1` of the raw value they carry (R60, R77). -/
theorem decdResult_of_carries {s : State} {found : Option Nat} (hmt : s.mt = found.isSome)
    (hr : s.r = BitVec.ofNat 32 (found.getD 0)) (hfit : ∀ raw, found = some raw → raw < 2 ^ 32) :
    decdResult s = orDefault1 found := by
  unfold decdResult
  rw [hmt, hr]
  match found with
  | none => rfl
  | some 0 => rfl
  | some (raw + 1) =>
    have htoNat : (BitVec.ofNat 32 (raw + 1)).toNat = raw + 1 := by
      rw [BitVec.toNat_ofNat, Nat.mod_eq_of_lt (hfit _ rfl)]
    have hne : BitVec.ofNat 32 (raw + 1) ≠ 0 := fun h => by simp [h] at htoNat
    simp only [Option.isSome_some, Option.getD_some, hne, htoNat, orDefault1, decide_false]
    rfl

/-! ### Runs -/

/-- Where no command runs, a run takes the next action and goes on from there. -/
theorem run_action {s t : State} {act : Action} {rest : List Action} (hi : s.inputs = act :: rest)
    (ht : takeAction act { s with inputs := rest } = .next t) {k : Nat} (hidle : s.pending = []) :
    Host.Core.run core (k + 1) s = Host.Core.run core k t := by
  have hstep : core.step s = .next t := (step_action hidle hi).trans ht
  simp only [Host.Core.run, hstep]

theorem run_one (s : State) : Host.Core.run core 1 s = step s := by
  have hstep : core.step s = step s := rfl
  simp only [Host.Core.run, hstep]
  cases step s <;> rfl

/-! ### The request of the pseudo-instruction SYNTH -/

theorem flagByte_bit0 : ∀ b0 b1 b2 : Bool, (flagByte b0 b1 b2).getLsbD 0 = b0 := by decide

theorem flagByte_bit1 : ∀ b0 b1 b2 : Bool, (flagByte b0 b1 b2).getLsbD 1 = b1 := by decide

/-- The state after the host has written the operands `fin`, `fout` and the flags `flags`. -/
def State.loaded (s : State) (fin fout : Word32) (flags : Byte) (rest : List Action) : State :=
  { s with
    inputs := rest, a := fin, b := fout, f := flags, held := { s.held with a := true, b := true, f := true } }

theorem State.loaded_request (s : State) (fin fout : Word32) (fb2 ss b2 : Bool) (rest : List Action) :
    (s.loaded fin fout (flagByte fb2 ss b2) rest).request = { fin := fin, fout := fout, fb2 := fb2, ss := ss } := by
  simp only [State.request, State.loaded, State.useFeedbackDiv2, State.useSpreadSpectrum, State.flag, flagByte_bit0,
    flagByte_bit1]

/-- Three writes of operands, then one write to `CMD`: with `A`, `B` and `F` written, SYNTH lacks no operand. -/
theorem run_synth_writes {s : State} {fin fout : Word32} {flags : Byte} {rest : List Action} (hidle : s.pending = [])
    (hi : s.inputs = .writeA fin :: .writeB fout :: .writeF flags :: commandLine .synth :: rest) :
    Host.Core.run core 4 s = exec .synth (s.loaded fin fout flags rest) := by
  have hwrites : Host.Core.run core 4 s =
      Host.Core.run core 1 (s.loaded fin fout flags (commandLine .synth :: rest)) :=
    calc Host.Core.run core 4 s
      _ = Host.Core.run core 3
            { s with
              inputs := .writeB fout :: .writeF flags :: commandLine .synth :: rest, a := fin
              held := { s.held with a := true } } := run_action hi rfl hidle
      _ = Host.Core.run core 2
            { s with
              inputs := .writeF flags :: commandLine .synth :: rest, a := fin, b := fout
              held := { s.held with a := true, b := true } } := run_action rfl rfl hidle
      _ = Host.Core.run core 1 (s.loaded fin fout flags (commandLine .synth :: rest)) :=
            run_action rfl rfl hidle
  have hissue : step (s.loaded fin fout flags (commandLine .synth :: rest)) =
      exec .synth ((s.loaded fin fout flags rest).noteOperands .synth) :=
    step_command hidle rfl (decode_encode .synth)
  rw [hwrites, run_one, hissue, State.noteOperands_of_held rfl]

end Sys2Proof.Machine
end

section
/-! SUPPORT. The theorems that settle the statements about the encoding, the status codes and the pseudo-instructions
(spec/30_encoding.md). -/

namespace Sys2Proof.Machine

/-- Settles O1: each code is the encoding of its command. -/
theorem commandWordsOfOpcodeMap : Obligations.CommandWordsOfOpcodeMap :=
  ⟨decode_encode .encN, decode_encode .decN, decode_encode .encP, decode_encode .decP, decode_encode .encM,
    decode_encode .decM, decode_encode .selfilt, decode_encode .synth, decode_encode .csynth, decode_encode .freqAt,
    decode_encode .pllRate, decode_encode .pllOut, decode_encode .pllRatePs, decode_encode .apply⟩

/-- Settles O2: a code decodes only to the command that has its fields. -/
theorem commandDecodeEncodeAgree : Obligations.CommandDecodeEncodeAgree :=
  ⟨decode_encode, fun _ _ => encode_of_decode⟩

/-- Settles O3: the codes that decode are those outside the ranges of R57. -/
theorem reservedCodesAreRefused : Obligations.ReservedCodesAreRefused := by
  intro s code rest hidle hi
  by_cases hres : ReservedCode code
  · exact .inl ⟨hres, step_reservedCode hidle hi hres⟩
  · obtain ⟨i, hdecode⟩ := exists_decode_iff.2 hres
    exact .inr ⟨i, hdecode, encode_of_decode hdecode, hres⟩

/-- Settles O20: the codes of the kinds go up to 5. -/
theorem statusCodesAreNumbered : Obligations.StatusCodesAreNumbered :=
  ⟨rfl, rfl, rfl, rfl, rfl, rfl, fun k =>
    ⟨fun h => absurd (h ▸ k.code_le) (by decide), fun h => absurd (h ▸ k.code_le) (by decide)⟩⟩

/-- Settles O41: FREQ.AT checks the number before it walks. -/
theorem freqAtOfNoNodeIsRefused : Obligations.FreqAtOfNoNodeIsRefused := fun _ h => if_pos h

/-- Settles O16: DEC leaves in `MT` and `R` what it found, and that fits `R`. -/
theorem decdAppliesTheDefault : Obligations.DecdAppliesTheDefault := fun fam s =>
  ⟨_, (exec_decOf fam s).trans (decodeCommand_eq fam s),
    decdResult_of_carries rfl rfl fun _ => decodeDivider_lt⟩

/-- Settles O60: the four writes load the request and issue SYNTH on it. -/
theorem synthPseudoIssuesItsRequest : Obligations.SynthPseudoIssuesItsRequest := by
  intro s fin fout fb2 ss rest hidle hi
  exact ⟨s.loaded fin fout (flagByte fb2 ss false) rest, run_synth_writes hidle hi,
    State.loaded_request s fin fout fb2 ss false rest, rfl⟩

end Sys2Proof.Machine
end

section
/-! SUPPORT. The feedback of a register step is the parity of the pattern under the tap mask (R9, R72). -/

namespace Sys2Proof.Machine

/-! ### Parity -/

theorem parity_bit (b : Bool) (n : Nat) : parity (Nat.bit b n) = b.toNat ^^^ parity n := by
  by_cases hzero : n = 0 ∧ b = false
  · obtain ⟨rfl, rfl⟩ := hzero
    rfl
  · have hbits : (Nat.bit b n).bits = b :: n.bits := Nat.bits_append_bit n b (by simpa using hzero)
    rw [parity, parity, hbits]
    rcases Nat.mod_two_eq_zero_or_one (n.bits.count true) with h | h <;> cases b <;> simp [Nat.add_mod, h]

/-- The parity of an exclusive or is the exclusive or of the parities. -/
theorem parity_xor (m n : Nat) : parity (m ^^^ n) = parity m ^^^ parity n := by
  induction m using Nat.binaryRec' generalizing n with
  | zero => simp [parity]
  | bit a m _ ih =>
    induction n using Nat.bitCasesOn with
    | bit b n =>
      have hbne : (a != b).toNat = a.toNat ^^^ b.toNat := by cases a <;> cases b <;> rfl
      rw [Nat.xor_bit, parity_bit, parity_bit, parity_bit, ih, hbne]
      ac_rfl

theorem parity_two_pow (k : Nat) : parity (2 ^ k) = 1 := by
  induction k with
  | zero => rfl
  | succ k ih =>
    have hdouble : 2 ^ (k + 1) = Nat.bit false (2 ^ k) := Nat.pow_succ'
    rw [hdouble, parity_bit, ih]
    rfl

/-- The parity of one masked bit is that bit. -/
theorem parity_and_two_pow (x k : Nat) : parity (x &&& 2 ^ k) = (x >>> k) &&& 1 := by
  have hbit : (x >>> k) &&& 1 = (x.testBit k).toNat := by
    rw [Nat.and_one_is_mod, Nat.toNat_testBit, Nat.shiftRight_eq_div_pow]
  rw [Nat.and_two_pow, hbit]
  cases x.testBit k
  · simp [parity]
  · simp [parity_two_pow]

/-! ### The tap mask -/

/-- Adding a power of two whose bit is clear carries nothing. -/
theorem two_pow_add_eq_xor {m k : Nat} (h : m.testBit k = false) : 2 ^ k + m = 2 ^ k ^^^ m := by
  induction k generalizing m with
  | zero =>
    have heven : Even m := by simpa [Nat.testBit_zero, Nat.even_iff] using h
    rw [pow_zero, Nat.xor_comm, Nat.xor_one_of_even heven, Nat.add_comm]
  | succ k ih =>
    induction m using Nat.bitCasesOn with
    | bit b m =>
      have hdouble : 2 ^ (k + 1) = Nat.bit false (2 ^ k) := Nat.pow_succ'
      have hhigh : 2 ^ k + m = 2 ^ k ^^^ m := ih (by rwa [Nat.testBit_bit_succ] at h)
      rw [hdouble, Nat.xor_bit, ← hhigh]
      cases b <;> simp [Nat.bit] <;> omega

theorem tapMask_cons (t : Nat) (taps : List Nat) : tapMask (t :: taps) = 2 ^ t + tapMask taps := by
  simp [tapMask]

/-- The mask of taps without repeats has no other bit. -/
theorem tapMask_testBit_of_notMem {taps : List Nat} (hnodup : taps.Nodup) {k : Nat} (hk : k ∉ taps) :
    (tapMask taps).testBit k = false := by
  induction taps generalizing k with
  | nil => simp [tapMask]
  | cons t rest ih =>
    obtain ⟨ht, hrest⟩ := List.nodup_cons.1 hnodup
    obtain ⟨hkt, hkrest⟩ : k ≠ t ∧ k ∉ rest := by simpa using hk
    rw [tapMask_cons, two_pow_add_eq_xor (ih hrest ht), Nat.testBit_xor, ih hrest hkrest,
      Nat.testBit_two_pow_of_ne (Ne.symm hkt)]
    rfl

/-- The feedback of R72: the taps one by one give the parity under their mask. -/
theorem feedback_eq_parity {taps : List Nat} (hnodup : taps.Nodup) (x : Nat) :
    feedback taps x = parity (x &&& tapMask taps) := by
  induction taps with
  | nil => simp [feedback, tapMask, parity]
  | cons t rest ih =>
    obtain ⟨ht, hrest⟩ := List.nodup_cons.1 hnodup
    rw [feedback, ih hrest, tapMask_cons, two_pow_add_eq_xor (tapMask_testBit_of_notMem hrest ht),
      Nat.and_xor_distrib_left, parity_xor, parity_and_two_pow]

end Sys2Proof.Machine
end

section
/-! SUPPORT. What the encoder's walk and the decoder's search say of the codes of a family, and what the check of its
parameters says of them (R73, R74, R76); what the ENC commands do inside and outside the domain (R79, R81, R83, R85). -/

namespace Sys2Proof.Machine

variable {cfg : Config} {fam : Family}

theorem Family.three_le_maxRaw (fam : Family) : 3 ≤ fam.maxRaw := by cases fam <;> decide

/-! ### The encoder -/

theorem encodeDivider_maxRaw (cfg : Config) (fam : Family) :
    encodeDivider cfg fam fam.maxRaw = (cfg.family fam).seed := by
  rw [encodeDivider_of_ge cfg fam (Family.three_le_maxRaw fam), Nat.sub_self]
  rfl

/-- One step per unit decrease (R73). -/
theorem encodeDivider_pred {r : Nat} (h4 : 4 ≤ r) (hmax : r ≤ fam.maxRaw) :
    encodeDivider cfg fam (r - 1) = lfsrStep (cfg.family fam) (encodeDivider cfg fam r) := by
  have hsteps : fam.maxRaw - (r - 1) = fam.maxRaw - r + 1 := by omega
  rw [encodeDivider_of_ge cfg fam (by omega : 3 ≤ r - 1), encodeDivider_of_ge cfg fam (by omega : 3 ≤ r), hsteps,
    lfsrIter_succ]

/-- The iterated codes stay within the register length. -/
theorem encodeDivider_lt_two_pow_len (h : familyShapeOk fam (cfg.family fam) = true) {r : Nat} (h3 : 3 ≤ r) :
    encodeDivider cfg fam r < 2 ^ (cfg.family fam).len := by
  obtain ⟨hlen, -, -, -, -, hseed, -⟩ := familyShapeOk_iff.1 h
  rw [encodeDivider_of_ge cfg fam h3]
  exact lfsrIter_lt hlen hseed _

/-- Two raw values with one code have one code all the way down. -/
theorem encodeDivider_sub_congr {r r' k : Nat} (h : encodeDivider cfg fam r = encodeDivider cfg fam r')
    (hr : k + 3 ≤ r) (hr' : k + 3 ≤ r') (hmax : r ≤ fam.maxRaw) (hmax' : r' ≤ fam.maxRaw) :
    encodeDivider cfg fam (r - k) = encodeDivider cfg fam (r' - k) := by
  induction k with
  | zero => exact h
  | succ k ih =>
    rw [← Nat.sub_sub, ← Nat.sub_sub, encodeDivider_pred (by omega) (by omega),
      encodeDivider_pred (by omega) (by omega), ih (by omega) (by omega)]

/-! ### The search of the decoder -/

/-- The search of R74 misses exactly the codes of no iterated raw value. -/
theorem seedSearch_eq_none_iff {code : Nat} :
    orbitSearch (cfg.family fam) code (fam.maxRaw - 2) (cfg.family fam).seed = none ↔
      ∀ r, 3 ≤ r → r ≤ fam.maxRaw → encodeDivider cfg fam r ≠ code := by
  have hmax := Family.three_le_maxRaw fam
  rw [orbitSearch_none]
  constructor
  · intro h r h3 hr
    rw [encodeDivider_of_ge cfg fam h3]
    exact h _ (by omega)
  · intro h i hi
    have hcode := h (fam.maxRaw - i) (by omega) (by omega)
    rwa [encodeDivider_of_ge cfg fam (by omega), Nat.sub_sub_self (by omega)] at hcode

/-- The search of R74 finds an iterated raw value with the code, the largest one. -/
theorem seedSearch_eq_some {code r : Nat}
    (h : orbitSearch (cfg.family fam) code (fam.maxRaw - 2) (cfg.family fam).seed = some r) :
    3 ≤ r ∧ r ≤ fam.maxRaw ∧ encodeDivider cfg fam r = code ∧
      ∀ r', r < r' → r' ≤ fam.maxRaw → encodeDivider cfg fam r' ≠ code := by
  obtain ⟨j, hj, rfl, hcode, hearlier⟩ := orbitSearch_some _ _ h
  have hr : fam.maxRaw - 2 - j + 2 = fam.maxRaw - j := by omega
  rw [hr]
  refine ⟨by omega, by omega, ?_, fun r' hlt hle => ?_⟩
  · rw [encodeDivider_of_ge cfg fam (by omega), Nat.sub_sub_self (by omega)]
    exact hcode
  · rw [encodeDivider_of_ge cfg fam (by omega)]
    exact hearlier _ (by omega)

/-! ### The decoder -/

/-- Everything the decoder can do: find a special code, or search for a code that is not special. -/
theorem decodeDivider_cases (cfg : Config) (fam : Family) (code : Nat) :
    (∃ r ≤ 2, encodeDivider cfg fam r = code ∧ decodeDivider cfg fam code = some r) ∨
      (∀ r ≤ 2, encodeDivider cfg fam r ≠ code) ∧
        decodeDivider cfg fam code =
          orbitSearch (cfg.family fam) code (fam.maxRaw - 2) (cfg.family fam).seed := by
  unfold decodeDivider
  split_ifs with h0 h1 h2
  · exact .inl ⟨0, by omega, h0.symm, rfl⟩
  · exact .inl ⟨1, by omega, h1.symm, rfl⟩
  · exact .inl ⟨2, by omega, h2.symm, rfl⟩
  · refine .inr ⟨fun r hr => ?_, rfl⟩
    match r with
    | 0 => exact Ne.symm h0
    | 1 => exact Ne.symm h1
    | 2 => exact Ne.symm h2

/-- The decoder fails exactly on the codes of no raw value (R74). -/
theorem decodeDivider_eq_none_iff {code : Nat} :
    decodeDivider cfg fam code = none ↔ ∀ raw ≤ fam.maxRaw, encodeDivider cfg fam raw ≠ code := by
  have hmax := Family.three_le_maxRaw fam
  rcases decodeDivider_cases cfg fam code with ⟨r, hr, hcode, hfound⟩ | ⟨hspecial, hsearch⟩
  · simp only [hfound, reduceCtorEq, false_iff]
    exact fun h => h r (by omega) hcode
  · rw [hsearch, seedSearch_eq_none_iff]
    refine ⟨fun h raw hraw => ?_, fun h r _ hr => h r hr⟩
    rcases Nat.lt_or_ge raw 3 with hlow | hhigh
    · exact hspecial raw (Nat.le_of_lt_succ hlow)
    · exact h raw hhigh hraw

/-- What the decoder finds has the code. -/
theorem encodeDivider_of_decode {code r : Nat} (h : decodeDivider cfg fam code = some r) :
    encodeDivider cfg fam r = code := by
  rcases decodeDivider_cases cfg fam code with ⟨r₀, -, hcode, hfound⟩ | ⟨-, hsearch⟩
  · cases hfound.symm.trans h
    exact hcode
  · obtain ⟨-, -, hcode, -⟩ := seedSearch_eq_some (hsearch.symm.trans h)
    exact hcode

/-- An iterated raw value is found only where neither a special code nor a larger raw value has the code (R74). -/
theorem decodeDivider_first {code r : Nat} (h : decodeDivider cfg fam code = some r) (h3 : 3 ≤ r) {r' : Nat}
    (hr' : r' ≤ 2 ∨ r < r') (hmax : r' ≤ fam.maxRaw) : encodeDivider cfg fam r' ≠ code := by
  rcases decodeDivider_cases cfg fam code with ⟨r₀, hr₀, -, hfound⟩ | ⟨hspecial, hsearch⟩
  · cases hfound.symm.trans h
    omega
  · obtain ⟨-, -, -, hlargest⟩ := seedSearch_eq_some (hsearch.symm.trans h)
    exact hr'.elim (hspecial r') fun hlt => hlargest r' hlt hmax

/-! ### The check of the parameters -/

theorem specialsDistinct_iff :
    specialsDistinct (cfg.family fam) = true ↔
      ∀ r r', r < r' → r' ≤ 2 → encodeDivider cfg fam r ≠ encodeDivider cfg fam r' := by
  simp only [specialsDistinct, Bool.and_eq_true, decide_eq_true_eq]
  constructor
  · rintro ⟨⟨h01, h02⟩, h12⟩ r r' hlt hle
    have hpairs : r = 0 ∧ r' = 1 ∨ r = 0 ∧ r' = 2 ∨ r = 1 ∧ r' = 2 := by omega
    obtain ⟨rfl, rfl⟩ | ⟨rfl, rfl⟩ | ⟨rfl, rfl⟩ := hpairs
    · exact h01
    · exact h02
    · exact h12
  · exact fun h => ⟨⟨h 0 1 (by omega) (by omega), h 0 2 (by omega) (by omega)⟩, h 1 2 (by omega) (by omega)⟩

/-- A code with a bit above the register is no iterated code, so the check's shortcut loses nothing. -/
theorem outsideOrbit_iff (h : familyShapeOk fam (cfg.family fam) = true) {code : Nat} :
    outsideOrbit fam (cfg.family fam) code = true ↔
      ∀ r, 3 ≤ r → r ≤ fam.maxRaw → encodeDivider cfg fam r ≠ code := by
  simp only [outsideOrbit, Bool.or_eq_true, decide_eq_true_eq, seedSearch_eq_none_iff, or_iff_right_iff_imp]
  exact fun hwide r h3 _ => ((encodeDivider_lt_two_pow_len h h3).trans_le hwide).ne

/-- The search for the code of 3 counts down to 3 exactly when no larger raw value has that code. -/
theorem orbitDistinct_iff :
    orbitDistinct fam (cfg.family fam) = true ↔
      ∀ r, 3 < r → r ≤ fam.maxRaw → encodeDivider cfg fam r ≠ encodeDivider cfg fam 3 := by
  simp only [orbitDistinct, decide_eq_true_eq, ← encodeDivider_of_ge cfg fam le_rfl]
  constructor
  · intro h
    obtain ⟨-, -, -, hlargest⟩ := seedSearch_eq_some h
    exact hlargest
  · intro h
    cases hsearch : orbitSearch (cfg.family fam) (encodeDivider cfg fam 3) (fam.maxRaw - 2) (cfg.family fam).seed with
    | none => exact absurd rfl (seedSearch_eq_none_iff.1 hsearch 3 le_rfl (Family.three_le_maxRaw fam))
    | some r =>
      obtain ⟨h3, hmax, hcode, -⟩ := seedSearch_eq_some hsearch
      have hr : ¬ 3 < r := fun hlt => h r hlt hmax hcode
      rw [Nat.le_antisymm (Nat.le_of_not_lt hr) h3]

/-- The check of R76, part by part, in terms of the codes. -/
theorem familyOk_iff :
    familyOk fam (cfg.family fam) = true ↔
      familyShapeOk fam (cfg.family fam) = true ∧
        (∀ r r', r < r' → r' ≤ 2 → encodeDivider cfg fam r ≠ encodeDivider cfg fam r') ∧
        (∀ s ≤ 2, ∀ r, 3 ≤ r → r ≤ fam.maxRaw → encodeDivider cfg fam r ≠ encodeDivider cfg fam s) ∧
        ∀ r, 3 < r → r ≤ fam.maxRaw → encodeDivider cfg fam r ≠ encodeDivider cfg fam 3 := by
  have hspecials : ∀ p : Nat → Prop, (∀ s ≤ 2, p s) ↔ p 0 ∧ p 1 ∧ p 2 := fun p =>
    ⟨fun h => ⟨h 0 (by omega), h 1 (by omega), h 2 (by omega)⟩, fun ⟨h0, h1, h2⟩ s hs => by
      interval_cases s <;> assumption⟩
  simp only [familyOk, Bool.and_eq_true, and_assoc, hspecials, specialsDistinct_iff, orbitDistinct_iff]
  refine and_congr_right fun hshape => ?_
  simp only [outsideOrbit_iff hshape, encodeDivider_zero, encodeDivider_one, encodeDivider_two]

/-- A repeat among the iterated codes would go down to the code of 3 and be seen there. -/
theorem encodeDivider_ne_of_lt (hok : familyOk fam (cfg.family fam) = true) {r r' : Nat} (hlt : r < r')
    (hmax : r' ≤ fam.maxRaw) : encodeDivider cfg fam r ≠ encodeDivider cfg fam r' := by
  obtain ⟨-, hspecials, houtside, horbit⟩ := familyOk_iff.1 hok
  rcases Nat.lt_or_ge r' 3 with hlow' | hhigh'
  · exact hspecials r r' hlt (Nat.le_of_lt_succ hlow')
  rcases Nat.lt_or_ge r 3 with hlow | hhigh
  · exact (houtside r (Nat.le_of_lt_succ hlow) r' hhigh' hmax).symm
  intro heq
  have hdown : encodeDivider cfg fam (r - (r - 3)) = encodeDivider cfg fam (r' - (r - 3)) :=
    encodeDivider_sub_congr heq (by omega) (by omega) (by omega) hmax
  rw [Nat.sub_sub_self hhigh] at hdown
  exact horbit _ (by omega) (by omega) hdown.symm

/-- The codes of a family that passes the check are pairwise distinct (R76). -/
theorem encodeDivider_injective (hok : familyOk fam (cfg.family fam) = true) {r r' : Nat} (hr : r ≤ fam.maxRaw)
    (hr' : r' ≤ fam.maxRaw) (h : encodeDivider cfg fam r = encodeDivider cfg fam r') : r = r' := by
  rcases lt_trichotomy r r' with hlt | heq | hgt
  · exact absurd h (encodeDivider_ne_of_lt hok hlt hr')
  · exact heq
  · exact absurd h.symm (encodeDivider_ne_of_lt hok hgt hr)

/-- Decode undoes encode (R75, law 1): it finds some raw value with the code, and there is one such value only. -/
theorem decodeDivider_encodeDivider (hok : familyOk fam (cfg.family fam) = true) {raw : Nat}
    (hraw : raw ≤ fam.maxRaw) : decodeDivider cfg fam (encodeDivider cfg fam raw) = some raw := by
  cases hfound : decodeDivider cfg fam (encodeDivider cfg fam raw) with
  | none => exact absurd rfl (decodeDivider_eq_none_iff.1 hfound raw hraw)
  | some r => rw [encodeDivider_injective hok (decodeDivider_le hfound) hraw (encodeDivider_of_decode hfound)]

/-! ### The commands -/

/-- ENC.f inside the domain (R79, R81, R83). -/
theorem exec_encOf_of_le {s : State} (h : s.a.toNat ≤ fam.maxRaw) :
    exec (encOf fam) s = .next { s with
      r := BitVec.ofNat 32 (encodeDivider s.cfg fam s.a.toNat), st := 0,
      held := { s.held with r := true, st := true } } := by
  rw [exec_encOf, encodeCommand_eq, encodeOrDraw, if_pos h, encodeDraws, if_pos h]
  rfl

/-- ENC.f outside the domain draws a value of the family's width (R85). -/
theorem exec_encOf_of_gt {s : State} (h : fam.maxRaw < s.a.toNat) :
    exec (encOf fam) s = .next { s with
      r := (Config.freeBits fam.width s.draws).setWidth 32, st := 0, held := { s.held with r := true, st := true },
      draws := s.draws + 1 } := by
  rw [exec_encOf, encodeCommand_eq, encodeOrDraw, if_neg h.not_ge, encodeDraws, if_neg h.not_ge, BitVec.ofNat_toNat]
  rfl

end Sys2Proof.Machine
end

section
/-! SUPPORT. The theorems that settle the statements about the Divider Codec (spec/40_divider_codec.md). -/

namespace Sys2Proof.Machine

/-- Settles O13: codes that are pairwise distinct are decoded to their raw values, and what decodes has its code. -/
theorem codecRoundTrips : Obligations.CodecRoundTrips := fun _ _ hok =>
  ⟨fun _ hraw => decodeDivider_encodeDivider hok hraw, fun _ _ => encodeDivider_of_decode⟩

/-- Settles O10: the taps do not repeat, so their feedback is a parity. -/
theorem stepFeedsBackTheParityOfTheTaps : Obligations.StepFeedsBackTheParityOfTheTaps := by
  intro fam c x hshape hx
  obtain ⟨hlen, -, -, hnodup, -⟩ := familyShapeOk_iff.1 hshape
  exact ⟨by rw [lfsrStep, feedback_eq_parity hnodup], lfsrStep_lt hlen hx⟩

/-- Settles O11: the walk from the seed, and the bounds on its codes. -/
theorem encodeWalksDownFromTheSeed : Obligations.EncodeWalksDownFromTheSeed := fun cfg fam hshape =>
  ⟨encodeDivider_zero cfg fam, encodeDivider_one cfg fam, encodeDivider_two cfg fam, encodeDivider_maxRaw cfg fam,
    fun _ => encodeDivider_pred, fun _ h3 _ => encodeDivider_lt_two_pow_len hshape h3,
    fun r _ => encodeDivider_lt hshape r⟩

/-- Settles O12: the decoder's answer is that of a special code or of the search. -/
theorem decodeTriesSpecialsThenTheLargest : Obligations.DecodeTriesSpecialsThenTheLargest := fun _ _ _ =>
  ⟨decodeDivider_eq_none_iff, fun _ h =>
    ⟨encodeDivider_of_decode h, decodeDivider_le h, fun h3 _ hr' hmax => decodeDivider_first h h3 hr' hmax⟩⟩

/-- Settles O14: a repeat anywhere is seen by one part of the check, and each part asks only for codes that differ. -/
theorem familyCheckMeansDistinctCodes : Obligations.FamilyCheckMeansDistinctCodes := by
  intro cfg fam
  have hmax := Family.three_le_maxRaw fam
  constructor
  · exact fun hok => ⟨familyShapeOk_of_familyOk hok, fun _ _ => encodeDivider_injective hok⟩
  · rintro ⟨hshape, hinj⟩
    refine familyOk_iff.2 ⟨hshape, fun r r' hlt hle heq => ?_, fun s hs r h3 hr heq => ?_, fun r h3 hr heq => ?_⟩
    · exact hlt.ne (hinj r r' (by omega) (by omega) heq)
    · have hrs := hinj r s hr (by omega) heq
      omega
    · exact h3.ne' (hinj r 3 hr hmax heq)

/-- Settles O15: every code of a raw value fits the field. -/
theorem wideCodesDecodeToNothing : Obligations.WideCodesDecodeToNothing := fun _ _ _ hshape hwide =>
  decodeDivider_eq_none_iff.2 fun raw _ => ((encodeDivider_lt hshape raw).trans_le hwide).ne

/-- Settles O8, by the command of each family inside and outside its domain. -/
theorem encCommandsWriteTheCode : Obligations.EncCommandsWriteTheCode := fun _ =>
  ⟨exec_encOf_of_le (fam := .n), exec_encOf_of_gt (fam := .n), exec_encOf_of_le (fam := .p),
    exec_encOf_of_gt (fam := .p), exec_encOf_of_le (fam := .m), exec_encOf_of_gt (fam := .m)⟩

/-- Settles O9: DEC writes what it found, or 0. -/
theorem decCommandsWriteRawAndMatch : Obligations.DecCommandsWriteRawAndMatch := by
  intro fam s
  refine ⟨fun raw hfound => ?_, fun hfound => ?_⟩ <;> rw [exec_decOf, decodeCommand_eq, hfound] <;> rfl

end Sys2Proof.Machine
end

section
/-! SUPPORT. What the Bandwidth Selector computes in each band of the effective multiplier, and how the triple is packed
(R91 to R95). -/

namespace Sys2Proof.Machine

/-! ### The effective multiplier and the filter triple -/

theorem effectiveMult_eq_ite (cfg : Config) (m : Nat) (byp : Bool) :
    effectiveMult cfg m byp = if cfg.selfiltHalveOnBypass = true ∧ byp = true then m / 2 else m := by
  simp only [effectiveMult, Bool.and_eq_true]

theorem selfilt_selP_lt (cfg : Config) (m : Nat) (byp : Bool) : (selfilt cfg m byp).selP < 2 ^ 8 :=
  (filterP_le _).trans_lt (by decide)

/-- The clamp of R92 keeps selI inside its field, which is at most a byte wide (R95). -/
theorem selfilt_selI_lt {cfg : Config} (h : scalarsOk cfg = true) (m : Nat) (byp : Bool) :
    (selfilt cfg m byp).selI < 2 ^ 8 := by
  obtain ⟨-, -, hwidth, -, hmax, -, -⟩ := scalarsOk_iff.1 h
  calc (selfilt cfg m byp).selI
    _ ≤ cfg.seliMax := Nat.min_le_right _ _
    _ < 2 ^ cfg.selIW := hmax
    _ ≤ 2 ^ 8 := Nat.pow_le_pow_right Nat.two_pos hwidth

/-! ### The bands of selI -/

section
variable {cfg : Config} {me : Nat}

theorem filterI_of_lt_60 (h : me < 60) : filterI cfg me = min cfg.seliLow[me] cfg.seliMax := by
  rw [filterI, rawFilterI, dif_pos h]

theorem filterI_of_lt_501 (h60 : 60 ≤ me) (h : me < 501) :
    filterI cfg me = min (4 * (1024 / (me + 9))) cfg.seliMax := by
  rw [filterI, rawFilterI, dif_neg h60.not_gt, if_pos h]

/-- From 501 on selI is read in the step table. -/
theorem rawFilterI_of_ge_501 (h : 501 ≤ me) :
    rawFilterI cfg me = if me ≤ 2048 then cfg.seliStep[3] else if me ≤ 8192 then cfg.seliStep[2]
      else if me ≤ 16384 then cfg.seliStep[1] else cfg.seliStep[0] := by
  rw [rawFilterI, dif_neg (by omega), if_neg h.not_gt]

theorem filterI_of_le_2048 (h501 : 501 ≤ me) (h : me ≤ 2048) : filterI cfg me = min cfg.seliStep[3] cfg.seliMax := by
  rw [filterI, rawFilterI_of_ge_501 h501, if_pos h]

theorem filterI_of_le_8192 (h2048 : 2048 < me) (h : me ≤ 8192) :
    filterI cfg me = min cfg.seliStep[2] cfg.seliMax := by
  rw [filterI, rawFilterI_of_ge_501 (by omega), if_neg h2048.not_ge, if_pos h]

theorem filterI_of_le_16384 (h8192 : 8192 < me) (h : me ≤ 16384) :
    filterI cfg me = min cfg.seliStep[1] cfg.seliMax := by
  rw [filterI, rawFilterI_of_ge_501 (by omega), if_neg (by omega), if_neg h8192.not_ge, if_pos h]

theorem filterI_of_gt_16384 (h : 16384 < me) : filterI cfg me = min cfg.seliStep[0] cfg.seliMax := by
  rw [filterI, rawFilterI_of_ge_501 (by omega), if_neg (by omega), if_neg (by omega), if_neg h.not_ge]

end

/-! ### The packing and the command -/

/-- Bytes that do not overlap add up. -/
theorem Filter.packed_eq_add {t : Filter} (hP : t.selP < 2 ^ 8) (hI : t.selI < 2 ^ 8) :
    t.packed = t.selR * 65536 + t.selI * 256 + t.selP := by
  have hmid : t.selI <<< 8 < 2 ^ 16 := by rw [Nat.shiftLeft_eq]; omega
  have hlow : t.selI <<< 8 ||| t.selP = t.selI * 256 + t.selP := by
    rw [← Nat.shiftLeft_add_eq_or_of_lt hP, Nat.shiftLeft_eq]
  calc t.packed
    _ = t.selR <<< 16 ||| (t.selI <<< 8 ||| t.selP) := Nat.or_assoc _ _ _
    _ = t.selR <<< 16 + (t.selI * 256 + t.selP) := by
          rw [← hlow, Nat.shiftLeft_add_eq_or_of_lt (Nat.or_lt_two_pow hmid (hP.trans (by decide)))]
    _ = t.selR * 65536 + t.selI * 256 + t.selP := by rw [Nat.shiftLeft_eq, Nat.add_assoc]

/-- With the scalars in range the word of SELFILT is exact, selI above selP; selR is 0 and adds nothing (R94, R95). -/
theorem selfilt_word_toNat {cfg : Config} (h : scalarsOk cfg = true) (m : Nat) (byp : Bool) :
    (BitVec.ofNat 32 (selfilt cfg m byp).packed).toNat = (selfilt cfg m byp).selI * 256 + (selfilt cfg m byp).selP := by
  have hP := selfilt_selP_lt cfg m byp
  have hI := selfilt_selI_lt h m byp
  have hR : (selfilt cfg m byp).selR = 0 := rfl
  rw [Filter.packed_eq_add hP hI, hR, BitVec.toNat_ofNat]
  omega

/-- The next state of SELFILT, its word still in `packed` form (R95). -/
theorem exec_selfilt (s : State) :
    exec .selfilt s = .next { s with
      r := BitVec.ofNat 32 (selfilt s.cfg s.a.toNat (s.f.getLsbD 0)).packed, st := 0
      held := { s.held with r := true, st := true } } := rfl

end Sys2Proof.Machine
end

section
/-! SUPPORT. The theorems that settle the statements about the Bandwidth Selector
(spec/41_bandwidth_selector.md). -/

namespace Sys2Proof.Machine

/-- Settles O19: both coefficients are bytes, so `R` splits back into them. -/
theorem selfiltPacksTheTriple : Obligations.SelfiltPacksTheTriple := by
  intro s hscalars
  have hP := selfilt_selP_lt s.cfg s.a.toNat (s.f.getLsbD 0)
  have hI := selfilt_selI_lt hscalars s.a.toNat (s.f.getLsbD 0)
  refine ⟨_, exec_selfilt s, ?_⟩
  rw [selfilt_word_toNat hscalars]
  omega

/-- Settles O17: `selfilt` has the branches of R93 by its definition, and `filterP_le` bounds both. -/
theorem filterPAndRFollowTheMultiplier : Obligations.FilterPAndRFollowTheMultiplier := fun _ _ _ =>
  ⟨rfl, filterP_le _, rfl⟩

/-- Settles O18, one band at a time. -/
theorem filterIFollowsTheBands : Obligations.FilterIFollowsTheBands := by
  intro cfg m me byp hme
  rw [← effectiveMult_eq_ite] at hme
  subst hme
  exact ⟨filterI_of_gt_16384, filterI_of_le_16384, filterI_of_le_8192, filterI_of_le_2048, filterI_of_lt_501,
    filterI_of_lt_60⟩

end Sys2Proof.Machine
end

section
/-! SUPPORT. What each step of the synthesizer computes (R102 to R112): the searches of the two dividers, the multiplier
and its fraction, which check answers a request, and the fields of the packed set. -/

namespace Sys2Proof.Machine

/-! ### The post-divider -/

@[simp] theorem ccoOf_zero (fout : Nat) : ccoOf fout 0 = fout := rfl

@[simp] theorem ccoOf_succ (fout p : Nat) : ccoOf fout (p + 1) = fout * (p + 1) * 2 := rfl

/-- The loop stops at the first post-divider, from `p` on, that lifts the CCO into its band. -/
theorem postDivLoop_eq_some {fout k p q : Nat} (h : postDivLoop fout k p = some q) :
    q < p + k ∧ ccoMinHz ≤ ccoOf fout q ∧ ∀ r, p ≤ r → r < q → ccoOf fout r < ccoMinHz := by
  induction k generalizing p with
  | zero => cases h
  | succ k ih =>
    unfold postDivLoop at h
    split at h
    · next hlow =>
      obtain ⟨hq, hband, hbelow⟩ := ih h
      refine ⟨by omega, hband, fun r hpr hrq => ?_⟩
      rcases hpr.eq_or_lt with rfl | hpr
      · exact hlow
      · exact hbelow r hpr hrq
    · next hband =>
      cases h
      exact ⟨by omega, not_lt.1 hband, fun r hpr hrp => absurd hrp hpr.not_gt⟩

/-- The loop finds a post-divider when one of those it tries lifts the CCO into its band. -/
theorem postDivLoop_isSome {fout k p q : Nat} (hpq : p ≤ q) (hq : q < p + k) (hband : ccoMinHz ≤ ccoOf fout q) :
    ∃ r, postDivLoop fout k p = some r := by
  induction k generalizing p with
  | zero => omega
  | succ k ih =>
    unfold postDivLoop
    split
    · next hlow =>
      have hne : p ≠ q := fun heq => hband.not_gt (heq ▸ hlow)
      exact ih (by omega) (by omega)
    · exact ⟨p, rfl⟩

/-- R105: the post-divider found is at most 32 and the least one that lifts the CCO into its band. -/
theorem postDivSearch_eq_some {fout p : Nat} (h : postDivSearch fout = some p) :
    p ≤ 32 ∧ ccoMinHz ≤ ccoOf fout p ∧ ∀ q, q < p → ccoOf fout q < ccoMinHz := by
  obtain ⟨hp, hband, hbelow⟩ := postDivLoop_eq_some h
  exact ⟨by omega, hband, fun q => hbelow q q.zero_le⟩

/-- R116: 32 lifts every output that passes the checks. -/
theorem postDivSearch_isSome {fout : Nat} (h : outMinHz ≤ fout) : ∃ p, postDivSearch fout = some p := by
  refine postDivLoop_isSome (q := 32) (Nat.zero_le _) (by omega) ?_
  rw [ccoOf_succ]
  unfold outMinHz at h
  unfold ccoMinHz
  omega

/-- R115: the step to the least post-divider at most doubles a CCO that was below the band. -/
theorem ccoOf_le_of_least {fout p : Nat} (hout : fout ≤ outMaxHz) (hbelow : ∀ q, q < p → ccoOf fout q < ccoMinHz) :
    ccoOf fout p ≤ outMaxHz := by
  unfold ccoMinHz at hbelow
  unfold outMaxHz at hout ⊢
  match p with
  | 0 => exact hout
  | 1 =>
    have hzero := hbelow 0 Nat.one_pos
    rw [ccoOf_zero] at hzero
    rw [ccoOf_succ]
    omega
  | p + 2 =>
    have hpred := hbelow (p + 1) (Nat.lt_succ_self _)
    have hone : fout ≤ fout * (p + 1) := Nat.le_mul_of_pos_right _ p.succ_pos
    rw [ccoOf_succ] at hpred
    rw [ccoOf_succ, Nat.mul_succ fout (p + 1)]
    omega

/-! ### The pre-divider -/

/-- R106: the guards under which the candidate of the common divisor is adopted. -/
def CandidateAdopted (fin cco ff : Nat) : Prop :=
  inMinHz < fin ∧ fin ≤ cco ∧ gcdMinHz < Nat.gcd cco (ff * fin) ∧ ff * fin < 256 * Nat.gcd cco (ff * fin)

/-- The adopted candidate times the common divisor is the adjusted input: the division of R106 is exact. -/
theorem preDivSearch_mul_gcd {fin cco ff : Nat} (hff : 0 < ff) (h : CandidateAdopted fin cco ff) :
    preDivSearch fin cco ff * Nat.gcd cco (ff * fin) = ff * fin := by
  obtain ⟨hfin, hcco, hgcd, hmax⟩ := h
  have hdvd : Nat.gcd cco (ff * fin) ∣ ff * fin := Nat.gcd_dvd_right _ _
  have hpos : 0 < ff * fin := Nat.mul_pos hff (by omega)
  have hne : ff * fin / Nat.gcd cco (ff * fin) ≠ 0 := (Nat.div_pos (Nat.le_of_dvd hpos hdvd) (by omega)).ne'
  have hlt : ff * fin / Nat.gcd cco (ff * fin) < 256 := (Nat.div_lt_iff_lt_mul (by omega)).2 hmax
  rw [preDivSearch, if_pos ⟨hfin, hcco⟩, if_pos hgcd, if_pos ⟨hne, hlt⟩, Nat.div_mul_cancel hdvd]

theorem preDivSearch_eq_one {fin cco ff : Nat} (h : ¬ CandidateAdopted fin cco ff) : preDivSearch fin cco ff = 1 := by
  unfold preDivSearch
  split_ifs with hguards hgcd hcand
  · have hlt := (Nat.div_lt_iff_lt_mul (Nat.zero_lt_of_lt hgcd)).1 hcand.2
    exact absurd ⟨hguards.1, hguards.2, hgcd, hlt⟩ h
  all_goals rfl

/-- R118: the pre-divider is in its codec domain, and 256 itself is not adopted. -/
theorem preDivSearch_bounds {fin cco ff : Nat} (hff : 0 < ff) :
    1 ≤ preDivSearch fin cco ff ∧ preDivSearch fin cco ff < 256 := by
  by_cases h : CandidateAdopted fin cco ff
  · have hmul := preDivSearch_mul_gcd hff h
    obtain ⟨hfin, -, -, hmax⟩ := h
    constructor
    · refine Nat.pos_of_ne_zero fun hzero => ?_
      have hpos : 0 < ff * fin := Nat.mul_pos hff (by omega)
      rw [hzero, Nat.zero_mul] at hmul
      omega
    · exact Nat.lt_of_mul_lt_mul_right (hmul.trans_lt hmax)
  · rw [preDivSearch_eq_one h]
    decide

theorem feedbackFactor_pos (fb2 : Bool) : 0 < feedbackFactor fb2 := by
  cases fb2 <;> decide

/-! ### The multiplier and the fraction -/

theorem absDiff_of_le {a b : Nat} (h : a ≤ b) : absDiff a b = b - a := by
  rw [absDiff, Nat.sub_eq_zero_of_le h, Nat.zero_add]

theorem absDiff_of_ge {a b : Nat} (h : b ≤ a) : absDiff a b = a - b := by
  rw [absDiff, Nat.sub_eq_zero_of_le h, Nat.add_zero]

/-- Up to the floor quotient a smaller multiplier is strictly further from the target. -/
theorem absDiff_mul_lt_of_lt_quotient {d m cco : Nat} (hd : 0 < d) (hm : m < cco / d) :
    absDiff (d * (cco / d)) cco < absDiff (d * m) cco := by
  have hfloor : d * (cco / d) ≤ cco := Nat.mul_div_le cco d
  have hlt : d * m < d * (cco / d) := Nat.mul_lt_mul_of_pos_left hm hd
  rw [absDiff_of_le hfloor, absDiff_of_le (hlt.le.trans hfloor)]
  omega

/-- Above the floor quotient a larger multiplier is no nearer to the target. -/
theorem absDiff_mul_le_of_gt_quotient {d m cco : Nat} (hd : 0 < d) (hm : cco / d < m) :
    absDiff (d * (cco / d + 1)) cco ≤ absDiff (d * m) cco := by
  have hceil : cco < d * (cco / d + 1) := Nat.lt_mul_div_succ cco hd
  have hle : d * (cco / d + 1) ≤ d * m := Nat.mul_le_mul_left d hm
  rw [absDiff_of_ge hceil.le, absDiff_of_ge (hceil.le.trans hle)]
  omega

/-- R108, R109: the floor quotient, corrected once, is the nearest multiplier, and the smaller one on a tie. -/
theorem nudge_nearest {d cco : Nat} (hd : 0 < d) (m : Nat) :
    absDiff (d * nudge d (cco / d) cco) cco ≤ absDiff (d * m) cco ∧
      (absDiff (d * nudge d (cco / d) cco) cco = absDiff (d * m) cco → nudge d (cco / d) cco ≤ m) := by
  have hbelow := absDiff_mul_lt_of_lt_quotient (cco := cco) (m := m) hd
  have habove := absDiff_mul_le_of_gt_quotient (cco := cco) (m := m) hd
  unfold nudge
  rcases lt_trichotomy m (cco / d) with hm | rfl | hm
  · have := hbelow hm
    split <;> omega
  · split <;> omega
  · have := habove hm
    split <;> omega

/-- R111: the floor quotient and the 11 bits of its remainder are together one floor quotient of the scaled target. -/
theorem fixedPoint_eq_div (cco d : Nat) : 2048 * (cco / d) + cco % d * 2048 / d = 2048 * cco / d := by
  rcases Nat.eq_zero_or_pos d with rfl | hd
  · simp
  · have hsplit : 2048 * cco = cco % d * 2048 + d * (2048 * (cco / d)) := by
      conv_lhs => rw [← Nat.mod_add_div cco d]
      ring
    rw [hsplit, Nat.add_mul_div_left _ _ hd, Nat.add_comm]

/-! ### Which check answers a request -/

theorem synthSearch_ok {cfg : Config} {k : Key} (h : outMinHz ≤ k.fout.toNat) : ∃ raw, synthSearch cfg k = .ok raw := by
  obtain ⟨p, hp⟩ := postDivSearch_isSome h
  exact ⟨synthAt cfg k p, by simp [synthSearch, hp]⟩

/-- Everything a request can come to, with the condition of each answer (R102, R103, R104, R116). -/
theorem synthRaw_cases (cfg : Config) (k : Key) :
    (synthRaw cfg k = .err .outputTooHigh ∧ 150000000 < k.fout.toNat) ∨
      (synthRaw cfg k = .err .outputTooLow ∧ k.fout.toNat < 1171875) ∨
      (synthRaw cfg k = .err .inputTooLow ∧ 1171875 ≤ k.fout.toNat ∧ k.fout.toNat ≤ 150000000 ∧
        ((k.ss = true ∧ k.fin.toNat < 2000000) ∨ (k.ss = false ∧ k.fin.toNat < 4000))) ∨
      (synthRaw cfg k = .err .inputTooHigh ∧ 1171875 ≤ k.fout.toNat ∧ k.fout.toNat ≤ 150000000 ∧ k.ss = true ∧
        2000000 ≤ k.fin.toNat ∧ 256 < k.fin.toNat / cfg.ssRefHz) ∨
      (synthRaw cfg k = .ssPreDividerZero ∧ 1171875 ≤ k.fout.toNat ∧ k.fout.toNat ≤ 150000000 ∧ k.ss = true ∧
        2000000 ≤ k.fin.toNat ∧ k.fin.toNat / cfg.ssRefHz = 0) ∨
      ((∃ raw, synthRaw cfg k = .ok raw) ∧ InRange cfg k) := by
  unfold synthRaw
  split_ifs with hhigh hlow hss hssLow hpreHigh hpreZero hinLow
  · exact .inl ⟨rfl, hhigh⟩
  · exact .inr (.inl ⟨rfl, hlow⟩)
  all_goals
    have hmin : 1171875 ≤ k.fout.toNat := not_lt.1 hlow
    have hmax : k.fout.toNat ≤ 150000000 := not_lt.1 hhigh
  · exact .inr (.inr (.inl ⟨rfl, hmin, hmax, .inl ⟨hss, hssLow⟩⟩))
  · exact .inr (.inr (.inr (.inl ⟨rfl, hmin, hmax, hss, not_lt.1 hssLow, hpreHigh⟩)))
  · exact .inr (.inr (.inr (.inr (.inl ⟨rfl, hmin, hmax, hss, not_lt.1 hssLow, hpreZero⟩))))
  · exact .inr (.inr (.inr (.inr (.inr ⟨synthSearch_ok hmin, hmin, hmax,
      .inr ⟨hss, not_lt.1 hssLow, Nat.pos_of_ne_zero hpreZero, not_lt.1 hpreHigh⟩⟩))))
  · exact .inr (.inr (.inl ⟨rfl, hmin, hmax, .inr ⟨Bool.eq_false_of_not_eq_true hss, hinLow⟩⟩))
  · exact .inr (.inr (.inr (.inr (.inr ⟨synthSearch_ok hmin, hmin, hmax,
      .inl ⟨Bool.eq_false_of_not_eq_true hss, not_lt.1 hinLow⟩⟩))))

/-- A request synthesizes exactly when it is inside the bounds of R102 to R104. -/
theorem exists_synthRaw_ok_iff {cfg : Config} {k : Key} : (∃ raw, synthRaw cfg k = .ok raw) ↔ InRange cfg k := by
  unfold InRange
  rcases synthRaw_cases cfg k with ⟨h, hc⟩ | ⟨h, hc⟩ | ⟨h, hc⟩ | ⟨h, hc⟩ | ⟨h, hc⟩ | ⟨h, hc⟩
  case inr.inr.inr.inr.inr => exact ⟨fun _ => hc, fun _ => h⟩
  all_goals
    simp only [h, reduceCtorEq, exists_false, false_iff]
    grind

/-! ### The raw values of a synthesis -/

section
variable (cfg : Config) (k : Key) (p : Nat)

@[simp] theorem synthAt_n : (synthAt cfg k p).n = preDivOf cfg k (ccoOf k.fout.toNat p) := rfl
@[simp] theorem synthAt_p : (synthAt cfg k p).p = p := rfl
@[simp] theorem synthAt_directO : (synthAt cfg k p).directO = decide (p = 0) := rfl

end

section
variable {cfg : Config} {k : Key}

theorem preDivOf_of_ss (h : k.ss = true) (cco : Nat) : preDivOf cfg k cco = k.fin.toNat / cfg.ssRefHz := if_pos h

theorem preDivOf_of_not_ss (h : k.ss = false) (cco : Nat) :
    preDivOf cfg k cco = preDivSearch k.fin.toNat cco (feedbackFactor k.fb2) := by simp [preDivOf, h]

/-- R118: the pre-divider of a request inside the bounds is in its codec domain; and it does not exceed the input. -/
theorem preDivOf_bounds (h : InRange cfg k) (cco : Nat) :
    1 ≤ preDivOf cfg k cco ∧ preDivOf cfg k cco ≤ 256 ∧ preDivOf cfg k cco ≤ k.fin.toNat := by
  obtain ⟨-, -, ⟨hss, hfin⟩ | ⟨hss, -, hpos, hmax⟩⟩ := h
  · rw [preDivOf_of_not_ss hss]
    have hbounds := preDivSearch_bounds (fin := k.fin.toNat) (cco := cco) (feedbackFactor_pos k.fb2)
    omega
  · rw [preDivOf_of_ss hss]
    exact ⟨hpos, hmax, Nat.div_le_self _ _⟩

/-- R108: the reference is at least 1, so that the division by it is one. -/
theorem synthAt_ref_pos (h : InRange cfg k) (p : Nat) : 1 ≤ (synthAt cfg k p).ref :=
  have ⟨hpos, _, hle⟩ := preDivOf_bounds h (ccoOf k.fout.toNat p)
  Nat.div_pos hle hpos

/-- R108, R109: outside spread-spectrum mode the multiplier is the corrected quotient of the two divisions in one. -/
theorem synthAt_m_of_not_ss (h : k.ss = false) (p : Nat) :
    (synthAt cfg k p).m = nudge ((synthAt cfg k p).ref * (synthAt cfg k p).ff)
      ((synthAt cfg k p).cco / ((synthAt cfg k p).ref * (synthAt cfg k p).ff)) (synthAt cfg k p).cco := by
  rw [← Nat.div_div_eq_div_mul]
  simp [synthAt, h]

theorem synthAt_frac_of_not_ss (h : k.ss = false) (p : Nat) : (synthAt cfg k p).frac = 0 := by simp [synthAt, h]

/-- R108: in spread-spectrum mode the integer part is the quotient of the two divisions in one. -/
theorem synthAt_m_of_ss (h : k.ss = true) (p : Nat) :
    (synthAt cfg k p).m = (synthAt cfg k p).cco / ((synthAt cfg k p).ff * (synthAt cfg k p).ref) := by
  rw [Nat.mul_comm, ← Nat.div_div_eq_div_mul]
  simp [synthAt, h]

theorem synthAt_frac_of_ss (h : k.ss = true) (p : Nat) :
    (synthAt cfg k p).frac = (synthAt cfg k p).cco % ((synthAt cfg k p).ff * (synthAt cfg k p).ref) * 2048 /
      ((synthAt cfg k p).ff * (synthAt cfg k p).ref) := by simp [synthAt, h]

end

/-! ### Packing -/

section
variable {cfg : Config} {raw : SynthRaw} {draw : Nat}

theorem packFilter_of_not_ss (h : raw.ss = false) : packFilter cfg raw = selfilt cfg raw.m (!raw.fb2) := by
  simp [packFilter, h]

theorem packFilter_of_ss (h : raw.ss = true) : packFilter cfg raw = { selP := 0, selI := 0, selR := 0 } := if_pos h

theorem multOverflows_of_not_ss (h : raw.ss = false) : multOverflows cfg raw = decide (32768 < raw.m) := by
  rw [multOverflows, h]
  rfl

theorem multOverflows_of_ss (h : raw.ss = true) : multOverflows cfg raw = decide (2 ^ cfg.mdIntW ≤ raw.m) := if_pos h

/-- R110, R118: the multiplier outside spread-spectrum mode. -/
theorem packMult_of_not_ss (h : raw.ss = false) :
    packMult cfg raw draw =
      if 32768 < raw.m then (Config.freeBits 17 draw).toNat else encodeDivider cfg .m raw.m := by
  simp [packMult, h, multOverflows_of_not_ss h]

/-- R111, R118: the fractional multiplier; its two parts do not overlap. -/
theorem packMult_of_ss (h : raw.ss = true) (hfrac : raw.frac < 2 ^ fracW) :
    packMult cfg raw draw =
      if 2 ^ cfg.mdIntW ≤ raw.m then (Config.freeBits cfg.multW draw).toNat else raw.m * 2048 + raw.frac := by
  have hadd : raw.m <<< fracW ||| raw.frac = raw.m * 2048 + raw.frac := by
    rw [← Nat.shiftLeft_add_eq_or_of_lt hfrac, Nat.shiftLeft_eq]
    rfl
  simp [packMult, h, multOverflows_of_ss h, hadd]

end

/-- The codes of an admissible configuration fit their fields, so that the packed set holds them whole (R112). -/
theorem pack_codes {cfg : Config} (ha : admissible cfg = true) (raw : SynthRaw) (draw : Nat) :
    (pack cfg raw draw).ndec.toNat = encodeDivider cfg .n raw.n ∧
      (pack cfg raw draw).pdec.toNat = encodeDivider cfg .p raw.p := by
  obtain ⟨-, -, hfam⟩ := admissible_iff.1 ha
  have hfits (fam : Family) (v : Nat) : encodeDivider cfg fam v < 2 ^ fam.width :=
    encodeDivider_lt (familyShapeOk_of_familyOk (hfam fam)) v
  exact ⟨(BitVec.toNat_ofNat _ _).trans (Nat.mod_eq_of_lt (hfits .n raw.n)),
    (BitVec.toNat_ofNat _ _).trans (Nat.mod_eq_of_lt (hfits .p raw.p))⟩

/-! ### The commands -/

theorem ErrKind.code_ne_success (kind : ErrKind) : kind.code ≠ successCode := by
  cases kind <;> decide

/-- A request that no valid slot answers is left to the Synthesizer (R123, R124, R129). -/
theorem exec_csynth_of_miss {s : State} (h : ∀ e ∈ s.sc, e.valid = true → e.key ≠ s.request) :
    exec .csynth s = cacheMiss s :=
  execCsynth_of_miss (cacheFind_none.2 h)

end Sys2Proof.Machine
end

section
/-! SUPPORT. The theorems that settle the statements about the PLL Synthesizer (spec/42_pll_synthesizer.md). -/

namespace Sys2Proof.Machine

/-- Settles O21: the answers that a request can come to exclude one another. -/
theorem requestChecksInOrder : Obligations.RequestChecksInOrder := by
  intro cfg k
  rcases synthRaw_cases cfg k with ⟨h, hc⟩ | ⟨h, hc⟩ | ⟨h, hc⟩ | ⟨h, hc⟩ | ⟨h, hc⟩ | ⟨⟨raw, h⟩, hc⟩
  case inr.inr.inr.inr.inr =>
    unfold InRange at hc
    simp only [h, reduceCtorEq, false_iff, ne_eq, not_false_eq_true, and_true]
    grind
  all_goals
    simp only [h, reduceCtorEq, SynthResult.err.injEq, false_iff, true_iff, ne_eq, not_false_eq_true, and_true]
    grind

/-- Settles O22: the loop tries the post-dividers in order. -/
theorem postDividerIsTheLeast : Obligations.PostDividerIsTheLeast := by
  intro cfg k raw h
  obtain ⟨p, hp, rfl⟩ := synthRaw_ok h
  obtain ⟨hle, hband, hbelow⟩ := postDivSearch_eq_some hp
  refine ⟨hle, ?_, decide_eq_true_iff, rfl, fun hne => ?_⟩
  · constructor
    · rintro rfl
      exact hband
    · exact fun hout => Nat.eq_zero_of_not_pos fun hpos => (hbelow 0 hpos).not_ge hout
  · obtain ⟨p, rfl⟩ := Nat.exists_eq_succ_of_ne_zero hne
    refine ⟨hband, fun q hq hlt => ?_⟩
    obtain ⟨q, rfl⟩ := Nat.exists_eq_succ_of_ne_zero (Nat.pos_iff_ne_zero.1 hq)
    exact hbelow (q + 1) hlt

/-- Settles O23: `directO` says which form the CCO has, and the CCO is that of the least post-divider. -/
theorem ccoStaysInItsBand : Obligations.CcoStaysInItsBand := by
  intro cfg k raw h
  obtain ⟨p, hp, rfl⟩ := synthRaw_ok h
  obtain ⟨-, hmax, -⟩ := exists_synthRaw_ok_iff.1 ⟨_, h⟩
  obtain ⟨-, hband, hbelow⟩ := postDivSearch_eq_some hp
  have hcco : (if (synthAt cfg k p).directO then k.fout.toNat else k.fout.toNat * (synthAt cfg k p).p * 2) =
      ccoOf k.fout.toNat p := by simp [ccoOf]
  rw [hcco]
  exact ⟨hband, ccoOf_le_of_least hmax hbelow⟩

/-- Settles O24, by the mode of the request. -/
theorem preDividerComesFromTheCommonDivisor : Obligations.PreDividerComesFromTheCommonDivisor := by
  intro cfg k raw h
  have hrange := exists_synthRaw_ok_iff.1 ⟨_, h⟩
  obtain ⟨p, -, rfl⟩ := synthRaw_ok h
  obtain ⟨hpos, hmax, -⟩ := preDivOf_bounds hrange (ccoOf k.fout.toNat p)
  refine ⟨decide_eq_true_iff, hpos, hmax, rfl, fun hss => preDivOf_of_ss hss _, fun hss => ?_⟩
  rw [synthAt_n, preDivOf_of_not_ss hss]
  exact ⟨preDivSearch_mul_gcd (feedbackFactor_pos k.fb2), preDivSearch_eq_one⟩

/-- Settles O25: the corrected quotient is the nearest. -/
theorem multiplierIsTheNearest : Obligations.MultiplierIsTheNearest := by
  intro cfg k raw h hss
  have hrange := exists_synthRaw_ok_iff.1 ⟨_, h⟩
  obtain ⟨p, -, rfl⟩ := synthRaw_ok h
  have href := synthAt_ref_pos hrange p
  refine ⟨rfl, href, synthAt_frac_of_not_ss hss p, fun m => ?_⟩
  rw [synthAt_m_of_not_ss hss]
  exact nudge_nearest (Nat.mul_pos href (feedbackFactor_pos k.fb2)) m

/-- Settles O26: integer part and fraction are together the floor quotient of the scaled target. -/
theorem fractionApproachesFromBelow : Obligations.FractionApproachesFromBelow := by
  intro cfg k raw h hss
  have hrange := exists_synthRaw_ok_iff.1 ⟨_, h⟩
  obtain ⟨p, -, rfl⟩ := synthRaw_ok h
  have href := synthAt_ref_pos hrange p
  have hd : 0 < (synthAt cfg k p).ff * (synthAt cfg k p).ref := Nat.mul_pos (feedbackFactor_pos k.fb2) href
  refine ⟨rfl, href, synthAt_m_of_ss hss p, Nat.le_of_lt_succ (synthAt_frac_lt cfg k p), ?_⟩
  rw [synthAt_m_of_ss hss, synthAt_frac_of_ss hss, fixedPoint_eq_div]
  exact ⟨Nat.div_mul_le_self _ _, Nat.lt_mul_of_div_lt (Nat.lt_succ_self _) hd⟩

/-- Settles O27, by the mode of the request. -/
theorem packedSetHoldsTheSynthesis : Obligations.PackedSetHoldsTheSynthesis := by
  intro cfg k raw draw ha h
  have hfits := pack_fits ha h draw
  obtain ⟨p, -, rfl⟩ := synthRaw_ok h
  obtain ⟨hn, hp⟩ := pack_codes ha (synthAt cfg k p) draw
  refine ⟨hn, hp, rfl, rfl, rfl, rfl, rfl, fun hss => ?_, fun hss => ?_, hfits⟩
  · have hfilter : packFilter cfg (synthAt cfg k p) = _ := packFilter_of_not_ss hss
    have hmult : packMult cfg (synthAt cfg k p) draw = _ := packMult_of_not_ss hss
    exact ⟨congrArg Filter.selP hfilter, congrArg Filter.selI hfilter, congrArg Filter.selR hfilter,
      fun hle => hmult.trans (if_neg hle.not_gt), fun hgt => hmult.trans (if_pos hgt)⟩
  · have hfilter : packFilter cfg (synthAt cfg k p) = _ := packFilter_of_ss hss
    have hmult : packMult cfg (synthAt cfg k p) draw = _ := packMult_of_ss hss (synthAt_frac_lt cfg k p)
    exact ⟨congrArg Filter.selP hfilter, congrArg Filter.selI hfilter, congrArg Filter.selR hfilter,
      fun hlt => hmult.trans (if_neg hlt.not_ge), fun hge => hmult.trans (if_pos hge)⟩

/-- Settles O28: a request inside the bounds has a synthesis, and SYNTH delivers its set. -/
theorem synthSucceedsInRange : Obligations.SynthSucceedsInRange := by
  intro s hrange
  obtain ⟨raw, hraw⟩ := exists_synthRaw_ok_iff.2 hrange
  exact ⟨raw, hraw, execSynth_of_ok hraw⟩

/-- Settles O31, by what the common request comes to. -/
theorem synthDependsOnTheRequestAlone : Obligations.SynthDependsOnTheRequestAlone := by
  intro s s' hcfg hreq
  have hsame : synthRaw s'.cfg s'.request = synthRaw s.cfg s.request := by rw [hcfg, hreq]
  cases hraw : synthRaw s.cfg s.request with
  | ok raw =>
    refine .inl ⟨_, _, execSynth_of_ok hraw, execSynth_of_ok (hsame.trans hraw), rfl, .inr ⟨?_, rfl, raw, rfl, ?_⟩⟩
    · rw [State.deliver_ps, State.deliver_ps, ← hcfg]
      exact pack_mult_free s.cfg raw s.draws s'.draws
    · intro hfit
      rw [State.deliver_ps, State.deliver_ps, ← hcfg]
      exact pack_of_fit hfit s.draws s'.draws
  | err kind =>
    exact .inl ⟨_, _, execSynth_of_err hraw, execSynth_of_err (hsame.trans hraw), rfl,
      .inl ⟨rfl, rfl, kind.code_ne_success⟩⟩
  | ssPreDividerZero => exact .inr ⟨execSynth_of_zero hraw, execSynth_of_zero (hsame.trans hraw)⟩

/-- Settles O29: on a miss CSYNTH fails as SYNTH does. -/
theorem failureWritesOnlyTheStatus : Obligations.FailureWritesOnlyTheStatus := fun _ _ hraw =>
  ⟨execSynth_of_err hraw, fun hmiss => (exec_csynth_of_miss hmiss).trans (cacheMiss_of_err hraw)⟩

/-- Settles O30: on a miss CSYNTH is refused as SYNTH is. -/
theorem zeroPreDividerIsRefused : Obligations.ZeroPreDividerIsRefused := by
  intro s hmin hmax hss hfin hzero
  obtain ⟨-, -, -, -, hrefused, -⟩ := requestChecksInOrder s.cfg s.request
  have hraw : synthRaw s.cfg s.request = .ssPreDividerZero := hrefused.2 ⟨hmin, hmax, hss, hfin, hzero⟩
  exact ⟨execSynth_of_zero hraw, fun hmiss => (exec_csynth_of_miss hmiss).trans (cacheMiss_of_zero hraw)⟩

end Sys2Proof.Machine
end

section
/-! SUPPORT. What the Synthesis Cache finds, what CSYNTH stores on a miss, and the keys a run of misses leaves in the
ring. -/

namespace Sys2Proof.Machine

/-! ### Hits -/

/-- Two valid slots of a ring with distinct keys that have one key are one slot (R33 (a)). -/
theorem CacheKeysDistinct.slot_eq {s : State} (h : CacheKeysDistinct s) {e e' : Slot} (he : e ∈ s.sc)
    (he' : e' ∈ s.sc) (hv : e.valid = true) (hv' : e'.valid = true) (hkey : e.key = e'.key) : e = e' := by
  obtain ⟨i, hi, rfl⟩ := List.getElem_of_mem he
  obtain ⟨j, hj, rfl⟩ := List.getElem_of_mem he'
  obtain rfl : i = j := h i j hi hj hv hv' hkey
  rfl

/-- So the cache finds the valid slot that has the key, wherever it stands in the ring (R121). -/
theorem CacheKeysDistinct.cacheFind_eq {s : State} (h : CacheKeysDistinct s) {e : Slot} (he : e ∈ s.sc)
    (hv : e.valid = true) : cacheFind s.sc e.key = some e := by
  cases hfind : cacheFind s.sc e.key with
  | some found =>
    obtain ⟨hmem, hvalid, hkey⟩ := cacheFind_some hfind
    rw [h.slot_eq hmem he hvalid hv hkey]
  | none => exact absurd rfl (cacheFind_none.1 hfind e he hv)

/-! ### Misses -/

/-- A store touches the ring and the cursor alone, and with capacity 0 neither (R123, R126). -/
theorem State.cacheStore_eq (s : State) (k : Key) (pset : PSet) :
    s.cacheStore k pset =
      { s with
        sc := if s.cfg.cacheCap = 0 then s.sc else s.sc.set s.scCur { valid := true, key := k, val := pset }
        scCur := if s.cfg.cacheCap = 0 then s.scCur else (s.scCur + 1) % s.cfg.cacheCap } := by
  unfold State.cacheStore
  split <;> rfl

/-- CSYNTH of a request that no valid slot answers and that has a synthesis stores and delivers its set. -/
theorem exec_csynth_of_miss_ok {s : State} {raw : SynthRaw} (hmiss : ∀ e ∈ s.sc, e.valid = true → e.key ≠ s.request)
    (hraw : synthRaw s.cfg s.request = .ok raw) :
    exec .csynth s =
      .next ((s.cacheStore s.request (pack s.cfg raw s.draws)).deliver (pack s.cfg raw s.draws)
        (packDraws s.cfg raw)) :=
  (exec_csynth_of_miss hmiss).trans (cacheMiss_of_ok hraw)

theorem State.withRequest_request (s : State) (k : Key) : (s.withRequest k).request = k := by
  simp only [State.request, State.withRequest, State.useFeedbackDiv2, State.useSpreadSpectrum, State.flag,
    flagByte_bit0, flagByte_bit1]

/-! ### The keys of the valid slots -/

/-- The key a slot answers to: none while the slot is not valid (R121). -/
def Slot.validKey (e : Slot) : Option Key := if e.valid then some e.key else none

theorem Slot.validKey_eq_some_iff {e : Slot} {k : Key} : e.validKey = some k ↔ e.valid = true ∧ e.key = k := by
  simp [Slot.validKey]

/-- The ring as a request sees it: the key of each valid slot. -/
def State.ringKeys (s : State) : List (Option Key) := s.sc.map Slot.validKey

/-- A key that the ring does not show is one that misses (R121). -/
theorem State.notMem_ringKeys_iff {s : State} {k : Key} :
    some k ∉ s.ringKeys ↔ ∀ e ∈ s.sc, e.valid = true → e.key ≠ k := by
  simp [State.ringKeys, Slot.validKey_eq_some_iff]

/-- Reset leaves every slot without a key (R30). -/
theorem State.initial_ringKeys (cfg : Config) (hw : Hw) :
    (State.initial cfg hw).ringKeys = List.replicate cfg.cacheCap none := List.map_replicate

/-- With capacity above 0, CSYNTH of a request that has a synthesis and misses puts its key at the cursor and advances
the cursor (R123). -/
theorem exec_csynth_puts_key {s : State} {k : Key} (hcap : 0 < s.cfg.cacheCap) (hrange : InRange s.cfg k)
    (hmiss : some k ∉ s.ringKeys) :
    ∃ t, exec .csynth (s.withRequest k) = .next t ∧ t.cfg = s.cfg ∧
      t.ringKeys = s.ringKeys.set s.scCur (some k) ∧ t.scCur = (s.scCur + 1) % s.cfg.cacheCap := by
  obtain ⟨raw, hraw⟩ := exists_synthRaw_ok_iff.2 hrange
  have hreq := s.withRequest_request k
  have hexec := exec_csynth_of_miss_ok (s := s.withRequest k) (raw := raw)
    (by rw [hreq]; exact State.notMem_ringKeys_iff.1 hmiss) (by rw [hreq]; exact hraw)
  refine ⟨_, hexec, ?_⟩
  rw [hreq, State.cacheStore_eq]
  simp [State.withRequest, State.ringKeys, Slot.validKey, hcap.ne']

/-! ### Runs of CSYNTH -/

theorem csynthAll_cons {s t : State} {k : Key} {rest : List Key} (h : exec .csynth (s.withRequest k) = .next t) :
    csynthAll s (k :: rest) = csynthAll t rest := by
  simp [csynthAll, h]

/-- From a ring whose first slots hold `stored` and whose free slots are just enough for `todo`, CSYNTH of `todo` fills the
ring in the order of the requests and brings the cursor back to slot 0; the run goes on with `later`. -/
theorem csynthAll_fills {s : State} {stored todo : List Key} (later : List Key)
    (hrange : ∀ k ∈ todo, InRange s.cfg k) (hlen : (stored ++ todo).length = s.cfg.cacheCap)
    (hnodup : (stored ++ todo).Nodup) (hkeys : s.ringKeys = stored.map some ++ List.replicate todo.length none)
    (hcur : s.scCur = stored.length % s.cfg.cacheCap) :
    ∃ t, csynthAll s (todo ++ later) = csynthAll t later ∧ t.cfg = s.cfg ∧ t.ringKeys = (stored ++ todo).map some ∧
      t.scCur = 0 := by
  induction todo generalizing s stored with
  | nil =>
    rw [List.append_nil] at hlen
    exact ⟨s, rfl, rfl, by simpa using hkeys, by rw [hcur, hlen, Nat.mod_self]⟩
  | cons k rest ih =>
    have hassoc : stored ++ k :: rest = (stored ++ [k]) ++ rest := List.append_cons ..
    have hroom : stored.length < s.cfg.cacheCap := by simp at hlen; omega
    have hmiss : some k ∉ s.ringKeys := by
      have hk : k ∉ stored := fun hmem => List.disjoint_of_nodup_append hnodup hmem List.mem_cons_self
      simpa [hkeys] using hk
    obtain ⟨t, hexec, hcfg, htkeys, htcur⟩ :=
      exec_csynth_puts_key (Nat.zero_lt_of_lt hroom) (hrange k List.mem_cons_self) hmiss
    rw [Nat.mod_eq_of_lt hroom] at hcur
    rw [List.cons_append, csynthAll_cons hexec, hassoc, ← hcfg]
    rw [hassoc] at hlen hnodup
    refine ih (fun d hd => hcfg ▸ hrange d (List.mem_cons_of_mem k hd)) (hcfg ▸ hlen) hnodup ?keys ?cursor
    case keys =>
      rw [htkeys, hkeys, hcur, List.set_append_right _ _ (by simp)]
      simp [List.replicate_succ]
    case cursor => rw [htcur, hcur, hcfg, List.length_append, List.length_singleton]

end Sys2Proof.Machine
end

section
/-! SUPPORT. The theorems that settle the statements about the Synthesis Cache (spec/43_synthesis_cache.md). -/

namespace Sys2Proof.Machine

/-- Settles O32: with distinct keys the slot that the cache finds is the one named. -/
theorem cacheHitReturnsTheStoredSet : Obligations.CacheHitReturnsTheStoredSet := by
  intro s e hdistinct he hvalid hkey
  exact execCsynth_of_hit (hkey ▸ hdistinct.cacheFind_eq he hvalid)

/-- Settles O33: a request inside the bounds has a synthesis, and the miss stores and delivers its set. -/
theorem cacheMissStoresAtTheCursor : Obligations.CacheMissStoresAtTheCursor := by
  intro s hrange hmiss
  obtain ⟨raw, hraw⟩ := exists_synthRaw_ok_iff.2 hrange
  refine ⟨raw, hraw, ?_⟩
  rw [exec_csynth_of_miss_ok hmiss hraw, State.cacheStore_eq]
  rfl

/-- Settles O35: the requests before the last fill the ring in order, so the last one overwrites the first in slot 0. -/
theorem cacheEvictsTheFirstInserted : Obligations.CacheEvictsTheFirstInserted := by
  intro cfg hw first keys hcap hlen hnodup hrange
  obtain rfl | ⟨middle, last, rfl⟩ := keys.eq_nil_or_concat'
  · exact absurd hlen hcap.ne
  rw [← List.cons_append] at hnodup hrange ⊢
  obtain ⟨hfill, -, hdisjoint⟩ := List.nodup_append'.1 hnodup
  have hlast : last ∉ first :: middle := fun hmem => hdisjoint hmem (List.mem_singleton_self last)
  have hfull : (first :: middle).length = cfg.cacheCap := by simpa using hlen
  obtain ⟨s, hrun, rfl, hkeys, hcur⟩ := csynthAll_fills (s := State.initial cfg hw) (stored := []) [last]
    (fun k hk => hrange k (List.mem_append_left _ hk)) hfull hfill
    (by rw [State.initial_ringKeys, hfull]; rfl) (Nat.zero_mod _).symm
  obtain ⟨t, hexec, -, htkeys, htcur⟩ := exec_csynth_puts_key (k := last) hcap (hrange last (by simp))
    (by simpa [hkeys] using hlast)
  have hring : t.ringKeys = (last :: middle).map some := by rw [htkeys, hkeys, hcur]; rfl
  refine ⟨t, hrun.trans (csynthAll_cons hexec), State.notMem_ringKeys_iff.1 ?gone, by rw [htcur, hcur], ?slot0⟩
  case gone =>
    simp only [List.nodup_cons, List.mem_cons, not_or] at hfill hlast
    simpa [hring] using ⟨Ne.symm hlast.1, hfill.1⟩
  case slot0 =>
    have hhead : t.sc[0]?.map Slot.validKey = some (some last) := by
      rw [← List.getElem?_map]
      exact congrArg (·[0]?) hring
    obtain ⟨e, he, hkey⟩ := Option.map_eq_some_iff.1 hhead
    rw [he, List.getLast?_concat]
    exact congrArg some (Slot.validKey_eq_some_iff.1 hkey).2

end Sys2Proof.Machine
end

section
/-! SUPPORT. What the walk of the clock graph gives at each kind of node, what the check of a graph says of every node's
walk and ranks, and what FREQ.AT, PLL.RATE, PLL.OUT and the rate formula compute (R130 to R146). -/

namespace Sys2Proof.Machine

/-! ### Dividers and the selected input -/

theorem divideBy_eq (hw : Hw) :
    divideBy hw = fun f d => if hw.read (.tree d) = 0 then 0 else f / hw.read (.tree d) := rfl

@[simp] theorem divideBy_zero (hw : Hw) (d : Nat) : divideBy hw 0 d = 0 := by
  simp [divideBy_eq]

@[simp] theorem divideAll_cons (hw : Hw) (d : Nat) (divs : List Nat) (f : Nat) :
    divideAll hw (d :: divs) f = divideAll hw divs (divideBy hw f d) := rfl

/-- An input of 0 stays 0, whatever the dividers are (R135). -/
@[simp] theorem divideAll_zero (hw : Hw) (divs : List Nat) : divideAll hw divs 0 = 0 := by
  induction divs with
  | nil => rfl
  | cons d rest ih => rw [divideAll_cons, divideBy_zero, ih]

/-- A divider of 0 makes the frequency 0, wherever it stands in the list (R133, R135). -/
theorem divideAll_of_zero_mem {hw : Hw} {divs : List Nat} {d : Nat} (hd : d ∈ divs) (hzero : hw.read (.tree d) = 0)
    (f : Nat) : divideAll hw divs f = 0 := by
  induction divs generalizing f with
  | nil => cases hd
  | cons e rest ih =>
    rw [divideAll_cons]
    rcases List.mem_cons.1 hd with rfl | hrest
    · simp [divideBy_eq, hzero]
    · exact ih hrest _

/-- In a table of distinct selector values the entry of the selector's value is the one picked (R130 (b), R132). -/
theorem muxLookup_of_mem {table : List (Nat × Nat)} {sel pred : Nat} (hnodup : (table.map Prod.fst).Nodup)
    (hmem : (sel, pred) ∈ table) : muxLookup table sel = some pred := by
  cases hpick : muxLookup table sel with
  | none => exact absurd rfl (muxLookup_none.1 hpick _ hmem)
  | some picked => cases List.inj_on_of_nodup_map hnodup (muxLookup_some hpick) hmem rfl; rfl

/-- What the input of a `Derived` node walks to: its predecessor, the one its selector picks, or 0 (R132). -/
def inputWalk (cfg : Config) (hw : Hw) (depth : Nat) (memo : Memo) : NodeInput → Option (Nat × Memo)
  | .direct pred => freqWalk cfg hw depth pred memo
  | .mux sel table =>
    match muxLookup table (hw.read (.tree sel)) with
    | none => some (0, memo)
    | some pred => freqWalk cfg hw depth pred memo

section
variable {cfg : Config} {hw : Hw} {depth id : Nat} {memo : Memo}

theorem inputWalk_mux_of_pick {sel pred : Nat} {table : List (Nat × Nat)}
    (hpick : muxLookup table (hw.read (.tree sel)) = some pred) :
    inputWalk cfg hw depth memo (.mux sel table) = freqWalk cfg hw depth pred memo := by
  simp [inputWalk, hpick]

theorem inputWalk_mux_of_unknown {sel : Nat} {table : List (Nat × Nat)} (h : ∀ e ∈ table, e.1 ≠ hw.read (.tree sel)) :
    inputWalk cfg hw depth memo (.mux sel table) = some (0, memo) := by
  simp [inputWalk, muxLookup_none.2 h]

/-! ### The walk, by kind of node -/

theorem freqWalk_fixed {rate : Nat} (h : cfg.graph.nodes[id]? = some (.fixed rate)) :
    freqWalk cfg hw (depth + 1) id memo = some (rate, memo) := by
  simp [freqWalk, h]

theorem freqWalk_ext (h : cfg.graph.nodes[id]? = some .ext) :
    freqWalk cfg hw (depth + 1) id memo = some (cfg.extRate, memo) := by
  simp [freqWalk, h]

theorem freqWalk_gated {rate gate on : Nat} (h : cfg.graph.nodes[id]? = some (.gated rate gate on)) :
    freqWalk cfg hw (depth + 1) id memo = some (if hw.read (.tree gate) = on then rate else 0, memo) := by
  simp [freqWalk, h]

/-- R137, the memo is not 0. -/
theorem freqWalk_pllOut_of_memo (h : cfg.graph.nodes[id]? = some .pllOut) (hmemo : memo.pllFreq ≠ 0) :
    freqWalk cfg hw (depth + 1) id memo = some (memo.pllFreq.toNat, memo) := by
  simp only [freqWalk, h, if_neg hmemo]

/-- R137, the memo is 0: the rate of the registers for what the PLL's input walks to, stored. -/
theorem freqWalk_pllOut_of_stale {fin : Nat} {m : Memo} (h : cfg.graph.nodes[id]? = some .pllOut)
    (hstale : memo.pllFreq = 0) (hin : freqWalk cfg hw depth cfg.graph.pllIn memo = some (fin, m)) :
    freqWalk cfg hw (depth + 1) id memo =
      some ((m.store (rateOf cfg fin (snapshotPset hw))).pllFreq.toNat,
        m.store (rateOf cfg fin (snapshotPset hw))) := by
  simp [freqWalk, h, hstale, hin]

/-- R132, R133: a `Derived` node divides what its input walks to, and keeps the memo of that walk. -/
theorem freqWalk_derived {input : NodeInput} {divs : List Nat}
    (h : cfg.graph.nodes[id]? = some (.derived input divs)) :
    freqWalk cfg hw (depth + 1) id memo =
      (inputWalk cfg hw depth memo input).map fun r => (divideAll hw divs r.1, r.2) := by
  cases input with
  | direct pred =>
    simp only [freqWalk, h, inputWalk]
    cases freqWalk cfg hw depth pred memo <;> rfl
  | mux sel table =>
    simp only [freqWalk, h, inputWalk]
    cases muxLookup table (hw.read (.tree sel)) with
    | none => rfl
    | some pred => cases hpred : freqWalk cfg hw depth pred memo <;> simp [hpred]

theorem freqWalk_derived_of_input {input : NodeInput} {divs : List Nat} {f : Nat} {m : Memo}
    (h : cfg.graph.nodes[id]? = some (.derived input divs)) (hin : inputWalk cfg hw depth memo input = some (f, m)) :
    freqWalk cfg hw (depth + 1) id memo = some (divideAll hw divs f, m) := by
  rw [freqWalk_derived h, hin, Option.map_some]

end

/-! ### The check of a graph -/

/-- A node is grounded when it is in the graph and the nodes it names, and the PLL's input for `PllOut`, are grounded at
one depth less (R130 (a), (c)). -/
theorem grounded_succ_iff {g : Graph} {depth id : Nat} :
    grounded g (depth + 1) id = true ↔
      ∃ nd, g.nodes[id]? = some nd ∧ (∀ p ∈ nodePreds nd, grounded g depth p = true) ∧
        (nd = .pllOut → grounded g depth g.pllIn = true) := by
  rw [grounded]
  cases g.nodes[id]? with
  | none => simp
  | some nd =>
    match nd with
    | .fixed _ | .ext | .gated _ _ _ | .pllOut | .derived (.direct _) _ => simp [nodePreds]
    | .derived (.mux _ table) _ => simpa [nodePreds] using forall_comm

theorem lt_count_of_node {g : Graph} {id : Nat} {nd : Node} (h : g.nodes[id]? = some nd) : id < g.count :=
  (List.getElem?_eq_some_iff.1 h).1

theorem count_eq_succ_of_node {g : Graph} {id : Nat} {nd : Node} (h : g.nodes[id]? = some nd) :
    ∃ depth, g.count = depth + 1 :=
  Nat.exists_eq_succ_of_ne_zero (Nat.ne_zero_of_lt (lt_count_of_node h))

theorem lt_count_of_grounded {g : Graph} {depth id : Nat} (h : grounded g depth id = true) : id < g.count := by
  cases depth with
  | zero => cases h
  | succ depth =>
    obtain ⟨nd, hnode, -⟩ := grounded_succ_iff.1 h
    exact lt_count_of_node hnode

/-- The check of a graph, part by part. -/
theorem graphOk_iff {g : Graph} :
    graphOk g = true ↔
      g.pllIn < g.count ∧ (∀ id < g.count, grounded g g.count id = true) ∧ (∀ nd ∈ g.nodes, tableOk nd = true) ∧
        (∀ nd ∈ g.nodes, ∀ d ∈ nodeFields nd, d < g.fieldWidths.length) ∧ g.nodes.count .pllOut ≤ 1 := by
  simp [graphOk, and_assoc]

/-- The least depth at which a node is grounded: a rank, where every node of the graph has one. -/
noncomputable def groundDepth (g : Graph) (id : Nat) : Nat := sInf {d | grounded g d id = true}

theorem groundDepth_le {g : Graph} {depth id : Nat} (h : grounded g depth id = true) : groundDepth g id ≤ depth :=
  Nat.sInf_le h

/-- The rank of R130 (c): the least depth falls along every edge and from `PllOut` to the PLL's input. -/
theorem groundDepth_falls {g : Graph} {depth id : Nat} {nd : Node} (hg : grounded g depth id = true)
    (hnode : g.nodes[id]? = some nd) :
    (∀ p ∈ nodePreds nd, groundDepth g p < groundDepth g id) ∧
      (nd = .pllOut → groundDepth g g.pllIn < groundDepth g id) := by
  have hleast : grounded g (groundDepth g id) id = true := Nat.sInf_mem (s := {d | grounded g d id = true}) ⟨depth, hg⟩
  cases hdepth : groundDepth g id with
  | zero => rw [hdepth] at hleast; cases hleast
  | succ d =>
    rw [hdepth] at hleast
    obtain ⟨nd', hnode', hpreds, hpll⟩ := grounded_succ_iff.1 hleast
    cases hnode.symm.trans hnode'
    exact ⟨fun p hp => Nat.lt_succ_of_le (groundDepth_le (hpreds p hp)),
      fun heq => Nat.lt_succ_of_le (groundDepth_le (hpll heq))⟩

/-- How many nodes of the graph rank below a node: again a rank, and below the node count. -/
def nodesBelow (g : Graph) (rank : Nat → Nat) (id : Nat) : Nat :=
  ((Finset.range g.count).filter fun j => rank j < rank id).card

theorem nodesBelow_lt_of_lt {g : Graph} {rank : Nat → Nat} {p id : Nat} (hp : p < g.count) (h : rank p < rank id) :
    nodesBelow g rank p < nodesBelow g rank id := by
  refine Finset.card_lt_card ((Finset.ssubset_iff_of_subset ?mono).2 ⟨p, by simpa using ⟨hp, h⟩, by simp⟩)
  exact Finset.monotone_filter_right _ fun j _ hj => hj.trans h

theorem nodesBelow_lt_count {g : Graph} {rank : Nat → Nat} {id : Nat} (hid : id < g.count) :
    nodesBelow g rank id < g.count :=
  (Finset.card_lt_card (Finset.filter_ssubset.2 ⟨id, Finset.mem_range.2 hid, lt_irrefl (rank id)⟩)).trans_eq
    (Finset.card_range _)

/-- Where a rank falls along every edge, a node is grounded at each depth above the number of nodes below it. -/
theorem grounded_of_rank {g : Graph} {rank : Nat → Nat} (hpll : g.pllIn < g.count)
    (hids : ∀ nd ∈ g.nodes, ∀ p ∈ nodePreds nd, p < g.count)
    (hfalls : ∀ id nd, g.nodes[id]? = some nd →
      (∀ p ∈ nodePreds nd, rank p < rank id) ∧ (nd = .pllOut → rank g.pllIn < rank id))
    {depth id : Nat} (hid : id < g.count) (hdepth : nodesBelow g rank id < depth) : grounded g depth id = true := by
  induction depth generalizing id with
  | zero => cases hdepth
  | succ depth ih =>
    have hstep {p : Nat} (hp : p < g.count) (hlt : rank p < rank id) : grounded g depth p = true :=
      ih hp ((nodesBelow_lt_of_lt hp hlt).trans_le (Nat.le_of_lt_succ hdepth))
    have hnode : g.nodes[id]? = some g.nodes[id] := List.getElem?_eq_getElem hid
    obtain ⟨hpreds, hin⟩ := hfalls id _ hnode
    exact grounded_succ_iff.2 ⟨_, hnode, fun p hp => hstep (hids _ (List.getElem_mem hid) p hp) (hpreds p hp),
      fun heq => hstep hpll (hin heq)⟩

/-! ### The walk on a graph that the check accepts -/

section
variable {cfg : Config} {depth id : Nat}

/-- A grounded walk answers; it changes the memo only where that was 0 (R134, R137, R138). -/
theorem freqWalk_of_grounded (hw : Hw) (memo : Memo) (hg : grounded cfg.graph depth id = true) :
    ∃ f m, freqWalk cfg hw depth id memo = some (f, m) ∧ (memo.pllFreq ≠ 0 → m = memo) := by
  induction depth generalizing id with
  | zero => cases hg
  | succ depth ih =>
    obtain ⟨nd, hnode, hpreds, hpll⟩ := grounded_succ_iff.1 hg
    cases nd with
    | fixed rate => exact ⟨_, _, freqWalk_fixed hnode, fun _ => rfl⟩
    | ext => exact ⟨_, _, freqWalk_ext hnode, fun _ => rfl⟩
    | gated rate gate on => exact ⟨_, _, freqWalk_gated hnode, fun _ => rfl⟩
    | pllOut =>
      by_cases hmemo : memo.pllFreq = 0
      · obtain ⟨fin, m, hin, -⟩ := ih (hpll rfl)
        exact ⟨_, _, freqWalk_pllOut_of_stale hnode hmemo hin, fun hne => absurd hmemo hne⟩
      · exact ⟨_, _, freqWalk_pllOut_of_memo hnode hmemo, fun _ => rfl⟩
    | derived input divs =>
      have hinput : ∃ f m, inputWalk cfg hw depth memo input = some (f, m) ∧ (memo.pllFreq ≠ 0 → m = memo) := by
        cases input with
        | direct pred => exact ih (hpreds pred (List.mem_singleton_self pred))
        | mux sel table =>
          cases hpick : muxLookup table (hw.read (.tree sel)) with
          | none => exact ⟨0, memo, inputWalk_mux_of_unknown (muxLookup_none.1 hpick), fun _ => rfl⟩
          | some pred =>
            rw [inputWalk_mux_of_pick hpick]
            exact ih (hpreds pred (List.mem_map_of_mem (f := Prod.snd) (muxLookup_some hpick)))
      obtain ⟨f, m, hin, hkeep⟩ := hinput
      exact ⟨_, _, freqWalk_derived_of_input hnode hin, hkeep⟩

/-- Where the PLL's input is grounded, it resolves to one frequency with every memo, already at that depth (R144). -/
theorem pllInputIs_of_grounded (hw : Hw) (hg : grounded cfg.graph depth cfg.graph.pllIn = true)
    (hdepth : depth ≤ cfg.graph.count) :
    ∃ fin, PllInputIs cfg hw fin ∧ ∀ memo, freqWalk cfg hw depth cfg.graph.pllIn memo = some (fin, memo) := by
  have hex : ∃ d, grounded cfg.graph d cfg.graph.pllIn = true := ⟨depth, hg⟩
  obtain ⟨fin, -, hwalk⟩ := walk_of_grounded cfg hw (first := Nat.find hex)
    (fun d hd => by simpa using Nat.find_min hex hd) le_rfl (Nat.find_spec hex)
  have hfind : Nat.find hex ≤ depth := Nat.find_le hg
  exact ⟨fin, (hwalk _ (hfind.trans hdepth)).2, (hwalk _ hfind).2⟩

/-- R137, R144: with a memo of 0 the PLL output walks to the rate of the registers for what the PLL's input resolves to
with every memo, and stores it. -/
theorem freqWalk_pllOut_resolves (hw : Hw) {memo : Memo} (hok : graphOk cfg.graph = true)
    (hnode : cfg.graph.nodes[id]? = some .pllOut) (hstale : memo.pllFreq = 0) :
    ∃ fin, PllInputIs cfg hw fin ∧ freqWalk cfg hw cfg.graph.count id memo =
      some ((memo.store (rateOf cfg fin (snapshotPset hw))).pllFreq.toNat,
        memo.store (rateOf cfg fin (snapshotPset hw))) := by
  have hg := grounded_of_graphOk hok (lt_count_of_node hnode)
  obtain ⟨depth, hcount⟩ := count_eq_succ_of_node hnode
  rw [hcount] at hg ⊢
  obtain ⟨nd, hnode', -, hpll⟩ := grounded_succ_iff.1 hg
  cases hnode.symm.trans hnode'
  obtain ⟨fin, hfin, hwalk⟩ := pllInputIs_of_grounded hw (hpll rfl) (hcount ▸ Nat.le_succ depth)
  exact ⟨fin, hfin, freqWalk_pllOut_of_stale hnode hstale (hwalk memo)⟩

end

/-! ### Frequencies that a word holds -/

theorem freqWord_of_word (draw : Nat) (w : Word32) : freqWord draw w.toNat = w := by
  rw [freqWord_of_lt w.isLt, BitVec.ofNat_toNat, BitVec.setWidth_eq]

theorem freqDraws_of_word (w : Word32) : freqDraws w.toNat = 0 := freqDraws_of_lt w.isLt

theorem freqDraws_of_ge {v : Nat} (h : ¬ v < freqLimit) : freqDraws v = 1 := if_neg h

/-! ### The commands -/

section
variable {s : State} {f : Nat}

/-- FREQ.AT gives what the walk gives, and the walk's memo (R139). -/
theorem exec_freqAt_of_walk {m : Memo} (ha : s.a.toNat < s.cfg.graph.count)
    (hwalk : freqWalk s.cfg s.hw s.cfg.graph.count s.a.toNat s.memo = some (f, m)) :
    exec .freqAt s = .next { s with
      r := freqWord m.draws f, st := 0, held := { s.held with r := true, st := true }, pllFreq := m.pllFreq,
      draws := m.draws + freqDraws f } := by
  have harm : exec .freqAt s = execFreqAt s := rfl
  rw [harm, execFreqAt, if_neg ha.not_ge, hwalk]
  rfl

/-- FREQ.AT of a node whose walk answers at every depth with a frequency that fits and the memo as it was. -/
theorem exec_freqAt_of_memo_kept {nd : Node} (hnode : s.cfg.graph.nodes[s.a.toNat]? = some nd)
    (hwalk : ∀ depth, freqWalk s.cfg s.hw (depth + 1) s.a.toNat s.memo = some (f, s.memo)) (hfit : f < freqLimit) :
    exec .freqAt s = .next { s with
      r := BitVec.ofNat 32 f, st := 0, held := { s.held with r := true, st := true } } := by
  obtain ⟨depth, hcount⟩ := count_eq_succ_of_node hnode
  have hwalk' : freqWalk s.cfg s.hw s.cfg.graph.count s.a.toNat s.memo = some (f, s.memo) := by
    rw [hcount]
    exact hwalk depth
  rw [exec_freqAt_of_walk (lt_count_of_node hnode) hwalk', freqWord_of_lt hfit, freqDraws_of_lt hfit]
  rfl

/-- PLL.RATE gives the rate of the registers for what the PLL's input resolves to (R141). -/
theorem exec_pllRate_of_input {fin : Nat} (h : pllInput s.cfg s.hw = some fin) :
    exec .pllRate s = .next { s with
      r := freqWord s.draws (rateOf s.cfg fin (snapshotPset s.hw)), st := 0,
      held := { s.held with r := true, st := true },
      draws := s.draws + freqDraws (rateOf s.cfg fin (snapshotPset s.hw)) } := by
  have harm : exec .pllRate s = execPllRate s := rfl
  rw [harm, execPllRate, h]
  rfl

/-- PLL.OUT gives the memo (R142, first case). -/
theorem exec_pllOut_of_memo (hflag : s.recompute = false) (hmemo : s.pllFreq ≠ 0) :
    exec .pllOut s = .next { s with r := s.pllFreq, st := 0, held := { s.held with r := true, st := true } } := by
  have harm : exec .pllOut s = execPllOut s := rfl
  simp only [harm, execPllOut, hflag, hmemo, decide_false, Bool.or_false, Bool.false_eq_true, if_false]
  rfl

/-- PLL.OUT computes the memo first (R142, second case). -/
theorem exec_pllOut_of_input {fin : Nat} (hstale : s.recompute = true ∨ s.pllFreq = 0)
    (h : pllInput s.cfg s.hw = some fin) :
    exec .pllOut s = .next { s with
      r := freqWord s.draws (rateOf s.cfg fin (snapshotPset s.hw)),
      pllFreq := freqWord s.draws (rateOf s.cfg fin (snapshotPset s.hw)), st := 0,
      held := { s.held with r := true, st := true },
      draws := s.draws + freqDraws (rateOf s.cfg fin (snapshotPset s.hw)) } := by
  have harm : exec .pllOut s = execPllOut s := rfl
  rw [harm, execPllOut, if_pos (by simpa using hstale), h]
  rfl

/-- PLL.RATEPS gives the rate of `PS` for the input in `A` (R143). -/
theorem exec_pllRatePs_eq (s : State) :
    exec .pllRatePs s = .next { s with
      r := freqWord s.draws (rateOf s.cfg s.a.toNat s.ps), st := 0, held := { s.held with r := true, st := true },
      draws := s.draws + freqDraws (rateOf s.cfg s.a.toNat s.ps) } := rfl

end

/-! ### The rate formula -/

section
variable {cfg : Config} {fin : Nat} {ps : Sys2Proof.PSet}

theorem one_le_orDefault1 (found : Option Nat) : 1 ≤ orDefault1 found := by
  match found with
  | none | some 0 => exact le_rfl
  | some (raw + 1) => exact Nat.succ_pos raw

/-- A divider that decodes counts as itself, and 0 as 1 (R77). -/
theorem orDefault1_some (raw : Nat) : orDefault1 (some raw) = if raw = 0 then 1 else raw := by
  cases raw <;> rfl

theorem one_le_rateN (cfg : Config) (ps : Sys2Proof.PSet) : 1 ≤ rateN cfg ps := by
  unfold rateN
  split
  · exact le_rfl
  · exact one_le_orDefault1 _

theorem one_le_ratePd (cfg : Config) (ps : Sys2Proof.PSet) : 1 ≤ ratePd cfg ps := by
  unfold ratePd
  split
  · exact le_rfl
  · exact Nat.mul_pos two_pos (one_le_orDefault1 _)

theorem rateOf_of_bypass (h : ps.bypass = true) : rateOf cfg fin ps = fin := if_pos h

/-- The rate outside spread-spectrum mode (R140). -/
theorem rateOf_of_not_ss (hbypass : ps.bypass = false) (hss : ps.ssEnabled = false) :
    rateOf cfg fin ps =
      (fin / rateN cfg ps) * feedbackFactor ps.fbdiv2 * orDefault1 (decodeDivider cfg .m ps.mult) / ratePd cfg ps := by
  simp [rateOf, rateCco, hbypass, hss]

/-- The rate in spread-spectrum mode (R140): the multiplier is an integer part above `FRAC_W` bits of fraction (R56). -/
theorem rateOf_of_ss (hbypass : ps.bypass = false) (hss : ps.ssEnabled = true) :
    rateOf cfg fin ps =
      ((fin / rateN cfg ps) * feedbackFactor ps.fbdiv2 * (ps.mult / 2048) +
        (fin / rateN cfg ps) * feedbackFactor ps.fbdiv2 * (ps.mult % 2048) / 2048) / ratePd cfg ps := by
  have hint : ps.mult >>> fracW = ps.mult / 2048 := Nat.shiftRight_eq_div_pow ps.mult 11
  have hfrac : ps.mult &&& 0x7FF = ps.mult % 2048 := Nat.and_two_pow_sub_one_eq_mod ps.mult 11
  simp [rateOf, rateCco, hbypass, hss, hint, hfrac]

end

/-! ### The rate of a synthesized set -/

section
variable {cfg : Config} {raw : SynthRaw}

/-- The pre-divider of a packed set decodes to the one synthesized, or is bypassed when that is 1 (R110, R146). -/
theorem rateN_pack (ha : admissible cfg = true) (draw : Nat) (hpos : 1 ≤ raw.n) (hmax : raw.n ≤ 256)
    (hdirect : raw.directI = decide (raw.n = 1)) : rateN cfg (pack cfg raw draw) = raw.n := by
  obtain ⟨-, -, hfam⟩ := admissible_iff.1 ha
  have hbit : (pack cfg raw draw).directI = decide (raw.n = 1) := hdirect
  rw [rateN, hbit, (pack_codes ha raw draw).1, decodeDivider_encodeDivider (hfam .n) hmax, orDefault1_some,
    if_neg (Nat.pos_iff_ne_zero.1 hpos)]
  split
  · next h => exact (of_decide_eq_true h).symm
  · rfl

/-- The post-divider of a packed set decodes to the one synthesized, or is bypassed when that is 0 (R110, R146). -/
theorem ratePd_pack (ha : admissible cfg = true) (draw : Nat) (hmax : raw.p ≤ 32)
    (hdirect : raw.directO = decide (raw.p = 0)) :
    ratePd cfg (pack cfg raw draw) = if raw.p = 0 then 1 else 2 * raw.p := by
  obtain ⟨-, -, hfam⟩ := admissible_iff.1 ha
  have hbit : (pack cfg raw draw).directO = decide (raw.p = 0) := hdirect
  rw [ratePd, hbit, (pack_codes ha raw draw).2, decodeDivider_encodeDivider (hfam .p) hmax, orDefault1_some]
  by_cases hzero : raw.p = 0 <;> simp [hzero]

/-- The multiplier of a packed set outside spread-spectrum mode decodes to the one synthesized (R110, R146). -/
theorem decode_mult_pack (ha : admissible cfg = true) (draw : Nat) (hss : raw.ss = false) (hmax : raw.m ≤ 32768) :
    decodeDivider cfg .m (pack cfg raw draw).mult = some raw.m := by
  obtain ⟨-, -, hfam⟩ := admissible_iff.1 ha
  have hmult : (pack cfg raw draw).mult = packMult cfg raw draw := rfl
  rw [hmult, packMult_of_not_ss hss, if_neg hmax.not_gt, decodeDivider_encodeDivider (hfam .m) hmax]

end

end Sys2Proof.Machine
end

section
/-! SUPPORT. The theorems that settle the statements about the Clock-Tree Resolver
(spec/44_clock_tree_resolver.md). -/

namespace Sys2Proof.Machine

/-- Settles O48: the least grounded depth is a rank; and where a rank falls along every edge, counting the nodes below
bounds the depth of every walk by the node count. -/
theorem graphCheckMeansRanked : Obligations.GraphCheckMeansRanked := by
  intro g
  rw [graphOk_iff]
  constructor
  · rintro ⟨hpll, hground, htables, hfields, hone⟩
    refine ⟨hpll, fun nd hnd p hp => ?ids, htables, ⟨groundDepth g, fun id nd hnode => ?falls⟩, hfields, hone⟩
    case falls => exact groundDepth_falls (hground id (lt_count_of_node hnode)) hnode
    case ids =>
      obtain ⟨id, hnode⟩ := List.getElem?_of_mem hnd
      obtain ⟨depth, hcount⟩ := count_eq_succ_of_node hnode
      obtain ⟨nd', hnode', hpreds, -⟩ := grounded_succ_iff.1 (hcount ▸ hground id (lt_count_of_node hnode))
      cases hnode.symm.trans hnode'
      exact lt_count_of_grounded (hpreds p hp)
  · rintro ⟨hpll, hids, htables, ⟨rank, hfalls⟩, hfields, hone⟩
    exact ⟨hpll, fun id hid => grounded_of_rank hpll hids hfalls hid (nodesBelow_lt_count hid), htables, hfields, hone⟩

/-- Settles O38: a `Derived` node divides what its input walks to, and the divisions keep 0. -/
theorem zeroIsAbsorbing : Obligations.ZeroIsAbsorbing := by
  intro cfg hw depth id memo input divs hnode
  have hwalk {f : Nat} {m : Memo} (hin : inputWalk cfg hw depth memo input = some (f, m)) :
      freqWalk cfg hw (depth + 1) id memo = some (divideAll hw divs f, m) := freqWalk_derived_of_input hnode hin
  refine ⟨?direct, ?selected, ?unknown, ?divider, ?directZero, ?selectedZero⟩
  case direct =>
    rintro pred f m rfl hpred
    exact hwalk hpred
  case selected =>
    rintro sel table pred f m rfl hnodup hmem hpred
    exact hwalk ((inputWalk_mux_of_pick (muxLookup_of_mem hnodup hmem)).trans hpred)
  case unknown =>
    rintro sel table rfl hunknown
    rw [hwalk (inputWalk_mux_of_unknown hunknown), divideAll_zero]
  case divider =>
    intro d hd hzero f m hf
    cases depth with
    | zero => cases hf
    | succ depth =>
      rw [freqWalk_derived hnode, Option.map_eq_some_iff] at hf
      obtain ⟨⟨fin, m'⟩, -, heq⟩ := hf
      cases heq
      exact divideAll_of_zero_mem hd hzero fin
  case directZero =>
    rintro pred m rfl hpred
    rw [hwalk hpred, divideAll_zero]
  case selectedZero =>
    rintro sel table pred m rfl hnodup hmem hpred
    rw [hwalk ((inputWalk_mux_of_pick (muxLookup_of_mem hnodup hmem)).trans hpred), divideAll_zero]

/-- Settles O40: every node of the graph is grounded, so its walk answers. -/
theorem freqAtCompletesOnEveryNode : Obligations.FreqAtCompletesOnEveryNode := by
  intro s hok ha
  obtain ⟨f, m, hwalk, hkeep⟩ := freqWalk_of_grounded s.hw s.memo (grounded_of_graphOk hok ha)
  refine ⟨f, m, hwalk, exec_freqAt_of_walk ha hwalk, fun hne => ?_⟩
  rw [hkeep hne]
  exact ⟨rfl, rfl⟩

/-- Settles O42, by whether the memo is 0; what the walk stores fits the register that it is returned in. -/
theorem pllOutNodeReadsTheMemo : Obligations.PllOutNodeReadsTheMemo := by
  intro s hok hnode
  constructor
  · intro hmemo
    rw [exec_freqAt_of_memo_kept hnode (fun _ => freqWalk_pllOut_of_memo hnode hmemo) s.pllFreq.isLt]
    simp [State.memo]
  · intro hstale
    obtain ⟨fin, hfin, hwalk⟩ := freqWalk_pllOut_resolves s.hw (memo := s.memo) hok hnode hstale
    refine ⟨fin, hfin, ?_⟩
    rw [exec_freqAt_of_walk (lt_count_of_node hnode) hwalk, freqWord_of_word, freqDraws_of_word]
    rfl

/-- Settles O44: on a graph that the check accepts the PLL's input resolves. -/
theorem pllRateIsAFunctionOfTheSnapshot : Obligations.PllRateIsAFunctionOfTheSnapshot := by
  refine fun s => ⟨rfl, fun hok => ?_⟩
  obtain ⟨fin, hfin, hinput, -⟩ := pllInput_resolves s.hw hok
  exact ⟨fin, hfin, exec_pllRate_of_input hinput⟩

/-- Settles O45, by whether PLL.OUT computes the memo. -/
theorem pllOutRecomputesOnRequestOrWhenStale : Obligations.PllOutRecomputesOnRequestOrWhenStale := by
  refine fun s => ⟨exec_pllOut_of_memo, fun hok hstale => ?_⟩
  obtain ⟨fin, hfin, hinput, -⟩ := pllInput_resolves s.hw hok
  exact ⟨fin, hfin, exec_pllOut_of_input hstale hinput⟩

/-- Settles O47: each code of the packed set decodes to the raw value that it was packed from. -/
theorem rateUndoesTheSynthesis : Obligations.RateUndoesTheSynthesis := by
  intro cfg k raw draw ha hraw hss hm
  have hrange := exists_synthRaw_ok_iff.1 ⟨_, hraw⟩
  obtain ⟨p, hp, rfl⟩ := synthRaw_ok hraw
  obtain ⟨hnpos, hnmax, -⟩ := preDivOf_bounds hrange (ccoOf k.fout.toNat p)
  obtain ⟨hpmax, -, -⟩ := postDivSearch_eq_some hp
  rw [rateOf_of_not_ss rfl hss, rateN_pack ha draw hnpos hnmax rfl, ratePd_pack ha draw hpmax rfl,
    decode_mult_pack ha draw hss hm, orDefault1_some]
  rfl

/-- Settles O37, by the kind of the source. -/
theorem freqAtOfTheSources : Obligations.FreqAtOfTheSources := by
  refine fun s => ⟨fun rate hnode hfit => ?fixed, fun hnode hfit => ?ext, fun rate gate on hnode hfit => ?gated⟩
  case fixed => exact exec_freqAt_of_memo_kept hnode (fun _ => freqWalk_fixed hnode) hfit
  case ext => exact exec_freqAt_of_memo_kept hnode (fun _ => freqWalk_ext hnode) hfit
  case gated =>
    have hfit' : (if s.hw.read (.tree gate) = on then rate else 0) < freqLimit := by
      split
      · exact hfit
      · exact Nat.two_pow_pos 32
    rw [exec_freqAt_of_memo_kept hnode (fun _ => freqWalk_gated hnode) hfit', apply_ite (BitVec.ofNat 32)]
    rfl

/-- Settles O39: an unknown selection walks to 0, and the dividers keep it. -/
theorem unknownSelectionGivesZero : Obligations.UnknownSelectionGivesZero := by
  intro s sel table divs hnode hunknown
  refine exec_freqAt_of_memo_kept hnode (fun depth => ?_) (Nat.two_pow_pos 32)
  rw [freqWalk_derived_of_input hnode (inputWalk_mux_of_unknown hunknown), divideAll_zero]

/-- Settles O43, by the mode of the set. -/
theorem rateFormulaOfTheObservedSet : Obligations.RateFormulaOfTheObservedSet := fun cfg _ ps =>
  ⟨rateOf_of_bypass, one_le_rateN cfg ps, one_le_ratePd cfg ps, rfl, rfl, rateOf_of_not_ss, rateOf_of_ss⟩

/-- Settles O46, by whether the rate fits 32 bits. -/
theorem pllRatePsChangesOnlyTheResult : Obligations.PllRatePsChangesOnlyTheResult := by
  intro s
  constructor
  · intro hfit
    rw [exec_pllRatePs_eq, freqWord_of_lt hfit, freqDraws_of_lt hfit]
    rfl
  · intro hwide
    rw [exec_pllRatePs_eq, freqWord_of_ge hwide.not_gt, freqDraws_of_ge hwide.not_gt]

end Sys2Proof.Machine
end

section
/-! SUPPORT. What one `instant` does for a running APPLY, what `HW` holds after steps 1 to 3, how an APPLY runs that
goes on without an instant, and what the steps of an unanswered lock wait amount to (R150 to R160). -/

namespace Sys2Proof.Machine

/-! ### One step at a time -/

/-- The first of the steps is done, and it stays to do only where it repeats. -/
theorem applyNext_cons {x : ApplyStep} {rest : List ApplyStep} {s t : State} (h : performStep x s = .next t) :
    applyNext (x :: rest) s = .next (t.withPending (if x.repeats s then x :: rest else rest)) := by
  simp [applyNext, h]

/-- Where an instant is next, a running APPLY does the first thing that is still to do. -/
theorem step_instant {s t : State} {x : ApplyStep} {more : List ApplyStep} {rest : List Action}
    (hpending : s.pending = x :: more) (hi : s.inputs = .instant :: rest)
    (h : performStep x { s with inputs := rest } = .next t) :
    step s = .next (t.withPending (if x.repeats s then x :: more else more)) := by
  have hbusy : s.pending ≠ [] := by simp [hpending]
  have hnext : takeActionBusy .instant { s with inputs := rest } = applyNext (x :: more) { s with inputs := rest } := by
    rw [takeActionBusy, hpending]
  have hrepeats : x.repeats { s with inputs := rest } = x.repeats s := by cases x <;> rfl
  rw [step_action_busy hbusy hi, hnext, applyNext_cons h, hrepeats]

theorem performStep_poll_of_unlocked {s : State} (h : s.hw.pll.lock = false) :
    performStep .poll s = .next (s.record (.fieldRead .lock 0)) := by
  simp [performStep, Hw.read, h]

theorem ApplyStep.repeats_poll_of_unlocked {s : State} (h : s.hw.pll.lock = false) :
    ApplyStep.poll.repeats s = true := by
  simp [ApplyStep.repeats, h]

/-- A poll that reads 0 ends the step with the same things still to do (R156, R177). -/
theorem applyAll_poll_unlocked {s : State} (h : s.hw.pll.lock = false) (more : List ApplyStep) :
    applyAll (.poll :: more) s = .next ((s.record (.fieldRead .lock 0)).withPending (.poll :: more)) :=
  applyAll_cons_repeats (performStep_poll_of_unlocked h) (ApplyStep.repeats_poll_of_unlocked h)

/-! ### Steps 1 to 3 -/

theorem applyEvents_eq (cfg : Config) (ps : PSet) (pulse : Bool) :
    applyEvents cfg ps pulse = configEvents cfg ps ++ (if pulse then pulseEvents cfg ps else []) := rfl

/-- Everything an APPLY does, as R160 lists it. -/
theorem State.applySteps_eq (s : State) :
    s.applySteps =
      (configEvents s.cfg s.ps ++ (if s.powerUp || s.waitForLock then pulseEvents s.cfg s.ps else [])).map .event ++
        ((if s.waitForLock then [.poll] else []) ++ closingSteps s.adjustVoltage) := by
  simp only [State.applySteps, Sys2Proof.Machine.applySteps, applyEvents_eq, closingSteps, List.append_assoc]

theorem bitOf_toNat_bool (b : Bool) : bitOf b.toNat = b := by cases b <;> rfl

/-- Step 2a writes the filter coefficients and the mode bits (R153). -/
theorem foldl_onHw_controlWrites (ps : PSet) (hw : Hw) :
    (controlWrites ps).foldl (fun h e => e.onHw h) hw =
      { hw with pll := { hw.pll with
        selP := ps.selP, selI := ps.selI, selR := ps.selR, directI := ps.directI, directO := ps.directO,
        bypass := ps.bypass, fbdiv2 := ps.fbdiv2, ssen := ps.ssEnabled } } := by
  simp only [controlWrites, List.foldl_cons, List.foldl_nil, Event.onHw, Hw.write, bitOf_toNat_bool]

/-- A LatchWrite of a code leaves its value in the field and the request bit at 1 (R152). -/
theorem foldl_onHw_latchWrite {x req : HwField} (v : Nat) (hw : Hw)
    (h : (x, req) ∈ [(HwField.ndec, HwField.nreq), (.pdec, .preq), (.mult, .mreq)]) :
    (latchWrite x req v).foldl (fun h e => e.onHw h) hw = (hw.write x v).write req 1 := by
  simp only [List.mem_cons, Prod.mk.injEq, List.not_mem_nil, or_false] at h
  rcases h with ⟨rfl, rfl⟩ | ⟨rfl, rfl⟩ | ⟨rfl, rfl⟩ <;> rfl

/-- Step 2b writes the three codes and leaves their request bits at 1 (R152). -/
theorem foldl_onHw_dividerWrites (ps : PSet) (hw : Hw) :
    (dividerWrites ps).foldl (fun h e => e.onHw h) hw =
      { hw with pll := { hw.pll with
        ndec := ps.ndec, pdec := ps.pdec, mult := ps.mult, nreq := true, preq := true, mreq := true } } := by
  rw [dividerWrites, List.foldl_append, List.foldl_append, foldl_onHw_latchWrite _ _ (by simp),
    foldl_onHw_latchWrite _ _ (by simp), foldl_onHw_latchWrite _ _ (by simp)]
  simp only [Hw.write, BitVec.ofNat_toNat, BitVec.setWidth_eq]
  rfl

/-- Events 1 to 15 write every PLL field but the lock bit (R152, R153). -/
theorem foldl_onHw_configEvents (cfg : Config) (ps : PSet) (hw : Hw) :
    (configEvents cfg ps).foldl (fun h e => e.onHw h) hw = hw.applied ps := by
  have hsteps : configEvents cfg ps = .pdEnable cfg.pllDomain :: (controlWrites ps ++ dividerWrites ps) := rfl
  rw [hsteps, List.foldl_cons, List.foldl_append, foldl_onHw_controlWrites, foldl_onHw_dividerWrites]
  rfl

/-- The bring-up pulse ends with the multiplier of the set again (R155). -/
theorem foldl_onHw_pulseEvents (cfg : Config) (ps : PSet) (hw : Hw) :
    (pulseEvents cfg ps).foldl (fun h e => e.onHw h) (hw.applied ps) = hw.applied ps := rfl

/-- The state in which steps 1 to 3 of an APPLY of the set in `PS` and the flags in `F` leave the machine. -/
def State.configured (s : State) : State :=
  { s with
    hw := s.hw.applied s.ps
    trace := s.trace ++
      (configEvents s.cfg s.ps ++ (if s.powerUp || s.waitForLock then pulseEvents s.cfg s.ps else [])) }

theorem State.performAll_configured (s : State) :
    s.performAll (configEvents s.cfg s.ps ++ (if s.powerUp || s.waitForLock then pulseEvents s.cfg s.ps else [])) =
      s.configured := by
  rw [State.performAll_eq, List.foldl_append, foldl_onHw_configEvents]
  cases hpulse : s.powerUp || s.waitForLock
  · simp [State.configured, hpulse]
  · simp [State.configured, hpulse, foldl_onHw_pulseEvents]

/-! ### The PLL's input does not depend on the PLL's registers -/

/-- With a memo that is not 0 a walk depends on the clock-tree fields alone: it never takes the rate of the registers
(R137). -/
theorem freqWalk_congr_of_memo {cfg : Config} {hw hw' : Hw} (htree : hw'.tree = hw.tree) {memo : Memo}
    (hmemo : memo.pllFreq ≠ 0) (depth id : Nat) : freqWalk cfg hw' depth id memo = freqWalk cfg hw depth id memo := by
  induction depth generalizing id with
  | zero => rfl
  | succ depth ih =>
    simp only [freqWalk, Hw.read_tree_congr htree, divideAll_congr htree, if_neg hmemo, ih]

/-- On a graph that the check accepts the PLL's input is the same for every `HW` with the same clock-tree fields
(R144). -/
theorem pllInput_of_tree {cfg : Config} {hw hw' : Hw} {fin : Nat} (hok : graphOk cfg.graph = true)
    (htree : hw'.tree = hw.tree) (h : PllInputIs cfg hw fin) : pllInput cfg hw' = some fin := by
  obtain ⟨fin', hfin', hinput', -⟩ := pllInput_resolves hw' hok
  have hsame : some (fin', (⟨1, 0⟩ : Memo)) = some (fin, ⟨1, 0⟩) :=
    calc some (fin', (⟨1, 0⟩ : Memo))
      _ = freqWalk cfg hw' cfg.graph.count cfg.graph.pllIn ⟨1, 0⟩ := (hfin' _).symm
      _ = freqWalk cfg hw cfg.graph.count cfg.graph.pllIn ⟨1, 0⟩ := freqWalk_congr_of_memo htree (by decide) _ _
      _ = some (fin, ⟨1, 0⟩) := h _
  cases hsame
  exact hinput'

theorem pllInput_applied {cfg : Config} {hw : Hw} {fin : Nat} (hok : graphOk cfg.graph = true)
    (h : PllInputIs cfg hw fin) (ps : PSet) : pllInput cfg (hw.applied ps) = some fin :=
  pllInput_of_tree (hw := hw) (hw' := hw.applied ps) hok rfl h

theorem inputPath_applied (cfg : Config) (hw : Hw) (ps : PSet) : inputPath cfg (hw.applied ps) = inputPath cfg hw :=
  pathReads_congr (hw := hw) (hw' := hw.applied ps) rfl _ _

/-! ### APPLY, from its issue -/

/-- Where an instant is next, APPLY makes its first call, and everything after it is still to do. -/
theorem exec_apply_of_instant {s : State} {rest : List Action} (hi : s.inputs = .instant :: rest) :
    exec .apply s = .next { s with
      inputs := rest, trace := s.trace ++ [.pdEnable s.cfg.pllDomain],
      pending := ((configEvents s.cfg s.ps).tail ++
          (if s.powerUp || s.waitForLock then pulseEvents s.cfg s.ps else [])).map ApplyStep.event ++
        (if s.waitForLock then [.poll] else []) ++ closingSteps s.adjustVoltage } := by
  have hfirst : exec .apply s = applyNext s.applySteps s.dropInput := if_pos (by simp [State.instantNext, hi])
  have hdrop : s.dropInput = { s with inputs := rest } := by simp [State.dropInput, hi]
  rw [hfirst, hdrop, State.applySteps_eq, ← List.append_assoc]
  exact applyNext_cons (x := .event (.pdEnable s.cfg.pllDomain)) rfl

/-- Where no instant is next, APPLY does steps 1 to 3 and goes on with the rest. -/
theorem exec_apply_eq {s : State} (hnext : s.inputs.head? ≠ some .instant) :
    exec .apply s =
      applyAll ((if s.waitForLock then [.poll] else []) ++ closingSteps s.adjustVoltage) s.configured := by
  have hrun : exec .apply s = applyAll s.applySteps s := if_neg (by simpa [State.instantNext] using hnext)
  rw [hrun, State.applySteps_eq, applyAll_events, State.performAll_configured]

/-- The exact next state of an APPLY that completes in its step. -/
theorem exec_apply_completes {s : State} {fin : Nat} (hnext : s.inputs.head? ≠ some .instant)
    (hlock : s.waitForLock = false ∨ s.hw.pll.lock = true) (hin : pllInput s.cfg (s.hw.applied s.ps) = some fin) :
    exec .apply s = .next { s with
      hw := s.hw.applied s.ps, pllFreq := freqWord s.draws (rateOf s.cfg fin s.ps), st := 0, pending := [],
      held := { s.held with st := true }, draws := s.draws + freqDraws (rateOf s.cfg fin s.ps)
      trace := s.trace ++ configEvents s.cfg s.ps ++
        (if s.powerUp || s.waitForLock then pulseEvents s.cfg s.ps else []) ++
        (if s.waitForLock then [.fieldRead .lock 1] else []) ++
        closingEvents s.hw (inputPath s.cfg s.hw) (freqWord s.draws (rateOf s.cfg fin s.ps)) s.adjustVoltage } := by
  have hclosing (freq : Word32) : closingEvents (s.hw.applied s.ps) (inputPath s.cfg s.hw) freq s.adjustVoltage =
      closingEvents s.hw (inputPath s.cfg s.hw) freq s.adjustVoltage := rfl
  rw [exec_apply_eq hnext]
  cases hwait : s.waitForLock with
  | false =>
    refine (applyAll_closingSteps (s := s.configured) hin _).trans ?_
    simp [State.closed, State.configured, inputPath_applied, hclosing, hwait]
  | true =>
    have hshown : s.configured.hw.pll.lock = true := hlock.resolve_left (by simp [hwait])
    refine (applyAll_poll_locked hshown hin _).trans ?_
    simp [State.closed, State.configured, State.record, inputPath_applied, hclosing, hwait]

/-! ### The unanswered lock wait -/

/-- An input that an unanswered lock wait may meet: an instant, or an environment write of a value that fits and does
not set `PLL_LOCK`. -/
def LeavesUnlocked (cfg : Config) (act : Action) : Prop :=
  act = .instant ∨ ∃ x v, act = .hw x v ∧ (x = .lock → v = 0) ∧ x.admits cfg v = true

/-- APPLY is at its poll, `PLL_LOCK` is 0, and no input to come sets it. -/
structure AwaitsLock (s : State) : Prop where
  atPoll : s.pending.head? = some .poll
  unlocked : s.hw.pll.lock = false
  quiet : ∀ act ∈ s.inputs, LeavesUnlocked s.cfg act

/-- `s` after `n` inputs of an unanswered lock wait (all, where there are fewer) and `k` polls. -/
def State.waited (s : State) (n k : Nat) : State :=
  { s with
    inputs := s.inputs.drop n, hw := (s.inputs.take n).foldl (fun hw act => actionOnHw act hw) s.hw,
    trace := s.trace ++ List.replicate k (.fieldRead .lock 0) }

theorem State.waited_zero (s : State) : s.waited 0 0 = s := by simp [State.waited]

theorem State.waited_waited (s : State) (n m k l : Nat) : (s.waited n k).waited m l = s.waited (n + m) (k + l) := by
  simp [State.waited, List.take_add]

/-- A write of 0 to `PLL_LOCK` or of any other field leaves a lock bit of 0 at 0. -/
theorem Hw.write_lock_unlocked {hw : Hw} {x : HwField} {v : Nat} (h : hw.pll.lock = false) (hx : x = .lock → v = 0) :
    (hw.write x v).pll.lock = false := by
  cases x with
  | lock => rw [hx rfl]; rfl
  | _ => exact h

theorem LeavesUnlocked.lock {cfg : Config} {act : Action} {hw : Hw} (hact : LeavesUnlocked cfg act)
    (h : hw.pll.lock = false) : (actionOnHw act hw).pll.lock = false := by
  obtain rfl | ⟨x, v, rfl, hx, -⟩ := hact
  · exact h
  · exact Hw.write_lock_unlocked h hx

theorem AwaitsLock.waited_one {s : State} (h : AwaitsLock s) (k : Nat) : AwaitsLock (s.waited 1 k) := by
  refine ⟨h.atPoll, ?_, fun act hact => h.quiet act (List.mem_of_mem_drop hact)⟩
  cases hi : s.inputs with
  | nil => simpa [State.waited, hi] using h.unlocked
  | cons act rest => simpa [State.waited, hi] using (h.quiet act (by simp [hi])).lock h.unlocked

/-- A step of an unanswered lock wait takes the next input, if there is one, and polls, or takes an environment write
and does not poll. -/
theorem AwaitsLock.step_eq {s : State} (h : AwaitsLock s) :
    step s = .next (s.waited 1 1) ∨ (∃ x v rest, s.inputs = .hw x v :: rest) ∧ step s = .next (s.waited 1 0) := by
  obtain ⟨more, hpending⟩ : ∃ more, s.pending = .poll :: more := List.head?_eq_some_iff.1 h.atPoll
  have hbusy : s.pending ≠ [] := by simp [hpending]
  cases hi : s.inputs with
  | nil =>
    refine .inl ?_
    rw [step_running hbusy hi, hpending, applyAll_poll_unlocked h.unlocked]
    simp [State.waited, State.withPending, State.record, hi, hpending]
  | cons act rest =>
    obtain rfl | ⟨x, v, rfl, hx, hv⟩ := h.quiet act (by simp [hi])
    · refine .inl ((step_instant hpending hi (performStep_poll_of_unlocked h.unlocked)).trans ?_)
      simp [State.waited, State.withPending, State.record, hi, hpending, actionOnHw,
        ApplyStep.repeats_poll_of_unlocked h.unlocked]
    · cases henv : ({ s with inputs := rest } : State).environmentNext with
      | true =>
        refine .inr ⟨⟨x, v, rest, rfl⟩, ?_⟩
        rw [step_action_busy hbusy hi, takeActionBusy_hw (s := { s with inputs := rest }) hv (.inr henv)]
        simp [State.waited, State.environment, hi, actionOnHw]
      | false =>
        refine .inl ?_
        rw [step_action_busy hbusy hi, takeActionBusy_hw_polled (s := { s with inputs := rest }) hv
            (State.polling_iff.2 h.atPoll) henv, hpending,
          applyAll_poll_unlocked (Hw.write_lock_unlocked h.unlocked hx)]
        simp [State.waited, State.withPending, State.record, State.environment, hi, hpending, actionOnHw]

/-- How many environment writes are among the next `n` inputs of a lock wait, which are these and instants only. -/
def State.writesTaken (s : State) (n : Nat) : Nat := (s.inputs.take n).countP fun act => decide (act ≠ .instant)

theorem State.writesTaken_add (s : State) (n m k : Nat) :
    s.writesTaken (n + m) = s.writesTaken n + (s.waited n k).writesTaken m := by
  simp [State.writesTaken, State.waited, List.take_add]

/-- One step of an unanswered lock wait polls once, or takes an environment write. -/
theorem AwaitsLock.step_counts {s : State} (h : AwaitsLock s) :
    ∃ k, k ≤ 1 ∧ 1 ≤ k + s.writesTaken 1 ∧ step s = .next (s.waited 1 k) := by
  obtain hpoll | ⟨⟨x, v, rest, hi⟩, hwrite⟩ := h.step_eq
  · exact ⟨1, le_rfl, Nat.le_add_right 1 _, hpoll⟩
  · exact ⟨0, Nat.zero_le 1, by simp [State.writesTaken, hi], hwrite⟩

theorem Reaches.cons {s t u : State} {n : Nat} (hstep : step s = .next t) (h : Reaches n t u) :
    Reaches (n + 1) s u := by
  have hcore : core.step s = .next t := hstep
  simpa only [Reaches, Host.Core.run, hcore] using h

/-- Any number of steps of an unanswered lock wait (R156, R177). -/
theorem AwaitsLock.reaches {s : State} (h : AwaitsLock s) (n : Nat) :
    ∃ k, k ≤ n ∧ n ≤ k + s.writesTaken n ∧ Reaches n s (s.waited n k) := by
  induction n generalizing s with
  | zero => exact ⟨0, le_rfl, Nat.zero_le _, by rw [State.waited_zero]; rfl⟩
  | succ n ih =>
    obtain ⟨k, hk, hcount, hstep⟩ := h.step_counts
    obtain ⟨l, hl, hcount', hrun⟩ := ih (h.waited_one k)
    have hwrites := s.writesTaken_add 1 n k
    rw [State.waited_waited] at hrun
    rw [Nat.add_comm 1 n] at hwrites hrun
    exact ⟨k + l, by omega, by omega, Reaches.cons hstep hrun⟩

end Sys2Proof.Machine
end

section
/-! SUPPORT. The theorems that settle the statements about the PLL Apply/Lock Sequencer
(spec/45_apply_lock_sequencer.md). -/

namespace Sys2Proof.Machine

/-- Settles O49: the run where no instant is next, the issue where one is, and each kind of step at its instant. -/
theorem applyEventsInOrder : Obligations.ApplyEventsInOrder := by
  refine ⟨fun s hok hnext hlock => ?run, fun _ _ => exec_apply_of_instant, fun s x more rest hpending hi => ?instant⟩
  case run =>
    obtain ⟨fin, hfin, -, hpath⟩ := pllInput_resolves s.hw hok
    exact ⟨_, fin, _, exec_apply_completes hnext hlock (pllInput_applied hok hfin s.ps), hfin, hpath, rfl, rfl⟩
  case instant =>
    refine ⟨?event, ?poll, ?memo, ?voltage, ?status⟩
    case event =>
      rintro e rfl
      exact step_instant hpending hi rfl
    case poll =>
      rintro rfl
      refine (step_instant hpending hi rfl).trans ?_
      cases hlock : s.hw.pll.lock <;>
        simp [State.withPending, State.record, ApplyStep.repeats, Hw.read, hlock, hpending]
    case memo =>
      rintro rfl hok
      obtain ⟨fin, hfin, hinput, hpath⟩ := pllInput_resolves s.hw hok
      exact ⟨fin, _, hfin, hpath, step_instant hpending hi (performStep_memo_eq hinput)⟩
    case voltage =>
      rintro rfl
      exact step_instant hpending hi rfl
    case status =>
      rintro rfl
      exact step_instant hpending hi rfl

/-- Settles O50: the PLL's input over `HW` as steps 1 to 3 leave it is that of `HW` before. -/
theorem applyLeavesTheSetInHardware : Obligations.ApplyLeavesTheSetInHardware := by
  intro s hok hnext hlock
  obtain ⟨fin, hfin, -⟩ := pllInput_resolves s.hw hok
  exact ⟨_, fin, hfin, exec_apply_completes hnext hlock (pllInput_applied hok hfin s.ps)⟩

/-- Settles O51: steps 1 to 3 leave the lock bit at 0, so the first poll repeats. -/
theorem applyWaitsForTheLock : Obligations.ApplyWaitsForTheLock := by
  intro s hnext hwait hlock
  have hunlocked : s.configured.hw.pll.lock = false := hlock
  have hflag : s.waitForLock = true := hwait
  rw [exec_apply_eq hnext, hflag, if_pos rfl, List.singleton_append, applyAll_poll_unlocked hunlocked]
  simp only [State.configured, State.withPending, State.record, hflag, Bool.or_true, if_true, List.append_assoc]
  rfl

/-- Settles O52, by induction on the number of steps. -/
theorem unlockedWaitNeverEnds : Obligations.UnlockedWaitNeverEnds := fun n _ hpoll hlock hquiet =>
  AwaitsLock.reaches ⟨hpoll, hlock, hquiet⟩ n

end Sys2Proof.Machine
end

section
/-! SUPPORT. The theorem that settles the statement about a host write while a command runs
(spec/60_exceptions.md, R189). -/

namespace Sys2Proof.Machine

/-- R194, by cases on the action: each of the host's five writes is refused, and the environment's actions are not by the
host. -/
theorem takeActionBusy_of_byHost {act : Action} (hact : act.byHost = true) (s : State) :
    takeActionBusy act s = .refused .concurrentAccess := by
  cases act with
  | writeA | writeB | writeF | writePS | cmd => rfl
  | hw | reset | instant => cases hact

/-- Settles O54: a running APPLY takes its next input by `takeActionBusy`, which refuses the host's. -/
theorem hostAccessWhileBusyIsRefused : Obligations.HostAccessWhileBusyIsRefused := fun _ _ _ hbusy hi hact =>
  (step_action_busy hbusy hi).trans (takeActionBusy_of_byHost hact _)

end Sys2Proof.Machine
end
